-- ==== Sys2Proof/Word.lean ====
section
/-! DEFINITION. The word types of the SSBC and the command a host presents. -/

namespace Sys2Proof

/-- A 32-bit value: DIN, DOUT and every register are at most this wide (00_scope.md R10). -/
abbrev Word := BitVec 32

/-- A byte is 8 bits (00_scope.md R9). -/
abbrev Byte := BitVec 8

/-- A codepoint as PREV_CP and the codepoint tables hold it: 21 bits (10_state.md R44). -/
abbrev Codepoint := BitVec 21

/-- A command: the 16-bit word on CMD together with the 32-bit operand on DIN (30_encoding.md R100). -/
structure Command where
  /-- CMD = OP, ARG -/
  cmd : BitVec 16
  /-- DIN, sampled with every command, even by commands that ignore it -/
  din : Word
deriving DecidableEq, Repr

end Sys2Proof
end

