-- ==== Sys2Proof/Syntax.lean ====
section
/-! DEFINITION. The commands of the SSBC, one constructor per row of spec/opcode_table.json (30_encoding.md R108), with the
operands of R101 (from ARG) and R107 (from DIN). Bits of DIN that R107 does not name are no part of an instruction. -/

namespace Sys2Proof

/-- A decoded command. -/
inductive Instr where
  /-- R130 -/
  | nop
  /-- R131 -/
  | init
  /-- R132: r = ARG, a register number -/
  | rdreg (r : BitVec 8)
  /-- R140 -/
  | wclr
  /-- R141: b = DIN[0] -/
  | wbit (b : Bool)
  /-- R142: n = ARG, a bit count; v = DIN, of which the low n bits are used -/
  | wbits (n : BitVec 8) (v : Word)
  /-- R143: v = DIN[7:0] -/
  | wbyte (v : Byte)
  /-- R144 -/
  | wlen
  /-- R145 -/
  | wpad
  /-- R146 -/
  | wblen
  /-- R147: k = DIN[31:0], a byte index -/
  | wrdb (k : Word)
  /-- R160: ℓ = DIN[31:0], a view length in bytes -/
  | rbind (l : Word)
  /-- R161: k = DIN[31:8], an index; b = DIN[7:0] -/
  | rldb (k : BitVec 24) (b : Byte)
  /-- R162 -/
  | rbit
  /-- R163: n = ARG, a bit count -/
  | rbits (n : BitVec 8)
  /-- R164 -/
  | rbyte
  /-- R165 -/
  | rrem
  /-- R181: sym = DIN[31:0], a symbol index -/
  | penc28 (sym : Word)
  /-- R182: sym = DIN[31:0], a symbol index -/
  | penc5 (sym : Word)
  /-- R186 -/
  | pdec28
  /-- R187 -/
  | pdec5
  /-- R201: c = DIN[31:0], a codepoint -/
  | caenc (c : Word)
  /-- R202 -/
  | cadec
  /-- R206: c = DIN[31:0], a codepoint -/
  | cdenc (c : Word)
  /-- R207: j = DIN[31:0], a literal index -/
  | cdlit (j : Word)
  /-- R208 -/
  | cdleave
  /-- R210 -/
  | cddec
  /-- R231: t = DIN[31:0], a byte length -/
  | sinit (t : Word)
  /-- R232: m = ARG, a method tag; ℓ = DIN[31:0], a byte length -/
  | soffer (m : BitVec 8) (l : Word)
  /-- R233: u = DIN[31:0], a byte length -/
  | sfinal (u : Word)
  /-- R240: ℓ = DIN[31:8], a buffer length; b = DIN[7:0], its first byte -/
  | hclass (l : BitVec 24) (b : Byte)
deriving DecidableEq, Repr

end Sys2Proof
end

