-- ==== Sys2Proof/WellFormed.lean ====
section
/-! DEFINITION. The instructions that some legal command word stands for. -/

namespace Sys2Proof

/-- The one check: RDREG names a register 0x00..0x08 (30_encoding.md R101, R106). The counts of format N and the tags of
format M are all decoded (R101); their rules raise INVALID_ARGUMENT, so they are well-formed. -/
def Instr.wf : Instr → Bool
  | .nop => true
  | .init => true
  | .rdreg r => r.toNat ≤ 8
  | .wclr => true
  | .wbit _ => true
  | .wbits _ _ => true
  | .wbyte _ => true
  | .wlen => true
  | .wpad => true
  | .wblen => true
  | .wrdb _ => true
  | .rbind _ => true
  | .rldb _ _ => true
  | .rbit => true
  | .rbits _ => true
  | .rbyte => true
  | .rrem => true
  | .penc28 _ => true
  | .penc5 _ => true
  | .pdec28 => true
  | .pdec5 => true
  | .caenc _ => true
  | .cadec => true
  | .cdenc _ => true
  | .cdlit _ => true
  | .cdleave => true
  | .cddec => true
  | .sinit _ => true
  | .soffer _ _ => true
  | .sfinal _ => true
  | .hclass _ _ => true

end Sys2Proof
end

