-- ==== Sys2Proof/Decode.lean ====
section
/-! DEFINITION. From a command (CMD, DIN) to an instruction, by the opcode map of 30_encoding.md R108 and the decode order of
R109, and the encoder from the same map. -/

namespace Sys2Proof

/-- OP = CMD[15:8] (R100). -/
def Command.op (c : Command) : BitVec 8 := c.cmd.extractLsb' 8 8

/-- ARG = CMD[7:0] (R100). -/
def Command.arg (c : Command) : BitVec 8 := c.cmd.extractLsb' 0 8

/-- DIN[7:0], the byte operand of R107. -/
def Command.low8 (c : Command) : Byte := c.din.extractLsb' 0 8

/-- DIN[31:8], the 24-bit index or length of RLDB and HCLASS (R107). -/
def Command.high24 (c : Command) : BitVec 24 := c.din.extractLsb' 8 24

/-- Why a command word is illegal (R106). Each raises ILLEGAL_COMMAND. -/
inductive DecodeError where
  /-- OP is not in the opcode map -/
  | unknownOpcode
  /-- OP is a format-Z opcode and ARG ≠ 0 -/
  | nonzeroArg
  /-- OP is RDREG and ARG ≥ 0x09 -/
  | reservedRegister
deriving DecidableEq, Repr

/-- Format Z: ARG must be 0x00 (R101, R102). -/
def formatZ (c : Command) (i : Instr) : Except DecodeError Instr :=
  if c.arg = 0 then .ok i else .error .nonzeroArg

/-- Format R: ARG must be a register number 0x00..0x08 (R101, R104). -/
def formatR (c : Command) (i : Instr) : Except DecodeError Instr :=
  if c.arg.toNat ≤ 8 then .ok i else .error .reservedRegister

/-- The decoder: look OP up in the map, then check ARG by format (R109). Total on every command. -/
def decode (c : Command) : Except DecodeError Instr :=
  match c.op.toNat with
  | 0x00 => formatZ c .nop
  | 0x01 => formatZ c .init
  | 0x02 => formatR c (.rdreg c.arg)
  | 0x10 => formatZ c .wclr
  | 0x11 => formatZ c (.wbit (c.din.getLsbD 0))
  | 0x12 => .ok (.wbits c.arg c.din)
  | 0x13 => formatZ c (.wbyte c.low8)
  | 0x14 => formatZ c .wlen
  | 0x15 => formatZ c .wpad
  | 0x16 => formatZ c .wblen
  | 0x17 => formatZ c (.wrdb c.din)
  | 0x20 => formatZ c (.rbind c.din)
  | 0x21 => formatZ c (.rldb c.high24 c.low8)
  | 0x22 => formatZ c .rbit
  | 0x23 => .ok (.rbits c.arg)
  | 0x24 => formatZ c .rbyte
  | 0x25 => formatZ c .rrem
  | 0x30 => formatZ c (.penc28 c.din)
  | 0x31 => formatZ c (.penc5 c.din)
  | 0x32 => formatZ c .pdec28
  | 0x33 => formatZ c .pdec5
  | 0x40 => formatZ c (.caenc c.din)
  | 0x41 => formatZ c .cadec
  | 0x42 => formatZ c (.cdenc c.din)
  | 0x43 => formatZ c (.cdlit c.din)
  | 0x44 => formatZ c .cdleave
  | 0x45 => formatZ c .cddec
  | 0x50 => formatZ c (.sinit c.din)
  | 0x51 => .ok (.soffer c.arg c.din)
  | 0x52 => formatZ c (.sfinal c.din)
  | 0x53 => formatZ c (.hclass c.high24 c.low8)
  | _ => .error .unknownOpcode

/-- CMD = OP, ARG with the operand on DIN (R100). -/
def command (op arg : BitVec 8) (din : Word) : Command := { cmd := op ++ arg, din := din }

/-- The encoder, from the same map. DIN bits an instruction does not use are 0, as the assembler of R113 writes them. -/
def encode : Instr → Command
  | .nop => command 0x00 0 0
  | .init => command 0x01 0 0
  | .rdreg r => command 0x02 r 0
  | .wclr => command 0x10 0 0
  | .wbit b => command 0x11 0 (BitVec.zeroExtend 32 (BitVec.ofBool b))
  | .wbits n v => command 0x12 n v
  | .wbyte v => command 0x13 0 (BitVec.zeroExtend 32 v)
  | .wlen => command 0x14 0 0
  | .wpad => command 0x15 0 0
  | .wblen => command 0x16 0 0
  | .wrdb k => command 0x17 0 k
  | .rbind l => command 0x20 0 l
  | .rldb k b => command 0x21 0 (k ++ b)
  | .rbit => command 0x22 0 0
  | .rbits n => command 0x23 n 0
  | .rbyte => command 0x24 0 0
  | .rrem => command 0x25 0 0
  | .penc28 sym => command 0x30 0 sym
  | .penc5 sym => command 0x31 0 sym
  | .pdec28 => command 0x32 0 0
  | .pdec5 => command 0x33 0 0
  | .caenc c => command 0x40 0 c
  | .cadec => command 0x41 0 0
  | .cdenc c => command 0x42 0 c
  | .cdlit j => command 0x43 0 j
  | .cdleave => command 0x44 0 0
  | .cddec => command 0x45 0 0
  | .sinit t => command 0x50 0 t
  | .soffer m l => command 0x51 m l
  | .sfinal u => command 0x52 0 u
  | .hclass l b => command 0x53 0 (l ++ b)

/-- The formats of a command (R101). -/
inductive Format where
  | z
  | n
  | r
  | m
deriving DecidableEq, Repr

/-- A row of the opcode map (R108) with its match and mask (R109, spec/opcode_table.json). -/
structure OpcodeRow where
  mnemonic : String
  format : Format
  pattern : BitVec 16
  mask : BitVec 16
deriving DecidableEq, Repr

/-- A format-Z row: the whole word is fixed (R109). -/
def rowZ (mnemonic : String) (op : BitVec 8) : OpcodeRow := ⟨mnemonic, .z, op ++ 0#8, 0xFFFF⟩

/-- A row of another format: OP is fixed, ARG is free (R109). -/
def rowArg (mnemonic : String) (format : Format) (op : BitVec 8) : OpcodeRow := ⟨mnemonic, format, op ++ 0#8, 0xFF00⟩

/-- The row an instruction belongs to. -/
def opcodeRow : Instr → OpcodeRow
  | .nop => rowZ "NOP" 0x00
  | .init => rowZ "INIT" 0x01
  | .rdreg _ => rowArg "RDREG" .r 0x02
  | .wclr => rowZ "WCLR" 0x10
  | .wbit _ => rowZ "WBIT" 0x11
  | .wbits _ _ => rowArg "WBITS" .n 0x12
  | .wbyte _ => rowZ "WBYTE" 0x13
  | .wlen => rowZ "WLEN" 0x14
  | .wpad => rowZ "WPAD" 0x15
  | .wblen => rowZ "WBLEN" 0x16
  | .wrdb _ => rowZ "WRDB" 0x17
  | .rbind _ => rowZ "RBIND" 0x20
  | .rldb _ _ => rowZ "RLDB" 0x21
  | .rbit => rowZ "RBIT" 0x22
  | .rbits _ => rowArg "RBITS" .n 0x23
  | .rbyte => rowZ "RBYTE" 0x24
  | .rrem => rowZ "RREM" 0x25
  | .penc28 _ => rowZ "PENC28" 0x30
  | .penc5 _ => rowZ "PENC5" 0x31
  | .pdec28 => rowZ "PDEC28" 0x32
  | .pdec5 => rowZ "PDEC5" 0x33
  | .caenc _ => rowZ "CAENC" 0x40
  | .cadec => rowZ "CADEC" 0x41
  | .cdenc _ => rowZ "CDENC" 0x42
  | .cdlit _ => rowZ "CDLIT" 0x43
  | .cdleave => rowZ "CDLEAVE" 0x44
  | .cddec => rowZ "CDDEC" 0x45
  | .sinit _ => rowZ "SINIT" 0x50
  | .soffer _ _ => rowArg "SOFFER" .m 0x51
  | .sfinal _ => rowZ "SFINAL" 0x52
  | .hclass _ _ => rowZ "HCLASS" 0x53

/-- The opcode map (R108), in its order. -/
def opcodeTable : List OpcodeRow :=
  [rowZ "NOP" 0x00, rowZ "INIT" 0x01, rowArg "RDREG" .r 0x02] ++
  [rowZ "WCLR" 0x10, rowZ "WBIT" 0x11, rowArg "WBITS" .n 0x12, rowZ "WBYTE" 0x13, rowZ "WLEN" 0x14, rowZ "WPAD" 0x15,
   rowZ "WBLEN" 0x16, rowZ "WRDB" 0x17] ++
  [rowZ "RBIND" 0x20, rowZ "RLDB" 0x21, rowZ "RBIT" 0x22, rowArg "RBITS" .n 0x23, rowZ "RBYTE" 0x24, rowZ "RREM" 0x25] ++
  [rowZ "PENC28" 0x30, rowZ "PENC5" 0x31, rowZ "PDEC28" 0x32, rowZ "PDEC5" 0x33] ++
  [rowZ "CAENC" 0x40, rowZ "CADEC" 0x41, rowZ "CDENC" 0x42, rowZ "CDLIT" 0x43, rowZ "CDLEAVE" 0x44, rowZ "CDDEC" 0x45] ++
  [rowZ "SINIT" 0x50, rowArg "SOFFER" .m 0x51, rowZ "SFINAL" 0x52, rowZ "HCLASS" 0x53]

/-- The bits of DIN that an instruction's operand is taken from (R107); the others are ignored. -/
def dinMask : Instr → Word
  | .nop => 0
  | .init => 0
  | .rdreg _ => 0
  | .wclr => 0
  | .wbit _ => 1
  | .wbits _ _ => 0xFFFFFFFF
  | .wbyte _ => 0xFF
  | .wlen => 0
  | .wpad => 0
  | .wblen => 0
  | .wrdb _ => 0xFFFFFFFF
  | .rbind _ => 0xFFFFFFFF
  | .rldb _ _ => 0xFFFFFFFF
  | .rbit => 0
  | .rbits _ => 0
  | .rbyte => 0
  | .rrem => 0
  | .penc28 _ => 0xFFFFFFFF
  | .penc5 _ => 0xFFFFFFFF
  | .pdec28 => 0
  | .pdec5 => 0
  | .caenc _ => 0xFFFFFFFF
  | .cadec => 0
  | .cdenc _ => 0xFFFFFFFF
  | .cdlit _ => 0xFFFFFFFF
  | .cdleave => 0
  | .cddec => 0
  | .sinit _ => 0xFFFFFFFF
  | .soffer _ _ => 0xFFFFFFFF
  | .sfinal _ => 0xFFFFFFFF
  | .hclass _ _ => 0xFFFFFFFF

/-- The command whose bits, numbered as spec/opcode_table.json numbers them, are the low nbits of w: CMD is bits 15..0 and
DIN counts on from bit 16 (notes/assumptions/10.md). Every bit above nbits is 0. -/
def tableCommand (nbits w : Nat) : Command :=
  { cmd := BitVec.ofNat 16 (w % 2 ^ nbits), din := BitVec.ofNat 32 (w % 2 ^ nbits / 2 ^ 16) }

/-- What the decoder reads from the instruction whose table bits are w. -/
def decodeTableWord (nbits w : Nat) : Option Instr :=
  match decode (tableCommand nbits w) with
  | .ok i => some i
  | .error _ => none

end Sys2Proof
end

