-- ==== Sys2Proof/Config.lean ====
section
/-! DEFINITION. What is fixed before reset: the configuration parameters of 00_scope.md R8 and the constant tables of
10_state.md R48. The spec leaves the contents open; a model takes them as arguments, so they stand in `State.cfg` and every
claim ranges over them. The premises on them (R8, R84, R86, R88) are `configWf` in Machine/Operands.lean. -/

namespace Sys2Proof

/-- One entry (len, code) of a prefix-code table (20_memory.md R84). -/
structure PrefixEntry where
  len : Nat
  code : Nat
deriving DecidableEq, Repr

/-- The configuration: constant for the life of the hardware (00_scope.md R8, 10_state.md R48). -/
structure Config where
  /-- `P_WCAP`, the capacity of WMEM in bytes -/
  wcap : Nat
  /-- `P_RCAP`, the capacity of RMEM in bytes -/
  rcap : Nat
  /-- the 28-symbol prefix-code table -/
  pc28 : Vector PrefixEntry 28
  /-- the 5-symbol prefix-code table -/
  pc5 : Vector PrefixEntry 5
  /-- the 32-entry low-codepoint table of tier A -/
  lowcp : Vector Codepoint 32
  /-- the 4-entry common-symbol table of delta descriptor 7 (its contents are fixed by R88) -/
  lit4 : Vector Codepoint 4
  /-- `TIERB_SIZE`, the width of the tier-B codepoint window -/
  tierbSize : Nat
deriving DecidableEq, Repr

/-- EX5, the 5-symbol test table of 95_test_vectors.md §2.3. It is NOT the hardware's table. -/
def ex5 : Vector PrefixEntry 5 := #v[⟨2, 0⟩, ⟨2, 2⟩, ⟨2, 1⟩, ⟨3, 3⟩, ⟨3, 7⟩]

/-- EX28, the 28-symbol test table of 95_test_vectors.md §2.3. It is NOT the hardware's table. -/
def ex28 : Vector PrefixEntry 28 :=
  #v[⟨3, 0x00⟩, ⟨3, 0x04⟩, ⟨4, 0x02⟩, ⟨4, 0x0A⟩, ⟨4, 0x06⟩, ⟨4, 0x0E⟩, ⟨4, 0x01⟩, ⟨4, 0x09⟩, ⟨5, 0x05⟩, ⟨5, 0x15⟩,
     ⟨5, 0x0D⟩, ⟨5, 0x1D⟩, ⟨5, 0x03⟩, ⟨5, 0x13⟩, ⟨5, 0x0B⟩, ⟨5, 0x1B⟩, ⟨6, 0x07⟩, ⟨6, 0x27⟩, ⟨6, 0x17⟩, ⟨6, 0x37⟩,
     ⟨6, 0x0F⟩, ⟨6, 0x2F⟩, ⟨7, 0x1F⟩, ⟨7, 0x5F⟩, ⟨8, 0x3F⟩, ⟨8, 0xBF⟩, ⟨8, 0x7F⟩, ⟨8, 0xFF⟩]

/-- EXLOW, the low-codepoint test table of 95_test_vectors.md §2.4. It is NOT the hardware's table. -/
def exLow : Vector Codepoint 32 :=
  #v[0x00, 0x09, 0x0A, 0x0D, 0x7F, 0x80, 0x81, 0x82, 0x83, 0x84, 0x85, 0x86, 0x87, 0x88, 0x89, 0x8A,
     0x8B, 0x8C, 0x8D, 0x8E, 0x8F, 0x90, 0x91, 0x92, 0x93, 0x94, 0x95, 0x96, 0x97, 0x98, 0x99, 0x9A]

/-- LIT4: space, comma, period and newline (20_memory.md R88). -/
def lit4Table : Vector Codepoint 4 := #v[0x20, 0x2C, 0x2E, 0x0A]

/-- The configuration `State.reset` stands on: the test configuration of 95_test_vectors.md §2.
DESIGN CHOICE, unsafe (notes/assumptions/3.md): the spec leaves these contents open, and its test tables are not the
hardware's. Every claim about the machine ranges over all configurations; only `State.reset` itself rests on this one. -/
def Config.test : Config :=
  { wcap := 16, rcap := 16, pc28 := ex28, pc5 := ex5, lowcp := exLow, lit4 := lit4Table, tierbSize := 16384 }

end Sys2Proof
end

