-- ==== Sys2Proof/Machine/State.lean ====
section
/-! DEFINITION. The state of the SSBC (10_state.md R30), the reasons a step can stop, and the state after power-on reset. -/

namespace Sys2Proof.Machine

/-- The fault codes of 60_exceptions.md R250, by name. A fault of the SSBC is architectural: it is recorded in STATUS and the
machine goes on, so it is part of a next state. The reserved codes 0x09..0xFF are never recorded (93 U17). -/
inductive Cause where
  /-- 0x00: no fault -/
  | none
  /-- 0x01 -/
  | invalidArgument
  /-- 0x02 -/
  | invalidState
  /-- 0x03 -/
  | readOverrun
  /-- 0x04 -/
  | writeOverflow
  /-- 0x05 -/
  | badCode
  /-- 0x06 -/
  | badCodepoint
  /-- 0x07 -/
  | noPrev
  /-- 0x08 -/
  | illegalCommand
deriving DecidableEq, Repr

/-- The squash methods of 10_state.md R49. The reserved tags 5, 6 and 7 are never produced (93 U18). -/
inductive Method where
  | none
  | treeSquash
  | fixed4
  | fixed5
  | fixed6
deriving DecidableEq, Repr

/-- What CDDEC found (44_codepoint.md R210); the value 3 is never produced (93 U19). -/
inductive Kind where
  | delta
  | literal
  | leave
deriving DecidableEq, Repr

/-- The header classes of HCLASS (45_selector.md R240). -/
inductive HeaderClass where
  | empty
  | rawUtf8
  | packed
  | sequence
  | unicode
  | fixed6
  | fixed6Alt
  | fixed5Lower
  | fixed5Upper
  | fixed4
deriving DecidableEq, Repr

/-- A byte memory: its bytes that differ from what an unlisted address reads as, addresses rising (notes/assumptions/5.md).
The canonical form is `Memory.wf` in Machine/Ops.lean. -/
abbrev Memory := List Host.Cell

/-- Why the machine could stop. It never does: every condition the spec calls a fault is recorded in STATUS and the SSBC goes
on (60_exceptions.md R251), so nothing raises a host-level fault and the type has no value (notes/assumptions/6.md; safe). -/
inductive Fault
deriving DecidableEq, Repr

/-- Why an instruction has no meaning in the model. -/
inductive Refusal where
  /-- Raised by an arm of `exec` whose instruction has no meaning yet; safe. No arm of this model raises it. -/
  | notModelled (mnemonic : String)
deriving DecidableEq, Repr

/-- The state of the machine (10_state.md R30), with the configuration (00_scope.md R8) and the host's commands. -/
structure State where
  /-- STATUS.FAULT (R35) -/
  fault : Bool
  /-- STATUS.CAUSE (R35) -/
  cause : Cause
  /-- DOUT (R34) -/
  dout : Word
  /-- WMEM (R37) -/
  wmem : Memory
  /-- WPOS, a bit count (R38) -/
  wpos : Nat
  /-- RMEM (R41) -/
  rmem : Memory
  /-- RLEN, a byte count (R42) -/
  rlen : Nat
  /-- RPOS, a bit count (R43) -/
  rpos : Nat
  /-- PREV_CP (R44) -/
  prevCp : Codepoint
  /-- PREV_VALID (R44) -/
  prevValid : Bool
  /-- BEST_LEN (R45) -/
  bestLen : Word
  /-- BEST_METHOD (R45) -/
  bestMethod : Method
  /-- SEL_VALID (R45) -/
  selValid : Bool
  /-- RES_METHOD (R46) -/
  resMethod : Method
  /-- RES_SUCCESS (R46, R47) -/
  resSuccess : Bool
  /-- RES_VALID (R46) -/
  resValid : Bool
  /-- the constant tables (R48) and parameters (00_scope.md R8): no command writes them -/
  cfg : Config
  /-- the MODEL's own field: the commands the host is yet to present, first one first (notes/assumptions/1.md) -/
  pending : List Command
deriving DecidableEq, Repr

/-- Power-on reset (R51, 70_reset_and_hazards.md R280) of the SSBC configured as `cfg`. RMEM is unspecified after reset, any
value, a draw: the draw is the argument `rmem`, so a claim about `State.powerOn` holds for every draw. -/
def State.powerOn (cfg : Config) (rmem : Memory) : State :=
  { fault := false, cause := .none, dout := 0,
    wmem := [], wpos := 0,
    rmem := rmem, rlen := 0, rpos := 0,
    prevCp := 0, prevValid := false,
    bestLen := 0, bestMethod := .none, selValid := false,
    resMethod := .none, resSuccess := false, resValid := false,
    cfg := cfg, pending := [] }

/-- The one state after reset that the host's interface asks for: the power-on state in the test configuration of
95_test_vectors.md §2 (DESIGN CHOICE, notes/assumptions/3.md) with the all-zero draw of RMEM (DESIGN CHOICE,
notes/assumptions/4.md). No command is presented yet. -/
def State.reset : State := State.powerOn Config.test []

end Sys2Proof.Machine
end

