-- ==== Sys2Proof/Machine/Flags.lean ====
section
/-! DEFINITION. The status word, the register layouts that RDREG shows, and the layouts of the packed results. The SSBC has
no arithmetic flags (10_state.md R36); STATUS.FAULT is its only flag. -/

namespace Sys2Proof.Machine

/-- The number of a fault code (60_exceptions.md R250). -/
def causeCode : Cause → BitVec 8
  | .none => 0x00
  | .invalidArgument => 0x01
  | .invalidState => 0x02
  | .readOverrun => 0x03
  | .writeOverflow => 0x04
  | .badCode => 0x05
  | .badCodepoint => 0x06
  | .noPrev => 0x07
  | .illegalCommand => 0x08

/-- The 3-bit tag of a method (10_state.md R49). -/
def methodTag : Method → BitVec 3
  | .none => 0
  | .treeSquash => 1
  | .fixed4 => 2
  | .fixed5 => 3
  | .fixed6 => 4

/-- The 2-bit kind of CDDEC's result (44_codepoint.md R210). -/
def kindCode : Kind → BitVec 2
  | .delta => 0
  | .literal => 1
  | .leave => 2

/-- The 4-bit class code of HCLASS's result (45_selector.md R240). -/
def classCode : HeaderClass → BitVec 4
  | .empty => 0
  | .rawUtf8 => 1
  | .packed => 2
  | .sequence => 3
  | .unicode => 4
  | .fixed6 => 5
  | .fixed6Alt => 6
  | .fixed5Lower => 7
  | .fixed5Upper => 8
  | .fixed4 => 9

/-- STATUS: CAUSE at 15:8, FAULT at 0, every other bit hardwired 0 (10_state.md R35). -/
def statusWord (s : State) : Word := 0#16 ++ causeCode s.cause ++ 0#7 ++ BitVec.ofBool s.fault

/-- The output signal `fault`, equal to STATUS.FAULT at all times (60_exceptions.md R260). -/
def faultSignal (s : State) : Bool := s.fault

/-- PREV: PREV_VALID at 31, PREV_CP at 20:0 (10_state.md R50). -/
def prevWord (s : State) : Word := BitVec.ofBool s.prevValid ++ 0#10 ++ s.prevCp

/-- SELCTRL: RES_VALID at 13, RES_SUCCESS at 12, RES_METHOD at 10:8, SEL_VALID at 4, BEST_METHOD at 2:0 (10_state.md R50). -/
def selctrlWord (s : State) : Word :=
  0#18 ++ BitVec.ofBool s.resValid ++ BitVec.ofBool s.resSuccess ++ 0#1 ++ methodTag s.resMethod ++ 0#3 ++
    BitVec.ofBool s.selValid ++ 0#1 ++ methodTag s.bestMethod

/-- The register map of RDREG (10_state.md R50, 40_control.md R132); the numbers 0x09 and above are reserved. -/
def readRegister (r : BitVec 8) (s : State) : Option Word :=
  match r.toNat with
  | 0x00 => some (statusWord s)
  | 0x01 => some (BitVec.ofNat 32 s.wpos)
  | 0x02 => some (BitVec.ofNat 32 s.rpos)
  | 0x03 => some (BitVec.ofNat 32 s.rlen)
  | 0x04 => some (prevWord s)
  | 0x05 => some s.bestLen
  | 0x06 => some (selctrlWord s)
  | 0x07 => some (BitVec.ofNat 32 s.cfg.wcap)
  | 0x08 => some (BitVec.ofNat 32 s.cfg.rcap)
  | _ => none

/-- The padding of the writer, in 0..7 (10_state.md R38). -/
def padding (s : State) : Nat := (8 - s.wpos % 8) % 8

/-- The byte length of the writer, the bit length rounded up to bytes (10_state.md R38). -/
def byteLength (s : State) : Nat := (s.wpos + 7) / 8

/-- The remaining bit count of the reader (10_state.md R43). -/
def remaining (s : State) : Nat := 8 * s.rlen - s.rpos

/-- SFINAL's result: success at bit 8, method at 2:0 (45_selector.md R233). -/
def finalWord (success : Bool) (m : Method) : Word := 0#23 ++ BitVec.ofBool success ++ 0#5 ++ methodTag m

/-- CDDEC's result: kind at 25:24, codepoint at 20:0 (44_codepoint.md R210). -/
def deltaWord (k : Kind) (c : Codepoint) : Word := 0#6 ++ kindCode k ++ 0#3 ++ c

/-- HCLASS's result: method at 18:16, arg at 13:8, class at 3:0 (45_selector.md R240). -/
def headerWord (cls : HeaderClass) (arg : BitVec 6) (m : Method) : Word :=
  0#13 ++ methodTag m ++ 0#2 ++ arg ++ 0#4 ++ classCode cls

end Sys2Proof.Machine
end

