-- ==== Sys2Proof/Machine/Operands.lean ====
section
/-! DEFINITION. The operand checks of the commands, and the constant tables as the commands look them up, with the premises
the spec puts on the configuration (00_scope.md R8; 20_memory.md R84, R86, R87, R88). -/

namespace Sys2Proof.Machine

/-- `Scalar(c)`: a Unicode scalar value (00_scope.md R13; the set is general knowledge in the spec, 93 G1). -/
abbrev scalar (c : Nat) : Prop := c ≤ 0x10FFFF ∧ ¬ (0xD800 ≤ c ∧ c ≤ 0xDFFF)

/-- A bit count of format N that WBITS and RBITS accept: 1..32 (30_encoding.md R101, 20_memory.md R77). -/
abbrev legalCount (n : BitVec 8) : Prop := 1 ≤ n.toNat ∧ n.toNat ≤ 32

/-- The method that a tag of format M offers, for the tags 2, 3 and 4 alone (45_selector.md R232). -/
def candidateMethod (m : BitVec 8) : Option Method :=
  if m = 2 then some .fixed4 else if m = 3 then some .fixed5 else if m = 4 then some .fixed6 else none

/-- A prefix-code table of depth L is well-formed (20_memory.md R84 (a) to (d)); prefix-freeness is in stream order, low code
bits first (R85). -/
abbrev prefixTableWf {N : Nat} (T : Vector PrefixEntry N) (L : Nat) : Prop :=
  (∀ s : Fin N, 1 ≤ T[s].len ∧ T[s].len ≤ L ∧ T[s].code < 2 ^ T[s].len) ∧
  (∃ s : Fin N, T[s].len = L) ∧
  (∀ s t : Fin N, s ≠ t → T[s].len ≤ T[t].len → T[t].code % 2 ^ T[s].len ≠ T[s].code)

/-- The constraints on LOWCP (20_memory.md R86 (a) to (d)). -/
abbrev lowTableWf (low : Vector Codepoint 32) : Prop :=
  (∀ i : Fin 32, scalar low[i].toNat) ∧
  (∀ i j : Fin 32, i ≠ j → low[i] ≠ low[j]) ∧
  (∃ i : Fin 32, low[i].toNat = 0x7F) ∧
  (∃ k, k < 32 ∧ 1 ≤ k ∧
    (∀ j, j < k → ∃ i : Fin 32, low[i].toNat = 0x80 + j) ∧
    (∀ i : Fin 32, low[i].toNat ≤ 0x7F ∨ (0x80 ≤ low[i].toNat ∧ low[i].toNat < 0x80 + k)))

/-- The premises of the spec on the configuration (00_scope.md R8, 70_reset_and_hazards.md R282 step 1). -/
abbrev configWf (cfg : Config) : Prop :=
  (1 ≤ cfg.wcap ∧ cfg.wcap ≤ 2 ^ 24) ∧
  (1 ≤ cfg.rcap ∧ cfg.rcap ≤ 2 ^ 24) ∧
  prefixTableWf cfg.pc28 8 ∧
  prefixTableWf cfg.pc5 3 ∧
  lowTableWf cfg.lowcp ∧
  cfg.lit4 = lit4Table ∧
  (1 ≤ cfg.tierbSize ∧ cfg.tierbSize ≤ 16384)

/-- `BASE_B = 1 + max_i LOWCP[i]` (20_memory.md R87). -/
def baseB (cfg : Config) : Nat := 1 + cfg.lowcp.toList.foldl (fun m c => max m c.toNat) 0

/-- The tier-B window `BASE_B ≤ c < BASE_B + TIERB_SIZE` (20_memory.md R87). -/
abbrev inTierB (cfg : Config) (c : Nat) : Prop := baseB cfg ≤ c ∧ c < baseB cfg + cfg.tierbSize

/-- The least i with LOWCP[i] = c (44_codepoint.md R200). -/
def lowIndex (cfg : Config) (c : Nat) : Option Nat := cfg.lowcp.toList.findIdx? (fun e => e.toNat == c)

/-- The symbol whose whole codeword is acc, the first k bits read with the first bit read as bit 0 (43_prefix_code.md R183). -/
def leafAt {N : Nat} (T : Vector PrefixEntry N) (k acc : Nat) : Option Nat :=
  T.toList.findIdx? (fun e => e.len == k && e.code == acc)

/-- Some codeword is longer than k and begins with the k bits acc (43_prefix_code.md R183). -/
def extendsAt {N : Nat} (T : Vector PrefixEntry N) (k acc : Nat) : Bool :=
  T.toList.any (fun e => decide (k < e.len) && e.code % 2 ^ k == acc)

end Sys2Proof.Machine
end

