-- ==== Sys2Proof/Machine/Ops.lean ====
section
/-! DEFINITION. The operations the commands share: the byte memories (20_memory.md R70, R72), the writer's append (R74, R75),
the reader's read (R78, R79), taking a fault (60_exceptions.md R251..R254), starting a call (40_control.md R131), and
accepting the next command. -/

namespace Sys2Proof.Machine

/-- What one command or one step answers. -/
abbrev Answer := Host.Outcome State Fault Refusal

/-! ### Byte memories -/

/-- What an unlisted address reads as: 0x00. For WMEM that is its reset content (10_state.md R51) and the content of every bit
at or above WPOS (R39). For RMEM it is only how a content is written down (notes/assumptions/5.md). -/
def Memory.background : Byte := 0

/-- The byte at an address. -/
def Memory.read : Memory → Nat → Byte
  | [], _ => Memory.background
  | (x, y) :: m, a => if a = x then y else Memory.read m a

/-- The memory with the byte b at address a, in canonical form again. -/
def Memory.write : Memory → Nat → Byte → Memory
  | [], a, b => if b = Memory.background then [] else [(a, b)]
  | (x, y) :: m, a, b =>
    if a < x then (if b = Memory.background then (x, y) :: m else (a, b) :: (x, y) :: m)
    else if a = x then (if b = Memory.background then m else (a, b) :: m)
    else (x, y) :: Memory.write m a b

/-- The canonical form: addresses strictly rising, no byte listed that an unlisted address would read as. -/
abbrev Memory.wf (m : Memory) : Prop :=
  m.Pairwise (fun x y => x.1 < y.1) ∧ ∀ x ∈ m, x.2 ≠ Memory.background

/-- Every listed address exists in a memory of cap bytes (10_state.md R37, R41). -/
abbrev Memory.within (m : Memory) (cap : Nat) : Prop := ∀ x ∈ m, x.1 < cap

/-- `Bit(M, p)`: bit p mod 8 of byte p div 8 (00_scope.md R12). -/
def Memory.bit (m : Memory) (p : Nat) : Bool := (m.read (p / 8)).getLsbD (p % 8)

/-- A byte with its bit i set to b. -/
def setByteBit (x : Byte) (i : Nat) (b : Bool) : Byte :=
  if b then x ||| (1#8 <<< i) else x &&& ~~~ (1#8 <<< i)

/-- `Bit(M, p) <- b`. -/
def Memory.setBit (m : Memory) (p : Nat) (b : Bool) : Memory :=
  m.write (p / 8) (setByteBit (m.read (p / 8)) (p % 8) b)

/-! ### The writer -/

/-- One step of AppendBits: the bit goes to position WPOS and WPOS moves on (20_memory.md R74). -/
def appendBit (b : Bool) (s : State) : State :=
  { s with wmem := s.wmem.setBit s.wpos b, wpos := s.wpos + 1 }

/-- `AppendBits(v, n)`: v[0], v[1], ..., v[n-1] in that order, each written explicitly (20_memory.md R74). -/
def appendBits (v : Nat) : Nat → State → State
  | 0, s => s
  | n + 1, s => appendBit (v.testBit n) (appendBits v n s)

/-- A field to append: the low `width` bits of `value`, low bit first. -/
structure Field where
  value : Nat
  width : Nat
deriving DecidableEq, Repr

/-- The total bit count t of an append (20_memory.md R75). -/
def totalWidth : List Field → Nat
  | [] => 0
  | f :: fs => f.width + totalWidth fs

/-- The fields appended one after the other. -/
def appendFields : List Field → State → State
  | [], s => s
  | f :: fs, s => appendFields fs (appendBits f.value f.width s)

/-- Every command that appends checks room for its total bit count before it writes (20_memory.md R75). -/
def append (fs : List Field) (s : State) : Except Cause State :=
  if 8 * s.cfg.wcap < s.wpos + totalWidth fs then .error .writeOverflow else .ok (appendFields fs s)

/-- The writer cleared to empty (41_bitwriter.md R140). -/
def clearWriter (s : State) : State := { s with wmem := [], wpos := 0 }

/-- `Snapshot()`: exactly the bytes used so far (41_bitwriter.md R147). -/
def snapshot (s : State) : List Byte := (List.range (byteLength s)).map s.wmem.read

/-! ### The reader -/

/-- `ViewBit(p)` (00_scope.md R13). -/
def viewBit (s : State) (p : Nat) : Bool := s.rmem.bit p

/-- The n bits of the view from position p on, the first as bit 0 (20_memory.md R78). -/
def viewBits (s : State) (p : Nat) : Nat → Nat
  | 0 => 0
  | n + 1 => viewBits s p n + (if viewBit s (p + n) then 2 ^ n else 0)

/-- `next(n)`: n bits read from the private position p, given with the position after them to the rest of the command; the
overrun check comes before any bit is used (20_memory.md R78, R79; 44_codepoint.md R202). -/
def withBits {α : Type} (s : State) (p n : Nat) (rest : Nat → Nat → Except Cause α) : Except Cause α :=
  if 8 * s.rlen < p + n then .error .readOverrun else rest (viewBits s p n) (p + n)

/-- `DOUT <- ReadBits(n)`, zero-extended (20_memory.md R78). -/
def readBits (n : Nat) (s : State) : Except Cause State :=
  withBits s s.rpos n fun v p => .ok { s with rpos := p, dout := BitVec.ofNat 32 v }

/-! ### Faults and calls -/

/-- To raise a fault: FAULT and CAUSE are written, nothing else (60_exceptions.md R251, R253), and only when FAULT goes from 0
to 1, so the first cause is kept (10_state.md R35, 60_exceptions.md R252). -/
def raise (c : Cause) (s : State) : State :=
  if s.fault then s else { s with fault := true, cause := c }

/-- INIT, the return from a fault: every per-call entity is reset, RMEM and the tables are not (40_control.md R131,
60_exceptions.md R256). -/
def startCall (s : State) : State :=
  { s with
    fault := false, cause := .none, dout := 0, wmem := [], wpos := 0, rlen := 0, rpos := 0,
    prevCp := 0, prevValid := false, bestLen := 0, bestMethod := .none, selValid := false,
    resMethod := .none, resSuccess := false, resValid := false }

/-- A command that does not execute while the SSBC is faulted: then it is dropped (60_exceptions.md R254). Otherwise its body
either completes, or raises one fault and all its other effects are discarded (00_scope.md R13, 60_exceptions.md R253). -/
def runCommand (s : State) (body : Except Cause State) : Answer :=
  if s.fault then .next s
  else
    match body with
    | .ok t => .next t
    | .error c => .next (raise c s)

/-- A result written to DOUT. -/
def setDout (w : Word) (s : State) : State := { s with dout := w }

/-! ### Accepting a command -/

/-- The next command of the host, taken from its sequence (30_encoding.md R100; notes/assumptions/1.md). -/
def acceptCommand (s : State) : Option (Command × State) :=
  match s.pending with
  | [] => none
  | c :: rest => some (c, { s with pending := rest })

/-- An illegal command word raises ILLEGAL_COMMAND and has no other effect (30_encoding.md R106); while faulted it is dropped
(60_exceptions.md R254). -/
def illegalWord (s : State) : State := raise .illegalCommand s

/-- With no command presented the SSBC waits, and nothing changes (70_reset_and_hazards.md R280, R284). -/
def idle (s : State) : State := s

/-- The state with the command c presented next, in the place of whatever command stood there. -/
def present (c : Command) (s : State) : State := { s with pending := c :: s.pending.tail }

end Sys2Proof.Machine
end

