-- ==== Sys2Proof/Machine/BitReader.lean ====
section
/-! DEFINITION. The bit reader commands (42_bitreader.md R160..R165). -/

namespace Sys2Proof.Machine

/-- R160: bind the first l bytes of RMEM as the view, the cursor at its start. -/
def execRbind (l : Word) (s : State) : Answer :=
  runCommand s
    (if s.cfg.rcap < l.toNat then .error .invalidArgument else .ok { s with rlen := l.toNat, rpos := 0 })

/-- R161: load byte b into RMEM at index k, inside a bound view or not (20_memory.md R91). -/
def execRldb (k : BitVec 24) (b : Byte) (s : State) : Answer :=
  runCommand s
    (if s.cfg.rcap ≤ k.toNat then .error .invalidArgument else .ok { s with rmem := s.rmem.write k.toNat b })

/-- R162: read one bit. -/
def execRbit (s : State) : Answer := runCommand s (readBits 1 s)

/-- R163: read n bits; the count is checked before the view's end (60_exceptions.md R255). -/
def execRbits (n : BitVec 8) (s : State) : Answer :=
  runCommand s (if legalCount n then readBits n.toNat s else .error .invalidArgument)

/-- R164: read a full byte, at any bit position (20_memory.md R76). -/
def execRbyte (s : State) : Answer := runCommand s (readBits 8 s)

/-- R165: report the remaining bit count. -/
def execRrem (s : State) : Answer := runCommand s (.ok (setDout (BitVec.ofNat 32 (remaining s)) s))

end Sys2Proof.Machine
end

