-- ==== Sys2Proof/Machine/BitWriter.lean ====
section
/-! DEFINITION. The bit writer commands (41_bitwriter.md R140..R147). -/

namespace Sys2Proof.Machine

/-- R140: clear the writer to empty. -/
def execWclr (s : State) : Answer := runCommand s (.ok (clearWriter s))

/-- R141: append one bit. -/
def execWbit (b : Bool) (s : State) : Answer := runCommand s (append [⟨b.toNat, 1⟩] s)

/-- R142: append the low n bits of v; the count is checked before the room (60_exceptions.md R255). -/
def execWbits (n : BitVec 8) (v : Word) (s : State) : Answer :=
  runCommand s (if legalCount n then append [⟨v.toNat, n.toNat⟩] s else .error .invalidArgument)

/-- R143: append a full byte, at any bit position (20_memory.md R76). -/
def execWbyte (v : Byte) (s : State) : Answer := runCommand s (append [⟨v.toNat, 8⟩] s)

/-- R144: report the bit length. -/
def execWlen (s : State) : Answer := runCommand s (.ok (setDout (BitVec.ofNat 32 s.wpos) s))

/-- R145: report the padding. -/
def execWpad (s : State) : Answer := runCommand s (.ok (setDout (BitVec.ofNat 32 (padding s)) s))

/-- R146: report the byte length. -/
def execWblen (s : State) : Answer := runCommand s (.ok (setDout (BitVec.ofNat 32 (byteLength s)) s))

/-- R147: read byte k of the used part of the writer. -/
def execWrdb (k : Word) (s : State) : Answer :=
  runCommand s
    (if byteLength s ≤ k.toNat then .error .invalidArgument
     else .ok (setDout (BitVec.zeroExtend 32 (s.wmem.read k.toNat)) s))

end Sys2Proof.Machine
end

