-- ==== Sys2Proof/Machine/Codepoint.lean ====
section
/-! DEFINITION. The codepoint coder commands (44_codepoint.md R200..R210). -/

namespace Sys2Proof.Machine

/-- `AbsEnc(c)` (R200) as the fields it appends: the first tier that applies, in the order A, B, C; the flags are values,
appended low bit first. -/
def absFields (cfg : Config) (c : Nat) : List Field :=
  match lowIndex cfg c with
  | some i => [⟨1, 1⟩, ⟨i, 8⟩]
  | none => if inTierB cfg c then [⟨0b10, 2⟩, ⟨c - baseB cfg, 14⟩] else [⟨0b00, 2⟩, ⟨c, 21⟩]

/-- The magnitude form of a delta (R203, R204): the descriptor's tier, and the payload. -/
def deltaForm (m : Nat) : Nat × Field :=
  if m ≤ 127 then (0, ⟨m, 7⟩) else if m ≤ 16511 then (1, ⟨m - 128, 14⟩) else (2, ⟨m, 21⟩)

/-- `DeltaEnc(c)` relative to prev (R205) as the fields it appends: the descriptor t + 3·neg, then the payload. -/
def deltaFields (prev c : Nat) : List Field :=
  let d : Int := (c : Int) - (prev : Int)
  let neg : Nat := if d < 0 then 1 else 0
  let form := deltaForm d.natAbs
  [⟨form.1 + 3 * neg, 3⟩, form.2]

/-- The codepoint c becomes the previous codepoint (10_state.md R44). -/
def setPrev (c : Nat) (s : State) : State := { s with prevCp := BitVec.ofNat 21 c, prevValid := true }

/-- The body of CAENC (R201). -/
def absEncode (c : Nat) (s : State) : Except Cause State :=
  if scalar c then
    match append (absFields s.cfg c) s with
    | .ok t => .ok (setPrev c t)
    | .error e => .error e
  else .error .invalidState

/-- The code of CADEC (R202): the codepoint and the position after it. -/
def absRead (s : State) : Except Cause (Nat × Nat) :=
  withBits s s.rpos 1 fun f p =>
    if f = 1 then
      withBits s p 8 fun i p =>
        match s.cfg.lowcp.toList[i]? with
        | some c => .ok (c.toNat, p)
        | none => .error .badCodepoint
    else
      withBits s p 1 fun f p =>
        if f = 1 then withBits s p 14 fun o p => .ok (baseB s.cfg + o, p)
        else withBits s p 21 fun c p => .ok (c, p)

/-- The body of CADEC (R202). -/
def absDecode (s : State) : Except Cause State :=
  match absRead s with
  | .ok (c, p) =>
    if scalar c then .ok (setPrev c { s with rpos := p, dout := BitVec.ofNat 32 c }) else .error .badCodepoint
  | .error e => .error e

/-- The body of CDENC (R206): INVALID_STATE before NO_PREV before WRITE_OVERFLOW (60_exceptions.md R255). -/
def deltaEncode (c : Nat) (s : State) : Except Cause State :=
  if scalar c then
    if s.prevValid then
      match append (deltaFields s.prevCp.toNat c) s with
      | .ok t => .ok { t with prevCp := BitVec.ofNat 21 c }
      | .error e => .error e
    else .error .noPrev
  else .error .invalidState

/-- The width of the payload of a descriptor's tier, and the offset of its magnitude (R203). -/
def deltaPayload (t : Nat) : Nat × Nat :=
  if t = 0 then (7, 0) else if t = 1 then (14, 128) else (21, 0)

/-- `DeltaDec()` (R209): the kind, the codepoint and the position after the symbol. NO_PREV is found before the payload is
read (60_exceptions.md R255). -/
def deltaRead (s : State) : Except Cause (Kind × Nat × Nat) :=
  withBits s s.rpos 3 fun d p =>
    if d = 6 then .ok (.leave, 0, p)
    else if d = 7 then
      withBits s p 2 fun j p => .ok (.literal, (s.cfg.lit4[j % 4]'(Nat.mod_lt _ (by decide))).toNat, p)
    else if s.prevValid then
      withBits s p (deltaPayload (d % 3)).1 fun f p =>
        let m : Int := ((f + (deltaPayload (d % 3)).2 : Nat) : Int)
        let c : Int := if 3 ≤ d then (s.prevCp.toNat : Int) - m else (s.prevCp.toNat : Int) + m
        if 0 ≤ c ∧ scalar c.toNat then .ok (.delta, c.toNat, p) else .error .badCodepoint
    else .error .noPrev

/-- The body of CDDEC (R210): PREV_CP is written for kind DELTA alone. -/
def deltaDecode (s : State) : Except Cause State :=
  match deltaRead s with
  | .ok (kind, c, p) =>
    .ok { s with
      rpos := p
      dout := deltaWord kind (BitVec.ofNat 21 c)
      prevCp := if kind = .delta then BitVec.ofNat 21 c else s.prevCp }
  | .error e => .error e

/-- R201: absolute-encode codepoint c and make it the previous codepoint. -/
def execCaenc (c : Word) (s : State) : Answer := runCommand s (absEncode c.toNat s)

/-- R202: decode one absolute codepoint. -/
def execCadec (s : State) : Answer := runCommand s (absDecode s)

/-- R206: delta-encode codepoint c and make it the previous codepoint. -/
def execCdenc (c : Word) (s : State) : Answer := runCommand s (deltaEncode c.toNat s)

/-- R207: append descriptor 7 and literal index j. -/
def execCdlit (j : Word) (s : State) : Answer :=
  runCommand s (if 4 ≤ j.toNat then .error .invalidArgument else append [⟨7, 3⟩, ⟨j.toNat, 2⟩] s)

/-- R208: append descriptor 6, leave delta/Unicode mode. -/
def execCdleave (s : State) : Answer := runCommand s (append [⟨6, 3⟩] s)

/-- R210: decode one delta-mode symbol. -/
def execCddec (s : State) : Answer := runCommand s (deltaDecode s)

end Sys2Proof.Machine
end

