-- ==== Sys2Proof/Machine/Control.lean ====
section
/-! DEFINITION. The control commands NOP, INIT and RDREG (40_control.md R130..R132). The three execute while faulted
(60_exceptions.md R254). -/

namespace Sys2Proof.Machine

/-- R130: no operation. -/
def execNop (s : State) : Answer := .next s

/-- R131: start a new call. -/
def execInit (s : State) : Answer := .next (startCall s)

/-- R132: read register r into DOUT; a reserved number is an illegal command. -/
def execRdreg (r : BitVec 8) (s : State) : Answer :=
  match readRegister r s with
  | some w => .next (setDout w s)
  | none => .next (illegalWord s)

end Sys2Proof.Machine
end

