-- ==== Sys2Proof/Machine/PrefixCode.lean ====
section
/-! DEFINITION. The prefix-code commands (43_prefix_code.md R180..R187). -/

namespace Sys2Proof.Machine

/-- `PEnc(T, N, s)` (R180): the symbol is checked against the table before the room. -/
def prefixEncode {N : Nat} (T : Vector PrefixEntry N) (sym : Word) (s : State) : Except Cause State :=
  match T.toList[sym.toNat]? with
  | none => .error .invalidState
  | some e => append [⟨e.code, e.len⟩] s

/-- The loop of `PDec(T, N)` (R183) with r bits of the view left at position p, after k bits that read acc: the symbol and
the position after its codeword. The bits left are what the loop consumes, so it ends for every table. -/
def prefixWalk {N : Nat} (T : Vector PrefixEntry N) (s : State) : (r p acc k : Nat) → Except Cause (Nat × Nat)
  | 0, _, _, _ => .error .readOverrun
  | r + 1, p, acc, k =>
    let acc' := acc + (if viewBit s p then 2 ^ k else 0)
    match leafAt T (k + 1) acc' with
    | some sym => .ok (sym, p + 1)
    | none => if extendsAt T (k + 1) acc' then prefixWalk T s r (p + 1) acc' (k + 1) else .error .badCode

/-- `PDec(T, N)` from RPOS, with its result in DOUT; nothing is consumed on a fault (R183, 20_memory.md R79). -/
def prefixDecode {N : Nat} (T : Vector PrefixEntry N) (s : State) : Except Cause State :=
  match prefixWalk T s (remaining s) s.rpos 0 0 with
  | .ok (sym, p) => .ok { s with rpos := p, dout := BitVec.ofNat 32 sym }
  | .error c => .error c

/-- R181: append the code of a symbol of the 28-symbol table. -/
def execPenc28 (sym : Word) (s : State) : Answer := runCommand s (prefixEncode s.cfg.pc28 sym s)

/-- R182: append the code of a symbol of the 5-symbol table. -/
def execPenc5 (sym : Word) (s : State) : Answer := runCommand s (prefixEncode s.cfg.pc5 sym s)

/-- R186: decode one symbol of the 28-symbol table. -/
def execPdec28 (s : State) : Answer := runCommand s (prefixDecode s.cfg.pc28 s)

/-- R187: decode one symbol of the 5-symbol table. -/
def execPdec5 (s : State) : Answer := runCommand s (prefixDecode s.cfg.pc5 s)

end Sys2Proof.Machine
end

