-- ==== Sys2Proof/Machine/Selector.lean ====
section
/-! DEFINITION. The format selector commands (45_selector.md R230..R240). -/

namespace Sys2Proof.Machine

/-- The effect of SINIT (R231): TreeSquash is the best candidate, and no result is valid. -/
def startSelection (t : Word) (s : State) : State :=
  { s with
    bestLen := t, bestMethod := .treeSquash, selValid := true,
    resValid := false, resSuccess := false, resMethod := .none }

/-- A candidate is kept only if strictly smaller than the current best, compared unsigned (R232). -/
def offer (m : Method) (l : Word) (s : State) : State :=
  if l.toNat < s.bestLen.toNat then { s with bestLen := l, bestMethod := m } else s

/-- The outcome of a selection against the UTF-8 length u (R233); ties favour UTF-8. -/
def finishSelection (u : Word) (s : State) : State :=
  let success : Bool := decide (s.bestLen.toNat < u.toNat)
  let method : Method := if success then s.bestMethod else .none
  { s with
    resSuccess := success, resMethod := method, resValid := true, dout := finalWord success method }

/-- The class of a buffer of length l with first byte b, its argument and its method (R240): the length rules first, then the
ranges of R238. -/
def classify (l : BitVec 24) (b : Byte) : HeaderClass × BitVec 6 × Method :=
  if l.toNat = 0 then (.empty, 0, .none)
  else if l.toNat = 1 then (.rawUtf8, 0, .none)
  else if 0x80 ≤ b.toNat ∧ b.toNat ≤ 0xBF then (.packed, b.extractLsb' 0 6, .treeSquash)
  else if b.toNat = 0xC0 then (.sequence, 0, .treeSquash)
  else if b.toNat = 0xC1 then (.unicode, 0, .treeSquash)
  else if 0xF5 ≤ b.toNat ∧ b.toNat ≤ 0xF8 then (.fixed6, BitVec.ofNat 6 (b.toNat - 0xF5), .fixed6)
  else if 0xF9 ≤ b.toNat ∧ b.toNat ≤ 0xFC then (.fixed6Alt, BitVec.ofNat 6 (b.toNat - 0xF9), .fixed6)
  else if b.toNat = 0xFD then (.fixed5Lower, 0, .fixed5)
  else if b.toNat = 0xFE then (.fixed5Upper, 0, .fixed5)
  else if b.toNat = 0xFF then (.fixed4, 0, .fixed4)
  else (.rawUtf8, 0, .none)

/-- R231: start a selection with the TreeSquash candidate as the current best. -/
def execSinit (t : Word) (s : State) : Answer := runCommand s (.ok (startSelection t s))

/-- R232: offer a fixed candidate; the tag is checked before SEL_VALID (60_exceptions.md R255). -/
def execSoffer (m : BitVec 8) (l : Word) (s : State) : Answer :=
  runCommand s
    (match candidateMethod m with
     | none => .error .invalidArgument
     | some method => if s.selValid then .ok (offer method l s) else .error .invalidState)

/-- R233: compare the best candidate with the UTF-8 length. -/
def execSfinal (u : Word) (s : State) : Answer :=
  runCommand s (if s.selValid then .ok (finishSelection u s) else .error .invalidState)

/-- R240: classify a buffer by its length and first byte. -/
def execHclass (l : BitVec 24) (b : Byte) (s : State) : Answer :=
  runCommand s (.ok (setDout (headerWord (classify l b).1 (classify l b).2.1 (classify l b).2.2) s))

end Sys2Proof.Machine
end

