-- ==== Sys2Proof/Machine/Dispatch.lean ====
section
/-! DEFINITION. The meaning of every command: one arm per constructor of Instr. -/

namespace Sys2Proof.Machine

def exec (i : Instr) (s : State) : Host.Outcome State Fault Refusal :=
  match i with
  | .nop => Sys2Proof.Machine.execNop s
  | .init => Sys2Proof.Machine.execInit s
  | .rdreg r => Sys2Proof.Machine.execRdreg r s
  | .wclr => Sys2Proof.Machine.execWclr s
  | .wbit b => Sys2Proof.Machine.execWbit b s
  | .wbits n v => Sys2Proof.Machine.execWbits n v s
  | .wbyte v => Sys2Proof.Machine.execWbyte v s
  | .wlen => Sys2Proof.Machine.execWlen s
  | .wpad => Sys2Proof.Machine.execWpad s
  | .wblen => Sys2Proof.Machine.execWblen s
  | .wrdb k => Sys2Proof.Machine.execWrdb k s
  | .rbind l => Sys2Proof.Machine.execRbind l s
  | .rldb k b => Sys2Proof.Machine.execRldb k b s
  | .rbit => Sys2Proof.Machine.execRbit s
  | .rbits n => Sys2Proof.Machine.execRbits n s
  | .rbyte => Sys2Proof.Machine.execRbyte s
  | .rrem => Sys2Proof.Machine.execRrem s
  | .penc28 sym => Sys2Proof.Machine.execPenc28 sym s
  | .penc5 sym => Sys2Proof.Machine.execPenc5 sym s
  | .pdec28 => Sys2Proof.Machine.execPdec28 s
  | .pdec5 => Sys2Proof.Machine.execPdec5 s
  | .caenc c => Sys2Proof.Machine.execCaenc c s
  | .cadec => Sys2Proof.Machine.execCadec s
  | .cdenc c => Sys2Proof.Machine.execCdenc c s
  | .cdlit j => Sys2Proof.Machine.execCdlit j s
  | .cdleave => Sys2Proof.Machine.execCdleave s
  | .cddec => Sys2Proof.Machine.execCddec s
  | .sinit t => Sys2Proof.Machine.execSinit t s
  | .soffer m l => Sys2Proof.Machine.execSoffer m l s
  | .sfinal u => Sys2Proof.Machine.execSfinal u s
  | .hclass l b => Sys2Proof.Machine.execHclass l b s

end Sys2Proof.Machine
end

