-- ==== Sys2Proof/Machine/Step.lean ====
section
/-! DEFINITION. One step: the SSBC accepts the next command of the host and executes it atomically (70_reset_and_hazards.md
R285); with no command presented it waits. -/

namespace Sys2Proof.Machine

/-- One step of the machine (30_encoding.md R109). -/
def step (s : State) : Host.Outcome State Fault Refusal :=
  match acceptCommand s with
  | none => .next (idle s)
  | some (c, s') =>
    match decode c with
    | .ok i => exec i s'
    | .error _ => .next (illegalWord s')

/-- The state in which the instruction whose table bits are w is the command presented next. A program is loaded from outside
the machine, as the host's commands; this stands for that (notes/assumptions/1.md). -/
def State.withFetchWord (s : State) (nbits w : Nat) : State := present (tableCommand nbits w) s

end Sys2Proof.Machine
end

