-- ==== Sys2Proof/Machine/CodeTree.lean ====
section
/-! DEFINITION. The decode tree of a prefix-code table (43_prefix_code.md R184), built from the (len, code) pairs alone, and
the walk on it. The commands decode by the table walk of R183 (Machine/PrefixCode.lean); R184 says the two agree. -/

namespace Sys2Proof.Machine

/-- A binary tree: `empty` where no codeword goes, a leaf for a symbol, an inner node with its left (bit 0) and right (bit 1)
child. -/
inductive CodeTree where
  | empty
  | leaf (sym : Nat)
  | node (left right : CodeTree)
deriving DecidableEq, Repr

/-- The path of a codeword: code[0], ..., code[len-1] (20_memory.md R85). -/
def codePath (e : PrefixEntry) : List Bool := (List.range e.len).map e.code.testBit

/-- The tree with a leaf for sym at the end of a path: right for bit 1, left for bit 0. -/
def treeInsert : List Bool → Nat → CodeTree → CodeTree
  | [], sym, _ => .leaf sym
  | b :: bs, sym, .node l r => if b then .node l (treeInsert bs sym r) else .node (treeInsert bs sym l) r
  | b :: bs, sym, _ => if b then .node .empty (treeInsert bs sym .empty) else .node (treeInsert bs sym .empty) .empty

/-- The tree of a table: the path of every symbol, in turn. -/
def codeTree {N : Nat} (T : Vector PrefixEntry N) : CodeTree :=
  T.toList.zipIdx.foldl (fun t e => treeInsert (codePath e.1) e.2 t) .empty

/-- The longest path of a tree. -/
def treeDepth : CodeTree → Nat
  | .empty => 0
  | .leaf _ => 0
  | .node l r => 1 + max (treeDepth l) (treeDepth r)

/-- The walk from position p: one bit of the view per edge until a leaf; off the tree is BAD_CODE (R185). -/
def treeWalk (s : State) : CodeTree → Nat → Except Cause (Nat × Nat)
  | .leaf sym, p => .ok (sym, p)
  | .empty, _ => .error .badCode
  | .node l r, p =>
    if 8 * s.rlen ≤ p then .error .readOverrun
    else if viewBit s p then treeWalk s r (p + 1) else treeWalk s l (p + 1)

end Sys2Proof.Machine
end

