-- ==== Sys2Proof/Machine/Program.lean ====
section
/-! DEFINITION. Sequences of commands the host issues: the pseudo-instructions of 30_encoding.md R114, a sequence's effect,
and the outcome of a call (70_reset_and_hazards.md R283). -/

namespace Sys2Proof.Machine

/-- `WHDR.PACKED c`: the low 6 bits of c in the header byte, bit 6 as the next flag bit (R114). -/
def headerPacked (c : Nat) : List Instr :=
  [.wbyte (0x80#8 ||| (BitVec.ofNat 8 c &&& 0x3F#8)), .wbit (c.testBit 6)]

/-- `WHDR.SEQ` (R114). -/
def headerSequence : List Instr := [.wbyte 0xC0]

/-- `WHDR.UNI` (R114). -/
def headerUnicode : List Instr := [.wbyte 0xC1]

/-- `RLDB k, b` for the bytes of a list, k counting up from `first` (R114). -/
def loadBytes : Nat → List Byte → List Instr
  | _, [] => []
  | first, b :: bs => .rldb (BitVec.ofNat 24 first) b :: loadBytes (first + 1) bs

/-- `LOADVIEW b0, ..., b(k-1)` (R114). -/
def loadView (bytes : List Byte) : List Instr := loadBytes 0 bytes ++ [.rbind (BitVec.ofNat 32 bytes.length)]

/-- The SOFFERs of a list of candidates (tag, length), in offer order (R114). -/
def offers (candidates : List (BitVec 8 × Word)) : List Instr := candidates.map fun x => .soffer x.1 x.2

/-- `SELECT t, m1:l1, ..., mj:lj, u` (R114, 45_selector.md R230). -/
def select (t : Word) (candidates : List (BitVec 8 × Word)) (u : Word) : List Instr :=
  .sinit t :: (offers candidates ++ [.sfinal u])

/-- The commands of a sequence executed one after the other, each on the state the one before it left (20_memory.md R82). -/
def issue : List Instr → State → Answer
  | [], s => .next s
  | i :: is, s =>
    match exec i s with
    | .next t => issue is t
    | .fault r => .fault r
    | .refused r => .refused r

/-- What the commands of a sequence leave in DOUT, in order: the host reads DOUT after each command (R283). -/
def douts : List Instr → State → List Word
  | [], _ => []
  | i :: is, s =>
    match exec i s with
    | .next t => t.dout :: douts is t
    | .fault _ => []
    | .refused _ => []

/-- The outcome of a call, as the state at its end shows it (R283); the values of DOUT during the call are `douts`. -/
structure CallOutcome where
  bytes : List Byte
  success : Bool
  method : Method
  status : Word
  /-- STATUS.FAULT is 1 at the end: the call has failed and its outputs are no results -/
  failed : Bool
deriving DecidableEq, Repr

/-- The outcome of the call that ends in the state s (R283). -/
def callOutcome (s : State) : CallOutcome :=
  { bytes := snapshot s, success := s.resSuccess, method := s.resMethod, status := statusWord s, failed := faultSignal s }

end Sys2Proof.Machine
end

