-- ==== Sys2Proof/Safety.lean ====
section
/-! DEFINITION. The terms the claims are stated in: the invariant of the machine, what an append and a view mean bit by bit,
and which commands the spec lets do what. -/

namespace Sys2Proof.Safety

open Sys2Proof Sys2Proof.Machine

/-- The SSBC is not faulted (00_scope.md R16). -/
abbrev live (s : State) : Prop := s.fault = false

/-- The invariant of the machine. It says what the spec says of every state: the premises on the configuration
(70_reset_and_hazards.md R282 step 1); each memory within its capacity and in canonical form (10_state.md R37, R41); the
ranges of WPOS, RLEN and RPOS (R38, R42, R43); every bit of WMEM at or above WPOS is 0 (R39); PREV_CP is a scalar value when
valid (R44); CAUSE is 0 exactly while FAULT is 0 (R35); a valid result of success names a method, and no success stands
without a valid result (R46, R49; 45_selector.md R231, R233). -/
structure MachineInv (s : State) : Prop where
  config : configWf s.cfg
  writerForm : s.wmem.wf
  writerWithin : s.wmem.within s.cfg.wcap
  viewForm : s.rmem.wf
  viewWithin : s.rmem.within s.cfg.rcap
  writerRange : s.wpos ≤ 8 * s.cfg.wcap
  writerZeros : ∀ p, s.wpos ≤ p → s.wmem.bit p = false
  viewLength : s.rlen ≤ s.cfg.rcap
  viewRange : s.rpos ≤ 8 * s.rlen
  prevScalar : s.prevValid = true → scalar s.prevCp.toNat
  causeWithFault : s.cause = .none ↔ s.fault = false
  resultValid : s.resSuccess = true → s.resValid = true ∧ s.resMethod ≠ .none
  selectionMethod : s.selValid = true → s.bestMethod ≠ .none

/-- The low n bits of v in stream order, low bit first (20_memory.md R72). -/
def lowBits (v n : Nat) : List Bool := (List.range n).map v.testBit

/-- The state t is s with exactly these bits appended (20_memory.md R74): WPOS moves on by their number, position by position
they stand at the old WPOS and after it, every other position is unchanged, every byte that holds none of them is unchanged,
and nothing but WMEM and WPOS differs. -/
def Appended (s t : State) (bits : List Bool) : Prop :=
  t = { s with wmem := t.wmem, wpos := s.wpos + bits.length } ∧
  (∀ p, t.wmem.bit p =
    if s.wpos ≤ p ∧ p < s.wpos + bits.length then bits.getD (p - s.wpos) false else s.wmem.bit p) ∧
  (∀ a, a < s.wpos / 8 ∨ (s.wpos + bits.length + 7) / 8 ≤ a → t.wmem.read a = s.wmem.read a)

/-- The state s after a fault with cause c: nothing but STATUS differs (60_exceptions.md R253). -/
def faulted (c : Cause) (s : State) : State := { s with fault := true, cause := c }

/-- The view holds these bits from position p on (00_scope.md R12). -/
abbrev viewHolds (s : State) (p : Nat) (bits : List Bool) : Prop :=
  p + bits.length ≤ 8 * s.rlen ∧ ∀ i, i < bits.length → viewBit s (p + i) = bits.getD i false

/-- The bits of the view left to read, from RPOS to its end. -/
def viewRest (s : State) : List Bool := (List.range (8 * s.rlen - s.rpos)).map fun i => viewBit s (s.rpos + i)

/-- The stream bits of an absolute code, by tier (44_codepoint.md R200): tier A is 1 and an 8-bit index, tier B is 0, 1 and a
14-bit offset, tier C is 0, 0 and the 21-bit codepoint. -/
inductive AbsCode (cfg : Config) (c : Nat) : List Bool → Prop where
  | tierA (i : Nat) (h : i < 32) (hc : (cfg.lowcp.toList.map BitVec.toNat)[i]? = some c)
      (least : ∀ j, j < i → (cfg.lowcp.toList.map BitVec.toNat)[j]? ≠ some c) :
      AbsCode cfg c (true :: lowBits i 8)
  | tierB (h : c ∉ cfg.lowcp.toList.map BitVec.toNat) (lo : baseB cfg ≤ c) (hi : c < baseB cfg + cfg.tierbSize) :
      AbsCode cfg c (false :: true :: lowBits (c - baseB cfg) 14)
  | tierC (h : c ∉ cfg.lowcp.toList.map BitVec.toNat) (out : c < baseB cfg ∨ baseB cfg + cfg.tierbSize ≤ c) :
      AbsCode cfg c (false :: false :: lowBits c 21)

/-- The stream bits of a delta code of c relative to prev (44_codepoint.md R203, R204): the smallest form that fits, negative
exactly when c is below prev. -/
inductive DeltaCode (prev c : Nat) : List Bool → Prop where
  | pos7 (h : prev ≤ c) (m : c - prev ≤ 127) : DeltaCode prev c (lowBits 0 3 ++ lowBits (c - prev) 7)
  | pos14 (h : prev ≤ c) (lo : 128 ≤ c - prev) (hi : c - prev ≤ 16511) :
      DeltaCode prev c (lowBits 1 3 ++ lowBits (c - prev - 128) 14)
  | pos21 (h : prev ≤ c) (lo : 16512 ≤ c - prev) : DeltaCode prev c (lowBits 2 3 ++ lowBits (c - prev) 21)
  | neg7 (h : c < prev) (m : prev - c ≤ 127) : DeltaCode prev c (lowBits 3 3 ++ lowBits (prev - c) 7)
  | neg14 (h : c < prev) (lo : 128 ≤ prev - c) (hi : prev - c ≤ 16511) :
      DeltaCode prev c (lowBits 4 3 ++ lowBits (prev - c - 128) 14)
  | neg21 (h : c < prev) (lo : 16512 ≤ prev - c) : DeltaCode prev c (lowBits 5 3 ++ lowBits (prev - c) 21)

/-- The opcodes of format Z (30_encoding.md R108). -/
def formatZOpcodes : List Nat :=
  [0x00, 0x01, 0x10, 0x11, 0x13, 0x14, 0x15, 0x16, 0x17, 0x20, 0x21, 0x22, 0x24, 0x25, 0x30, 0x31, 0x32, 0x33,
   0x40, 0x41, 0x42, 0x43, 0x44, 0x45, 0x50, 0x52, 0x53]

/-- The opcodes of the formats N and M (30_encoding.md R108). -/
def countOrMethodOpcodes : List Nat := [0x12, 0x23, 0x51]

/-- A command word is illegal (30_encoding.md R106), by the numbers of CMD. -/
abbrev illegalCmd (cmd : BitVec 16) : Prop :=
  let op := cmd.toNat / 256
  let arg := cmd.toNat % 256
  (op ∉ formatZOpcodes ∧ op ∉ countOrMethodOpcodes ∧ op ≠ 0x02) ∨
  (op ∈ formatZOpcodes ∧ arg ≠ 0) ∨
  (op = 0x02 ∧ 0x09 ≤ arg)

/-- The fault codes a command may raise (60_exceptions.md R250, column "raised by"; RDREG with a reserved number is the one
ILLEGAL_COMMAND that an instruction of the model can hold). -/
def mayRaise : Instr → List Cause
  | .nop => []
  | .init => []
  | .rdreg _ => [.illegalCommand]
  | .wclr => []
  | .wbit _ => [.writeOverflow]
  | .wbits _ _ => [.invalidArgument, .writeOverflow]
  | .wbyte _ => [.writeOverflow]
  | .wlen => []
  | .wpad => []
  | .wblen => []
  | .wrdb _ => [.invalidArgument]
  | .rbind _ => [.invalidArgument]
  | .rldb _ _ => [.invalidArgument]
  | .rbit => [.readOverrun]
  | .rbits _ => [.invalidArgument, .readOverrun]
  | .rbyte => [.readOverrun]
  | .rrem => []
  | .penc28 _ => [.invalidState, .writeOverflow]
  | .penc5 _ => [.invalidState, .writeOverflow]
  | .pdec28 => [.readOverrun, .badCode]
  | .pdec5 => [.readOverrun, .badCode]
  | .caenc _ => [.invalidState, .writeOverflow]
  | .cadec => [.readOverrun, .badCodepoint]
  | .cdenc _ => [.invalidState, .writeOverflow, .noPrev]
  | .cdlit _ => [.invalidArgument, .writeOverflow]
  | .cdleave => [.writeOverflow]
  | .cddec => [.readOverrun, .badCodepoint, .noPrev]
  | .sinit _ => []
  | .soffer _ _ => [.invalidArgument, .invalidState]
  | .sfinal _ => [.invalidState]
  | .hclass _ _ => []

/-- The commands that append to the writer (20_memory.md R70). -/
def appends : Instr → Bool
  | .wbit _ | .wbits _ _ | .wbyte _ | .penc28 _ | .penc5 _ | .caenc _ | .cdenc _ | .cdlit _ | .cdleave => true
  | .nop | .init | .rdreg _ | .wclr | .wlen | .wpad | .wblen | .wrdb _ | .rbind _ | .rldb _ _ | .rbit | .rbits _ | .rbyte
  | .rrem | .pdec28 | .pdec5 | .cadec | .cddec | .sinit _ | .soffer _ _ | .sfinal _ | .hclass _ _ => false

/-- The commands that read the view (20_memory.md R70). -/
def readsView : Instr → Bool
  | .rbit | .rbits _ | .rbyte | .pdec28 | .pdec5 | .cadec | .cddec => true
  | .nop | .init | .rdreg _ | .wclr | .wbit _ | .wbits _ _ | .wbyte _ | .wlen | .wpad | .wblen | .wrdb _ | .rbind _
  | .rldb _ _ | .rrem | .penc28 _ | .penc5 _ | .caenc _ | .cdenc _ | .cdlit _ | .cdleave | .sinit _ | .soffer _ _
  | .sfinal _ | .hclass _ _ => false

/-- The commands that write DOUT with a result (10_state.md R34). -/
def writesDout : Instr → Bool
  | .wlen | .wpad | .wblen | .wrdb _ | .rbit | .rbits _ | .rbyte | .rrem | .pdec28 | .pdec5 | .cadec | .cddec | .sfinal _
  | .hclass _ _ | .rdreg _ => true
  | .nop | .init | .wclr | .wbit _ | .wbits _ _ | .wbyte _ | .rbind _ | .rldb _ _ | .penc28 _ | .penc5 _ | .caenc _
  | .cdenc _ | .cdlit _ | .cdleave | .sinit _ | .soffer _ _ => false

/-- The commands that write PREV_CP or PREV_VALID (10_state.md R44). -/
def writesPrev : Instr → Bool
  | .caenc _ | .cadec | .cdenc _ | .cddec => true
  | .nop | .init | .rdreg _ | .wclr | .wbit _ | .wbits _ _ | .wbyte _ | .wlen | .wpad | .wblen | .wrdb _ | .rbind _
  | .rldb _ _ | .rbit | .rbits _ | .rbyte | .rrem | .penc28 _ | .penc5 _ | .pdec28 | .pdec5 | .cdlit _ | .cdleave
  | .sinit _ | .soffer _ _ | .sfinal _ | .hclass _ _ => false

/-- The selection commands (45_selector.md R230). -/
def selects : Instr → Bool
  | .sinit _ | .soffer _ _ | .sfinal _ => true
  | .nop | .init | .rdreg _ | .wclr | .wbit _ | .wbits _ _ | .wbyte _ | .wlen | .wpad | .wblen | .wrdb _ | .rbind _
  | .rldb _ _ | .rbit | .rbits _ | .rbyte | .rrem | .penc28 _ | .penc5 _ | .pdec28 | .pdec5 | .caenc _ | .cadec | .cdenc _
  | .cdlit _ | .cdleave | .cddec | .hclass _ _ => false

/-- Format Z of an opcode (30_encoding.md R101, R106): with ARG = 0x00 the word decodes to the command, whatever DIN holds but
for the operand's bits; with any other ARG it raises ILLEGAL_COMMAND, but not while the SSBC is already faulted. -/
def zCommand (op : BitVec 8) (i : Word → Instr) : Prop :=
  (∀ din, decode (command op 0 din) = .ok (i din)) ∧
  ∀ arg din rest s, arg ≠ 0 → s.pending = command op arg din :: rest →
    (live s → step s = .next (faulted .illegalCommand { s with pending := rest })) ∧
    (s.fault = true → step s = .next { s with pending := rest })

/-- A format whose ARG is free (30_encoding.md R101): every ARG is decoded. -/
def argCommand (op : BitVec 8) (i : BitVec 8 → Word → Instr) : Prop :=
  ∀ arg din, decode (command op arg din) = .ok (i arg din)

/-- A command that reads n bits of the view into DOUT, the first as bit 0, zero-extended, and raises READ_OVERRUN when fewer
remain (20_memory.md R78). -/
def readsField (i : Instr) (n : Nat) : Prop :=
  ∀ s, live s →
    (s.rpos + n ≤ 8 * s.rlen → ∃ v : Word, exec i s = .next { s with rpos := s.rpos + n, dout := v } ∧
      ∀ j, j < 32 → v.getLsbD j = (decide (j < n) && viewBit s (s.rpos + j))) ∧
    (8 * s.rlen < s.rpos + n → exec i s = .next (faulted .readOverrun s))

/-- The codeword of a symbol in stream order (20_memory.md R85). -/
def codeword {N : Nat} (T : Vector PrefixEntry N) (sym : Fin N) : List Bool := lowBits T[sym].code T[sym].len

/-- A command that appends the codeword of a symbol (43_prefix_code.md R180). -/
def encodesSymbols {N : Nat} (T : Config → Vector PrefixEntry N) (i : Word → Instr) : Prop :=
  ∀ s sym, live s → s.wmem.wf →
    (∀ h : sym.toNat < N,
      (s.wpos + (codeword (T s.cfg) ⟨sym.toNat, h⟩).length ≤ 8 * s.cfg.wcap →
        ∃ t, exec (i sym) s = .next t ∧ Appended s t (codeword (T s.cfg) ⟨sym.toNat, h⟩)) ∧
      (8 * s.cfg.wcap < s.wpos + (codeword (T s.cfg) ⟨sym.toNat, h⟩).length →
        exec (i sym) s = .next (faulted .writeOverflow s))) ∧
    (N ≤ sym.toNat → exec (i sym) s = .next (faulted .invalidState s))

/-- A command that decodes one symbol of a well-formed table (43_prefix_code.md R183, R185): it finds the symbol whose codeword
the view holds; it overruns when the view ends inside a codeword; it raises BAD_CODE when some of the bits read are neither
the beginning of a codeword nor begin with one. -/
def decodesSymbols {N : Nat} (T : Config → Vector PrefixEntry N) (L : Nat) (i : Instr) : Prop :=
  ∀ s, live s → prefixTableWf (T s.cfg) L →
    (∀ sym : Fin N, viewHolds s s.rpos (codeword (T s.cfg) sym) →
      exec i s = .next { s with rpos := s.rpos + (T s.cfg)[sym].len, dout := BitVec.ofNat 32 sym }) ∧
    (∀ sym : Fin N, viewRest s <+: codeword (T s.cfg) sym → viewRest s ≠ codeword (T s.cfg) sym →
      exec i s = .next (faulted .readOverrun s)) ∧
    (∀ k, 1 ≤ k → k ≤ (viewRest s).length →
      (∀ sym : Fin N, ¬ (viewRest s).take k <+: codeword (T s.cfg) sym ∧ ¬ codeword (T s.cfg) sym <+: (viewRest s).take k) →
      exec i s = .next (faulted .badCode s))

/-- The view of r holds, from RPOS on, the bits that were written between the writer states s and t. -/
abbrev viewCopies (r s t : State) : Prop :=
  r.rpos + (t.wpos - s.wpos) ≤ 8 * r.rlen ∧
  ∀ i, i < t.wpos - s.wpos → viewBit r (r.rpos + i) = t.wmem.bit (s.wpos + i)

/-- The reserved space of the command words (30_encoding.md R111), by its ranges. -/
abbrev reservedCmd (cmd : BitVec 16) : Prop :=
  let op := cmd.toNat / 256
  let arg := cmd.toNat % 256
  (0x03 ≤ op ∧ op ≤ 0x0F) ∨ (0x18 ≤ op ∧ op ≤ 0x1F) ∨ (0x26 ≤ op ∧ op ≤ 0x2F) ∨ (0x34 ≤ op ∧ op ≤ 0x3F) ∨
  (0x46 ≤ op ∧ op ≤ 0x4F) ∨ 0x54 ≤ op ∨
  (op ∈ formatZOpcodes ∧ arg ≠ 0) ∨
  (op = 0x02 ∧ 0x09 ≤ arg)

end Sys2Proof.Safety
end

