-- ==== Sys2Proof/Certificates/Slice0/Obligations.lean ====
section
/-! DEFINITION. The statements for the provers. Each docstring names the rule or the section of the spec it formalises. -/

open Sys2Proof Sys2Proof.Machine Sys2Proof.Safety

/-! ### Reset, steps and the invariant -/

/-- R51: what every power-on state holds, for every configuration and every draw of RMEM. (That the one `State.reset` of the
host's interface is such a state is the last clause; which one is the model's choice, log entries 3 and 4.) -/
def Obligations.PowerOnStateIsAsSpecified : Prop :=
  (∀ cfg rmem,
    let s := State.powerOn cfg rmem
    statusWord s = 0 ∧ s.dout = 0 ∧ s.wpos = 0 ∧ (∀ k, s.wmem.read k = 0) ∧ s.rlen = 0 ∧ s.rpos = 0 ∧
    (∀ k, s.rmem.read k = rmem.read k) ∧ s.prevCp = 0 ∧ s.prevValid = false ∧ s.bestLen = 0 ∧
    methodTag s.bestMethod = 0 ∧ s.selValid = false ∧ methodTag s.resMethod = 0 ∧ s.resSuccess = false ∧
    s.resValid = false ∧ s.cfg = cfg) ∧
  ∃ cfg rmem, State.reset = State.powerOn cfg rmem

/-- The invariant holds after power-on reset, for every well-formed configuration and every RMEM of P_RCAP bytes, and so at
`State.reset` (whose configuration and draw are the model's choice, log entries 3 and 4). -/
def Obligations.PowerOnSatisfiesTheInvariant : Prop :=
  (∀ cfg rmem, configWf cfg → rmem.wf → rmem.within cfg.rcap → MachineInv (State.powerOn cfg rmem)) ∧ MachineInv State.reset

/-- Every step keeps the invariant: the ranges of the positions (R38, R42, R43), the zero bits above WPOS (R39), a scalar
PREV_CP (R44), CAUSE with FAULT (R35), memories in form and inside their capacity. -/
def Obligations.StepKeepsTheInvariant : Prop :=
  ∀ s t, MachineInv s → step s = .next t → MachineInv t

/-- The SSBC never stops: a fault is recorded in STATUS and the machine goes on (60_exceptions.md R251). -/
def Obligations.EveryStepAnswersANextState : Prop :=
  ∀ s, ∃ t, step s = .next t

/-- A step accepts the next command of the host and executes the instruction it decodes to; with no command it waits. The
sequence `pending` is the model's field (log entry 1). -/
def Obligations.StepExecutesTheDecodedCommand : Prop :=
  (∀ s c rest i, s.pending = c :: rest → decode c = .ok i → step s = exec i { s with pending := rest }) ∧
  (∀ s, s.pending = [] → step s = .next s) ∧
  (∀ (s : State) nbits w i, decodeTableWord nbits w = some i →
    step (s.withFetchWord nbits w) = exec i { s with pending := s.pending.tail })

/-! ### Encoding -/

/-- R106: the illegal words are these and no others, and each raises ILLEGAL_COMMAND with no other effect. -/
def Obligations.IllegalWordRaisesIllegalCommand : Prop :=
  ∀ s c rest, live s → s.pending = c :: rest →
    (illegalCmd c.cmd → step s = .next (faulted .illegalCommand { s with pending := rest })) ∧
    (¬ illegalCmd c.cmd → ∃ i, decode c = .ok i ∧ i.wf = true)

/-- R111: all of the reserved space is illegal and raises ILLEGAL_COMMAND, and it is all there is: every other word is a
command. -/
def Obligations.ReservedSpaceIsIllegal : Prop :=
  ∀ s c rest, live s → s.pending = c :: rest →
    (reservedCmd c.cmd → step s = .next (faulted .illegalCommand { s with pending := rest })) ∧
    (¬ reservedCmd c.cmd → ∃ i, decode c = .ok i)

/-- Decoding an encoded well-formed instruction gives it back, with every operand at every value (30_encoding.md §1-§3). -/
def Obligations.DecodeOfEncodeIsTheInstruction : Prop :=
  ∀ i : Instr, i.wf = true → decode (encode i) = .ok i

/-- A command that decodes is the encoding of its instruction: the same CMD, and the operand's bits of DIN, the others being
ignored (30_encoding.md §1-§3). -/
def Obligations.DecodedCommandIsTheEncodedCommand : Prop :=
  ∀ c i, decode c = .ok i → i.wf = true ∧ (encode i).cmd = c.cmd ∧ (encode i).din = c.din &&& dinMask i

/-- The decoder follows the rows of the opcode table with their match and mask (30_encoding.md §3): a decoded word matches its
instruction's row and no other, and a word that matches a row decodes to that row's instruction (RDREG up to number 8). -/
def Obligations.DecodeFollowsTheOpcodeTable : Prop :=
  (∀ c i, decode c = .ok i → opcodeRow i ∈ opcodeTable ∧ c.cmd &&& (opcodeRow i).mask = (opcodeRow i).pattern ∧
    ∀ r ∈ opcodeTable, c.cmd &&& r.mask = r.pattern → r = opcodeRow i) ∧
  (∀ c, ∀ r ∈ opcodeTable, c.cmd &&& r.mask = r.pattern → (r.format = .r → c.cmd.toNat % 256 ≤ 8) →
    ∃ i, decode c = .ok i ∧ opcodeRow i = r)

/-- Words written out from the spec's encodings (30_encoding.md §2, §3, §6) decode to the commands they stand for. -/
def Obligations.SampleWordsDecode : Prop :=
  decode ⟨0x0206#16, 0#32⟩ = .ok (.rdreg 6) ∧
  decode ⟨0x1205#16, 0x00000015#32⟩ = .ok (.wbits 5 0x15) ∧
  decode ⟨0x2100#16, 0x00000A1A#32⟩ = .ok (.rldb 10 0x1A) ∧
  decode ⟨0x3000#16, 0x00000009#32⟩ = .ok (.penc28 9) ∧
  decode ⟨0x4500#16, 0xFFFFFFFF#32⟩ = .ok .cddec ∧
  decode ⟨0x5103#16, 0x0000000F#32⟩ = .ok (.soffer 3 15) ∧
  decode ⟨0x1101#16, 0#32⟩ = .error .nonzeroArg ∧
  decode ⟨0x0209#16, 0#32⟩ = .error .reservedRegister ∧
  decode ⟨0x5400#16, 0#32⟩ = .error .unknownOpcode

/-! ### Faults -/

/-- R254: while faulted, NOP, INIT and RDREG r with r ≤ 8 execute; every other word, legal or not, is dropped. -/
def Obligations.FaultedSsbcExecutesOnlyThreeCommands : Prop :=
  ∀ s c rest, s.fault = true → s.pending = c :: rest →
    (c.cmd = 0x0000#16 → step s = .next { s with pending := rest }) ∧
    (c.cmd = 0x0100#16 → step s = .next { State.powerOn s.cfg s.rmem with pending := rest }) ∧
    (∀ r : BitVec 8, r.toNat ≤ 8 → c.cmd = 0x02#8 ++ r →
      ∃ w, readRegister r s = some w ∧ step s = .next { s with dout := w, pending := rest }) ∧
    (c.cmd ≠ 0x0000#16 → c.cmd ≠ 0x0100#16 → ¬ (0x0200 ≤ c.cmd.toNat ∧ c.cmd.toNat ≤ 0x0208) →
      step s = .next { s with pending := rest })

/-- R253: a command that raises a fault changes nothing but STATUS. -/
def Obligations.FaultChangesOnlyStatus : Prop :=
  ∀ i s t, live s → exec i s = .next t → t.fault = true → t.cause ≠ .none ∧ t = { s with fault := true, cause := t.cause }

/-- R252: FAULT stays 1 and CAUSE keeps the first cause until INIT. -/
def Obligations.FirstCauseIsKeptUntilInit : Prop :=
  ∀ s t, s.fault = true → step s = .next t →
    (t.fault = true ∧ t.cause = s.cause) ∨
    (∃ c rest, s.pending = c :: rest ∧ c.cmd = 0x0100#16 ∧ t.fault = false ∧ t.cause = .none)

/-- Each command raises only the fault codes that the table of 60_exceptions.md §1 lists it for, by their numbers. -/
def Obligations.CommandsRaiseOnlyTheirCauses : Prop :=
  ∀ i s t, live s → exec i s = .next t → t.fault = true → ∃ c ∈ mayRaise i, t.cause = c ∧ 1 ≤ (causeCode c).toNat ∧
    (causeCode c).toNat ≤ 8

/-! ### Who writes what -/

/-- Only the commands of 10_state.md §2 (R34's list) write DOUT with a result. INIT, which R131 makes write 0, is the one
exception to "every other command": log entry 8. -/
def Obligations.DoutIsWrittenOnlyByResultCommands : Prop :=
  ∀ i s t, exec i s = .next t → i ≠ .init → writesDout i = false → t.dout = s.dout

/-- R40: only WCLR and INIT lower WPOS, both set it to 0 and clear every bit, and no other command changes a bit below WPOS. -/
def Obligations.OnlyWclrAndInitShrinkTheWriter : Prop :=
  ∀ i s t, s.wmem.wf → exec i s = .next t →
    (t.wpos < s.wpos → i = .wclr ∨ i = .init) ∧
    (i = .init ∨ (i = .wclr ∧ live s) → t.wpos = 0 ∧ ∀ p, t.wmem.bit p = false) ∧
    (i ≠ .wclr → i ≠ .init → ∀ p, p < s.wpos → t.wmem.bit p = s.wmem.bit p)

/-- No step writes the constant tables or the parameters, and no reset changes them (10_state.md §8). -/
def Obligations.TablesAndParametersNeverChange : Prop :=
  (∀ s t, step s = .next t → t.cfg = s.cfg) ∧ ∀ cfg rmem, (State.powerOn cfg rmem).cfg = cfg

/-- Each unit's state is written by that unit's commands and INIT alone (10_state.md §4 to §7): WMEM and WPOS by the appending
commands and WCLR; RLEN and RPOS by RBIND and the commands that read the view; RMEM by RLDB; PREV by the four coder commands;
the selector by SINIT, SOFFER and SFINAL. No command touches what the host is yet to present. -/
def Obligations.UnitsWriteOnlyTheirOwnState : Prop :=
  ∀ i s t, exec i s = .next t →
    (i ≠ .init → i ≠ .wclr → appends i = false → t.wmem = s.wmem ∧ t.wpos = s.wpos) ∧
    (i ≠ .init → (∀ l, i ≠ .rbind l) → t.rlen = s.rlen ∧ (readsView i = false → t.rpos = s.rpos)) ∧
    ((∀ k b, i ≠ .rldb k b) → t.rmem = s.rmem) ∧
    (i ≠ .init → writesPrev i = false → t.prevCp = s.prevCp ∧ t.prevValid = s.prevValid) ∧
    (i ≠ .init → selects i = false → t.bestLen = s.bestLen ∧ t.bestMethod = s.bestMethod ∧ t.selValid = s.selValid ∧
      t.resMethod = s.resMethod ∧ t.resSuccess = s.resSuccess ∧ t.resValid = s.resValid) ∧
    t.pending = s.pending

/-- Nothing past the end of the view is ever read: with other bytes there, every command gives the same result in all but
RMEM, and RMEM itself is only written by RLDB (93_implementation_defined.md U1; 20_memory.md §2, §3). -/
def Obligations.NothingPastTheViewIsRead : Prop :=
  ∀ i s t m, (∀ p, p < 8 * s.rlen → m.bit p = s.rmem.bit p) → exec i s = .next t →
    ∃ m', exec i { s with rmem := m } = .next { t with rmem := m' } ∧ ((∀ k b, i ≠ .rldb k b) → m' = m)

/-! ### Control commands -/

/-- R130: NOP changes nothing, also while faulted. -/
def Obligations.NopChangesNothing : Prop :=
  (∀ s, exec .nop s = .next s) ∧ zCommand 0x00 (fun _ => .nop)

/-- R131: INIT resets every per-call entity, also while faulted; RMEM, the tables and the host's commands stay. -/
def Obligations.InitStartsAFreshCall : Prop :=
  (∀ s, ∃ t, exec .init s = .next t ∧
    statusWord t = 0 ∧ t.fault = false ∧ t.cause = .none ∧ t.dout = 0 ∧ t.wpos = 0 ∧ (∀ k, t.wmem.read k = 0) ∧ t.rlen = 0 ∧ t.rpos = 0 ∧
    t.prevCp = 0 ∧ t.prevValid = false ∧ t.bestLen = 0 ∧ methodTag t.bestMethod = 0 ∧ t.selValid = false ∧
    methodTag t.resMethod = 0 ∧ t.resSuccess = false ∧ t.resValid = false ∧
    t.rmem = s.rmem ∧ t.cfg = s.cfg ∧ t.pending = s.pending) ∧
  zCommand 0x01 (fun _ => .init)

/-- INIT and power-on reset leave the same state but for RMEM, which INIT keeps (70_reset_and_hazards.md §1, marked there as
derived); the state after INIT does not depend on a fault. -/
def Obligations.InitEqualsPowerOnButForRmem : Prop :=
  ∀ s, exec .init s = .next { State.powerOn s.cfg s.rmem with pending := s.pending }

/-- R132: RDREG shows each register of the map, its fields at their bits, also while faulted, and changes DOUT alone; a
reserved number is an illegal command, dropped while faulted. -/
def Obligations.RdregReadsTheRegisterMap : Prop :=
  (∀ s (r : BitVec 8), r.toNat ≤ 8 → ∃ w : Word, exec (.rdreg r) s = .next { s with dout := w } ∧
    (r.toNat = 0 → w.toNat = s.fault.toNat + 256 * (causeCode s.cause).toNat) ∧
    (r.toNat = 1 → w = BitVec.ofNat 32 s.wpos) ∧
    (r.toNat = 2 → w = BitVec.ofNat 32 s.rpos) ∧
    (r.toNat = 3 → w = BitVec.ofNat 32 s.rlen) ∧
    (r.toNat = 4 → w.toNat = s.prevCp.toNat + 2 ^ 31 * s.prevValid.toNat) ∧
    (r.toNat = 5 → w = s.bestLen) ∧
    (r.toNat = 6 → w.toNat = (methodTag s.bestMethod).toNat + 16 * s.selValid.toNat + 256 * (methodTag s.resMethod).toNat +
      4096 * s.resSuccess.toNat + 8192 * s.resValid.toNat) ∧
    (r.toNat = 7 → w = BitVec.ofNat 32 s.cfg.wcap) ∧
    (r.toNat = 8 → w = BitVec.ofNat 32 s.cfg.rcap)) ∧
  (∀ s (r : BitVec 8), 9 ≤ r.toNat →
    (live s → exec (.rdreg r) s = .next (faulted .illegalCommand s)) ∧ (s.fault = true → exec (.rdreg r) s = .next s)) ∧
  (∀ (r : BitVec 8) din, r.toNat ≤ 8 → decode (command 0x02 r din) = .ok (.rdreg r))

/-! ### Bit writer -/

/-- R140: WCLR empties the writer and changes nothing else. -/
def Obligations.WclrEmptiesTheWriter : Prop :=
  (∀ s, live s → ∃ m, exec .wclr s = .next { s with wmem := m, wpos := 0 } ∧ ∀ k, m.read k = 0) ∧
  zCommand 0x10 (fun _ => .wclr)

/-- R141: WBIT appends the bit DIN[0]; a full buffer raises WRITE_OVERFLOW. -/
def Obligations.WbitAppendsOneBit : Prop :=
  (∀ s b, live s → s.wmem.wf →
    (s.wpos + 1 ≤ 8 * s.cfg.wcap → ∃ t, exec (.wbit b) s = .next t ∧ Appended s t [b]) ∧
    (8 * s.cfg.wcap < s.wpos + 1 → exec (.wbit b) s = .next (faulted .writeOverflow s))) ∧
  zCommand 0x11 (fun din => .wbit (din.getLsbD 0))

/-- R142: WBITS appends the low n bits of v, low bit first; the count is checked before the room. -/
def Obligations.WbitsAppendsTheLowBits : Prop :=
  (∀ s (n : BitVec 8) (v : Word), live s → s.wmem.wf →
    (n.toNat < 1 ∨ 32 < n.toNat → exec (.wbits n v) s = .next (faulted .invalidArgument s)) ∧
    (1 ≤ n.toNat → n.toNat ≤ 32 → s.wpos + n.toNat ≤ 8 * s.cfg.wcap →
      ∃ t, exec (.wbits n v) s = .next t ∧ Appended s t (lowBits v.toNat n.toNat)) ∧
    (1 ≤ n.toNat → n.toNat ≤ 32 → 8 * s.cfg.wcap < s.wpos + n.toNat →
      exec (.wbits n v) s = .next (faulted .writeOverflow s))) ∧
  argCommand 0x12 (fun n din => .wbits n din)

/-- R143: WBYTE appends the 8 bits of a byte at any position; at a byte boundary it fills exactly one byte. -/
def Obligations.WbyteAppendsAByte : Prop :=
  (∀ s (v : Byte), live s → s.wmem.wf →
    (s.wpos + 8 ≤ 8 * s.cfg.wcap → ∃ t, exec (.wbyte v) s = .next t ∧ Appended s t (lowBits v.toNat 8) ∧
      (s.wpos % 8 = 0 → t.wmem.read (s.wpos / 8) = v)) ∧
    (8 * s.cfg.wcap < s.wpos + 8 → exec (.wbyte v) s = .next (faulted .writeOverflow s))) ∧
  zCommand 0x13 (fun din => .wbyte (din.extractLsb' 0 8))

/-- R144, R145, R146: WLEN reports the bit length, WPAD the bits to the next byte boundary, WBLEN the bit length rounded up to
bytes; each changes DOUT alone. -/
def Obligations.WriterReportsItsLengths : Prop :=
  (∀ s, live s → exec .wlen s = .next { s with dout := BitVec.ofNat 32 s.wpos }) ∧
  (∀ s, live s → ∃ pad, exec .wpad s = .next { s with dout := BitVec.ofNat 32 pad } ∧ pad ≤ 7 ∧ (s.wpos + pad) % 8 = 0) ∧
  (∀ s, live s → ∃ len, exec .wblen s = .next { s with dout := BitVec.ofNat 32 len } ∧
    s.wpos ≤ 8 * len ∧ 8 * len ≤ s.wpos + 7) ∧
  zCommand 0x14 (fun _ => .wlen) ∧ zCommand 0x15 (fun _ => .wpad) ∧ zCommand 0x16 (fun _ => .wblen)

/-- R147: WRDB reads a byte of the used part and nothing past it; the snapshot is exactly those bytes, its padding bits 0. -/
def Obligations.WrdbReadsTheSnapshot : Prop :=
  (∀ s (k : Word), live s →
    (8 * k.toNat < s.wpos →
      exec (.wrdb k) s = .next { s with dout := BitVec.ofNat 32 (s.wmem.read k.toNat).toNat } ∧
      (snapshot s)[k.toNat]? = some (s.wmem.read k.toNat)) ∧
    (s.wpos ≤ 8 * k.toNat →
      exec (.wrdb k) s = .next (faulted .invalidArgument s) ∧ (snapshot s)[k.toNat]? = none)) ∧
  (∀ s, MachineInv s → ∀ b, (snapshot s).getLast? = some b → s.wpos % 8 ≠ 0 → ∀ i, s.wpos % 8 ≤ i → b.getLsbD i = false) ∧
  zCommand 0x17 (fun din => .wrdb din)

/-! ### Bit reader -/

/-- R160: RBIND binds the first l bytes of RMEM, the cursor at the start. -/
def Obligations.RbindBindsTheView : Prop :=
  (∀ s (l : Word), live s →
    (l.toNat ≤ s.cfg.rcap → exec (.rbind l) s = .next { s with rlen := l.toNat, rpos := 0 }) ∧
    (s.cfg.rcap < l.toNat → exec (.rbind l) s = .next (faulted .invalidArgument s))) ∧
  zCommand 0x20 (fun din => .rbind din)

/-- R161: RLDB loads one byte of RMEM and leaves every other byte, RLEN, RPOS and DOUT. -/
def Obligations.RldbLoadsOneByte : Prop :=
  (∀ s (k : BitVec 24) (b : Byte), live s → s.rmem.wf →
    (k.toNat < s.cfg.rcap → ∃ m, exec (.rldb k b) s = .next { s with rmem := m } ∧
      m.wf ∧ ∀ a, m.read a = if a = k.toNat then b else s.rmem.read a) ∧
    (s.cfg.rcap ≤ k.toNat → exec (.rldb k b) s = .next (faulted .invalidArgument s))) ∧
  zCommand 0x21 (fun din => .rldb (din.extractLsb' 8 24) (din.extractLsb' 0 8))

/-- R162, R164: RBIT reads one bit and RBYTE eight, at any position. -/
def Obligations.RbitAndRbyteReadFields : Prop :=
  readsField .rbit 1 ∧ readsField .rbyte 8 ∧ zCommand 0x22 (fun _ => .rbit) ∧ zCommand 0x24 (fun _ => .rbyte)

/-- R163: RBITS reads n bits as an unsigned value; the count is checked before the view's end. -/
def Obligations.RbitsReadsAField : Prop :=
  (∀ n : BitVec 8, 1 ≤ n.toNat → n.toNat ≤ 32 → readsField (.rbits n) n.toNat) ∧
  (∀ s (n : BitVec 8), live s → n.toNat < 1 ∨ 32 < n.toNat → exec (.rbits n) s = .next (faulted .invalidArgument s)) ∧
  argCommand 0x23 (fun n _ => .rbits n)

/-- R165: RREM reports the remaining bit count, exactly while the cursor is inside the view, as every run has it (the
invariant, `Obligations.StepKeepsTheInvariant`). -/
def Obligations.RremReportsTheRemainingBits : Prop :=
  (∀ s, live s → s.rpos ≤ 8 * s.rlen →
    ∃ n, exec .rrem s = .next { s with dout := BitVec.ofNat 32 n } ∧ s.rpos + n = 8 * s.rlen) ∧
  zCommand 0x25 (fun _ => .rrem)

/-! ### Prefix codes -/

/-- R181, R182 (R180): PENC28 and PENC5 append the codeword of a symbol; a symbol outside the table is INVALID_STATE. -/
def Obligations.PencAppendsTheCodeword : Prop :=
  encodesSymbols Config.pc28 .penc28 ∧ encodesSymbols Config.pc5 .penc5 ∧
  zCommand 0x30 .penc28 ∧ zCommand 0x31 .penc5

/-- R186, R187 (R183, R185): PDEC28 and PDEC5 decode the codeword at RPOS, also when fewer bits remain than the table is deep;
on a fault nothing is consumed. -/
def Obligations.PdecDecodesTheCodeword : Prop :=
  decodesSymbols Config.pc28 8 .pdec28 ∧ decodesSymbols Config.pc5 3 .pdec5 ∧
  zCommand 0x32 (fun _ => .pdec28) ∧ zCommand 0x33 (fun _ => .pdec5)

/-- Walking the decode tree built from a well-formed table's pairs gives exactly the table walk, symbol, position and fault
alike, and the tree is as deep as the longest code (43_prefix_code.md §2). -/
def Obligations.TreeWalkIsTheTableWalk : Prop :=
  ∀ (N L : Nat) (T : Vector PrefixEntry N), prefixTableWf T L →
    treeDepth (codeTree T) = L ∧
    ∀ s, treeWalk s (codeTree T) s.rpos = prefixWalk T s (remaining s) s.rpos 0 0

/-- Encode, then decode: when the bits PENC appended stand at the view's cursor, PDEC returns the symbol and consumes exactly
them (43_prefix_code.md §2, marked there as derived). -/
def Obligations.PrefixCodeRoundTrip : Prop :=
  ∀ s t r (sym : Word), live s → live r → s.wmem.wf → r.cfg = s.cfg → configWf s.cfg → viewCopies r s t → live t →
    (exec (.penc28 sym) s = .next t → exec .pdec28 r = .next { r with rpos := r.rpos + (t.wpos - s.wpos), dout := sym }) ∧
    (exec (.penc5 sym) s = .next t → exec .pdec5 r = .next { r with rpos := r.rpos + (t.wpos - s.wpos), dout := sym })

/-! ### Codepoint coder -/

/-- R201 (R200): CAENC appends the code of the first tier that applies and makes c the previous codepoint. -/
def Obligations.CaencAppendsTheTierCode : Prop :=
  (∀ s (c : Word), live s → s.wmem.wf →
    (¬ scalar c.toNat → exec (.caenc c) s = .next (faulted .invalidState s)) ∧
    (scalar c.toNat → ∃ bits, AbsCode s.cfg c.toNat bits ∧
      (s.wpos + bits.length ≤ 8 * s.cfg.wcap →
        ∃ t, Appended s t bits ∧ exec (.caenc c) s = .next { t with prevCp := BitVec.ofNat 21 c.toNat, prevValid := true }) ∧
      (8 * s.cfg.wcap < s.wpos + bits.length → exec (.caenc c) s = .next (faulted .writeOverflow s)))) ∧
  zCommand 0x40 .caenc

/-- R202: CADEC reads the flag bits, then the field, of each tier; a tier-A index of 32 or more and a value that is no scalar
raise BAD_CODEPOINT, a view that ends inside the code READ_OVERRUN; tier B never yields a value that is no scalar. -/
def Obligations.CadecDecodesTheTierCode : Prop :=
  (∀ s, live s →
    let done := fun (c n : Nat) =>
      if scalar c then
        exec .cadec s =
          .next { s with rpos := s.rpos + n, dout := BitVec.ofNat 32 c, prevCp := BitVec.ofNat 21 c, prevValid := true }
      else exec .cadec s = .next (faulted .badCodepoint s)
    (∀ i : Fin 32, viewHolds s s.rpos (true :: lowBits i 8) → done (s.cfg.lowcp[i]).toNat 9) ∧
    (∀ i, 32 ≤ i → i < 256 → viewHolds s s.rpos (true :: lowBits i 8) → exec .cadec s = .next (faulted .badCodepoint s)) ∧
    (∀ o, o < 2 ^ 14 → viewHolds s s.rpos (false :: true :: lowBits o 14) → done (baseB s.cfg + o) 16 ∧
      (configWf s.cfg → scalar (baseB s.cfg + o))) ∧
    (∀ c, c < 2 ^ 21 → viewHolds s s.rpos (false :: false :: lowBits c 21) → done c 23) ∧
    ((viewRest s = [] ∨ viewRest s = [false] ∨
      ((viewRest s)[0]? = some true ∧ (viewRest s).length < 9) ∨
      ((viewRest s)[0]? = some false ∧ (viewRest s)[1]? = some true ∧ (viewRest s).length < 16) ∨
      ((viewRest s)[0]? = some false ∧ (viewRest s)[1]? = some false ∧ (viewRest s).length < 23)) →
      exec .cadec s = .next (faulted .readOverrun s))) ∧
  zCommand 0x41 (fun _ => .cadec)

/-- R206 (R203, R204, R205): CDENC appends the smallest delta form of c relative to PREV_CP, descriptor first, and makes c the
previous codepoint; INVALID_STATE before NO_PREV before WRITE_OVERFLOW. -/
def Obligations.CdencAppendsTheDeltaCode : Prop :=
  (∀ s (c : Word), live s → s.wmem.wf →
    (¬ scalar c.toNat → exec (.cdenc c) s = .next (faulted .invalidState s)) ∧
    (scalar c.toNat → s.prevValid = false → exec (.cdenc c) s = .next (faulted .noPrev s)) ∧
    (scalar c.toNat → s.prevValid = true → ∃ bits, DeltaCode s.prevCp.toNat c.toNat bits ∧
      (s.wpos + bits.length ≤ 8 * s.cfg.wcap →
        ∃ t, Appended s t bits ∧ exec (.cdenc c) s = .next { t with prevCp := BitVec.ofNat 21 c.toNat }) ∧
      (8 * s.cfg.wcap < s.wpos + bits.length → exec (.cdenc c) s = .next (faulted .writeOverflow s)))) ∧
  zCommand 0x42 .cdenc

/-- R207, R208: CDLIT appends descriptor 7 and the literal index, CDLEAVE descriptor 6; neither changes PREV. -/
def Obligations.CdlitAndCdleaveAppendDescriptors : Prop :=
  (∀ s (j : Word), live s → s.wmem.wf →
    (4 ≤ j.toNat → exec (.cdlit j) s = .next (faulted .invalidArgument s)) ∧
    (j.toNat < 4 → s.wpos + 5 ≤ 8 * s.cfg.wcap →
      ∃ t, exec (.cdlit j) s = .next t ∧ Appended s t ([true, true, true] ++ lowBits j.toNat 2)) ∧
    (j.toNat < 4 → 8 * s.cfg.wcap < s.wpos + 5 → exec (.cdlit j) s = .next (faulted .writeOverflow s))) ∧
  (∀ s, live s → s.wmem.wf →
    (s.wpos + 3 ≤ 8 * s.cfg.wcap → ∃ t, exec .cdleave s = .next t ∧ Appended s t [false, true, true]) ∧
    (8 * s.cfg.wcap < s.wpos + 3 → exec .cdleave s = .next (faulted .writeOverflow s))) ∧
  zCommand 0x43 .cdlit ∧ zCommand 0x44 (fun _ => .cdleave)

/-- R210 (R203, R209; the literals of R88): CDDEC decodes a leave, a literal or a delta; PREV_CP moves on a delta alone; NO_PREV
is raised before the payload is read. -/
def Obligations.CddecDecodesTheDeltaSymbol : Prop :=
  (∀ s, live s → configWf s.cfg →
    (viewHolds s s.rpos (lowBits 6 3) → exec .cddec s = .next { s with rpos := s.rpos + 3, dout := 0x02000000 }) ∧
    (∀ j : Fin 4, viewHolds s s.rpos (lowBits 7 3 ++ lowBits j 2) →
      exec .cddec s = .next { s with rpos := s.rpos + 5, dout := 0x01000000#32 + #v[0x20#32, 0x2C#32, 0x2E#32, 0x0A#32][j] }) ∧
    (∀ d, d < 6 → s.prevValid = false → viewHolds s s.rpos (lowBits d 3) → exec .cddec s = .next (faulted .noPrev s)) ∧
    (∀ d f w off, (d, w, off) ∈ [(0, 7, 0), (1, 14, 128), (2, 21, 0), (3, 7, 0), (4, 14, 128), (5, 21, 0)] → f < 2 ^ w →
      s.prevValid = true → viewHolds s s.rpos (lowBits d 3 ++ lowBits f w) →
      ∀ c : Int, c = (if d < 3 then (s.prevCp.toNat : Int) + (f + off : Nat) else (s.prevCp.toNat : Int) - (f + off : Nat)) →
        (0 ≤ c ∧ scalar c.toNat → exec .cddec s = .next { s with
          rpos := s.rpos + (3 + w), dout := BitVec.ofNat 32 c.toNat, prevCp := BitVec.ofNat 21 c.toNat }) ∧
        (¬ (0 ≤ c ∧ scalar c.toNat) → exec .cddec s = .next (faulted .badCodepoint s))) ∧
    ((viewRest s).length < 3 → exec .cddec s = .next (faulted .readOverrun s)) ∧
    (∀ d w, (d, w) ∈ [(0, 7), (1, 14), (2, 21), (3, 7), (4, 14), (5, 21), (7, 2)] → (d = 7 ∨ s.prevValid = true) →
      viewHolds s s.rpos (lowBits d 3) → (viewRest s).length < 3 + w → exec .cddec s = .next (faulted .readOverrun s))) ∧
  zCommand 0x45 (fun _ => .cddec)

/-- Encode, then decode an absolute code: CADEC returns c, consumes exactly what CAENC wrote, and both sides end with the same
PREV (44_codepoint.md §2, marked there as derived). -/
def Obligations.AbsoluteCodeRoundTrip : Prop :=
  ∀ s t r (c : Word), live s → live t → live r → s.wmem.wf → r.cfg = s.cfg → configWf s.cfg →
    exec (.caenc c) s = .next t → viewCopies r s t →
    exec .cadec r =
      .next { r with rpos := r.rpos + (t.wpos - s.wpos), dout := c, prevCp := t.prevCp, prevValid := t.prevValid }

/-- Encode, then decode a delta-mode symbol with the same PREV on both sides: CDDEC returns the codepoint, the literal or the
leave that was written and consumes exactly its bits (44_codepoint.md §2, marked there as derived). -/
def Obligations.DeltaCodeRoundTrip : Prop :=
  ∀ s t r, live s → live t → live r → s.wmem.wf → r.cfg = s.cfg → configWf s.cfg →
    r.prevCp = s.prevCp → r.prevValid = s.prevValid → viewCopies r s t →
    (∀ c : Word, exec (.cdenc c) s = .next t → exec .cddec r =
      .next { r with rpos := r.rpos + (t.wpos - s.wpos), dout := c, prevCp := t.prevCp, prevValid := t.prevValid }) ∧
    (∀ j : Word, exec (.cdlit j) s = .next t → ∃ h : j.toNat < 4, exec .cddec r =
      .next { r with rpos := r.rpos + (t.wpos - s.wpos), dout := deltaWord .literal s.cfg.lit4[j.toNat] }) ∧
    (exec .cdleave s = .next t → exec .cddec r =
      .next { r with rpos := r.rpos + (t.wpos - s.wpos), dout := deltaWord .leave 0 })

/-! ### Format selector -/

/-- R231: SINIT makes TreeSquash the best candidate and invalidates the result. -/
def Obligations.SinitStartsASelection : Prop :=
  (∀ s (t : Word), live s → ∃ u, exec (.sinit t) s = .next u ∧
    methodTag u.bestMethod = 1 ∧ methodTag u.resMethod = 0 ∧
    u = { s with bestLen := t, bestMethod := u.bestMethod, selValid := true, resValid := false, resSuccess := false,
                 resMethod := u.resMethod }) ∧
  zCommand 0x50 .sinit

/-- R232: SOFFER keeps a fixed candidate only if strictly smaller than the current best; the tag is checked before SEL_VALID. -/
def Obligations.SofferKeepsOnlyAStrictlySmaller : Prop :=
  (∀ s (m : BitVec 8) (l : Word), live s →
    (m.toNat < 2 ∨ 4 < m.toNat → exec (.soffer m l) s = .next (faulted .invalidArgument s)) ∧
    (2 ≤ m.toNat → m.toNat ≤ 4 → s.selValid = false → exec (.soffer m l) s = .next (faulted .invalidState s)) ∧
    (2 ≤ m.toNat → m.toNat ≤ 4 → s.selValid = true → l.toNat < s.bestLen.toNat →
      ∃ method, (methodTag method).toNat = m.toNat ∧
        exec (.soffer m l) s = .next { s with bestLen := l, bestMethod := method }) ∧
    (2 ≤ m.toNat → m.toNat ≤ 4 → s.selValid = true → s.bestLen.toNat ≤ l.toNat → exec (.soffer m l) s = .next s)) ∧
  argCommand 0x51 .soffer

/-- R233: SFINAL compares the best candidate with the UTF-8 length and reports success and method; ties favour UTF-8. -/
def Obligations.SfinalComparesWithUtf8 : Prop :=
  (∀ s (u : Word), live s →
    (s.selValid = false → exec (.sfinal u) s = .next (faulted .invalidState s)) ∧
    (s.selValid = true → s.bestLen.toNat < u.toNat →
      exec (.sfinal u) s = .next { s with
        resSuccess := true, resMethod := s.bestMethod, resValid := true,
        dout := BitVec.ofNat 32 (256 + (methodTag s.bestMethod).toNat) }) ∧
    (s.selValid = true → u.toNat ≤ s.bestLen.toNat →
      exec (.sfinal u) s = .next { s with resSuccess := false, resMethod := .none, resValid := true, dout := 0 })) ∧
  zCommand 0x52 .sfinal

/-- The size contract and empty input (45_selector.md §1, marked there as derived): success exactly when the best candidate is
strictly shorter than UTF-8, so what is returned is never longer; with u = 0 there is no success and the method is None. -/
def Obligations.SelectionNeverExpands : Prop :=
  ∀ s t (u : Word), live s → s.selValid = true → exec (.sfinal u) s = .next t →
    (t.resSuccess = true ↔ s.bestLen.toNat < u.toNat) ∧
    (if t.resSuccess then s.bestLen.toNat else u.toNat) ≤ u.toNat ∧
    (t.resSuccess = false → t.resMethod = .none) ∧
    (u = 0 → t.resSuccess = false ∧ t.resMethod = .none ∧ t.dout = 0)

/-- Tie-breaking over a whole selection (45_selector.md §1, marked there as derived): of TreeSquash and the candidates in offer
order the first of minimal length is selected, provided that length is below the UTF-8 length. -/
def Obligations.SelectionPicksTheFirstMinimum : Prop :=
  ∀ s (t u : Word) (candidates : List (BitVec 8 × Word)), live s →
    (∀ x ∈ candidates, 2 ≤ x.1.toNat ∧ x.1.toNat ≤ 4) →
    ∃ r, issue (select t candidates u) s = .next r ∧ live r ∧ r.resValid = true ∧
      ∃ k : Nat, ∃ best : BitVec 8 × Word, ((1, t) :: candidates)[k]? = some best ∧
        r.bestLen = best.2 ∧ (methodTag r.bestMethod).toNat = best.1.toNat ∧
        (∀ (j : Nat) (x : BitVec 8 × Word), ((1, t) :: candidates)[j]? = some x → best.2.toNat ≤ x.2.toNat) ∧
        (∀ (j : Nat) (x : BitVec 8 × Word), j < k → ((1, t) :: candidates)[j]? = some x → best.2.toNat < x.2.toNat) ∧
        (best.2.toNat < u.toNat → r.resSuccess = true ∧ r.resMethod = r.bestMethod) ∧
        (u.toNat ≤ best.2.toNat → r.resSuccess = false ∧ r.resMethod = .none)

/-- R240 (R238): HCLASS classifies by the length rules first, then by the range of the first byte; it changes DOUT alone, where
the class, the argument and the method stand at their bits. -/
def Obligations.HclassClassifiesTheHeader : Prop :=
  (∀ s (l : BitVec 24) (b : Byte), live s → ∃ cls arg meth,
    exec (.hclass l b) s = .next { s with dout := BitVec.ofNat 32 (cls + 256 * arg + 65536 * meth) } ∧
    (l.toNat = 0 → (cls, arg, meth) = (0, 0, 0)) ∧
    (l.toNat = 1 → (cls, arg, meth) = (1, 0, 0)) ∧
    (2 ≤ l.toNat →
      (b.toNat ≤ 0x7F → (cls, arg, meth) = (1, 0, 0)) ∧
      (0x80 ≤ b.toNat → b.toNat ≤ 0xBF → (cls, arg, meth) = (2, b.toNat - 0x80, 1)) ∧
      (b.toNat = 0xC0 → (cls, arg, meth) = (3, 0, 1)) ∧
      (b.toNat = 0xC1 → (cls, arg, meth) = (4, 0, 1)) ∧
      (0xC2 ≤ b.toNat → b.toNat ≤ 0xF4 → (cls, arg, meth) = (1, 0, 0)) ∧
      (0xF5 ≤ b.toNat → b.toNat ≤ 0xF8 → (cls, arg, meth) = (5, b.toNat - 0xF5, 4)) ∧
      (0xF9 ≤ b.toNat → b.toNat ≤ 0xFC → (cls, arg, meth) = (6, b.toNat - 0xF9, 4)) ∧
      (b.toNat = 0xFD → (cls, arg, meth) = (7, 0, 3)) ∧
      (b.toNat = 0xFE → (cls, arg, meth) = (8, 0, 3)) ∧
      (b.toNat = 0xFF → (cls, arg, meth) = (9, 0, 2)))) ∧
  zCommand 0x53 (fun din => .hclass (din.extractLsb' 8 24) (din.extractLsb' 0 8))

/-! ### Sequences of commands -/

/-- LOADVIEW loads its bytes at the indices from 0 up and binds them, and leaves every other byte (30_encoding.md §6). -/
def Obligations.LoadViewLoadsAndBinds : Prop :=
  ∀ s bytes, live s → s.rmem.wf → s.cfg.rcap ≤ 2 ^ 24 → bytes.length ≤ s.cfg.rcap →
    ∃ m, issue (loadView bytes) s = .next { s with rmem := m, rlen := bytes.length, rpos := 0 } ∧
      ∀ k, m.read k = if k < bytes.length then bytes.getD k 0 else s.rmem.read k

/-- The round trip of the writer and the reader (20_memory.md §3, marked there as derived): fields appended from an empty
writer, its snapshot loaded and bound by the host, are what reads of the same widths return, in order. -/
def Obligations.WriterReaderRoundTrip : Prop :=
  ∀ s (fields : List (BitVec 8 × Word)), live s → s.wmem.wf → s.wpos = 0 →
    (∀ f ∈ fields, legalCount f.1) → (fields.map fun f => f.1.toNat).sum ≤ 8 * s.cfg.wcap →
    ∃ t, issue (fields.map fun f => .wbits f.1 f.2) s = .next t ∧ live t ∧
      ∀ r, live r → r.rmem.wf → r.cfg.rcap ≤ 2 ^ 24 → (snapshot t).length ≤ r.cfg.rcap →
        ∃ r', issue (loadView (snapshot t)) r = .next r' ∧
          douts (fields.map fun f => .rbits f.1) r' = fields.map fun f => BitVec.ofNat 32 (f.2.toNat % 2 ^ f.1.toNat)
end

