-- ==== Sys2Proof/Laws/Memory.lean ====
section
/-! SUPPORT. The laws of the byte memories: a read after a write, the canonical form, and single bits. -/

namespace Sys2Proof.Machine

theorem Memory.read_nil (a : Nat) : Memory.read [] a = Memory.background := rfl

/-- An unlisted address reads as 0x00 (10_state.md R39, R51). -/
theorem Memory.background_eq : Memory.background = 0#8 := rfl

/-- A byte below every listed address is not listed. -/
theorem Memory.read_of_all_gt (m : Memory) (a : Nat) (h : ∀ x ∈ m, a < x.1) : m.read a = Memory.background := by
  induction m with
  | nil => rfl
  | cons x m ih =>
    obtain ⟨k, y⟩ := x
    have hk : a < k := h _ List.mem_cons_self
    simp only [Memory.read, if_neg (Nat.ne_of_lt hk)]
    exact ih fun z hz => h z (List.mem_cons_of_mem _ hz)

/-- Reading after a write: the byte written, and every other byte as before. -/
theorem Memory.read_write (m : Memory) (hm : m.wf) (a : Nat) (b : Byte) (k : Nat) :
    (m.write a b).read k = if k = a then b else m.read k := by
  induction m with
  | nil =>
    by_cases hb : b = Memory.background
    · subst hb; simp [Memory.write, Memory.read]
    · simp [Memory.write, hb, Memory.read]
  | cons x m ih =>
    obtain ⟨j, y⟩ := x
    have hm' : Memory.wf m := ⟨(List.pairwise_cons.mp hm.1).2, fun z hz => hm.2 z (List.mem_cons_of_mem _ hz)⟩
    have hlt : ∀ z ∈ m, j < z.1 := (List.pairwise_cons.mp hm.1).1
    have ih := ih hm'
    have hread : ∀ i, i ≤ j → Memory.read m i = Memory.background := fun i hi =>
      Memory.read_of_all_gt m i fun z hz => Nat.lt_of_le_of_lt hi (hlt z hz)
    simp only [Memory.write]
    by_cases h1 : a < j
    · rw [if_pos h1]
      have ha : k = a → Memory.read ((j, y) :: m) k = Memory.background := fun e => by
        rw [Memory.read, if_neg (by omega), hread k (by omega)]
      by_cases h2 : b = Memory.background <;> by_cases hk : k = a <;> simp_all [Memory.read]
    · rw [if_neg h1]
      by_cases h3 : a = j
      · subst h3
        have ha : k = a → Memory.read m k = Memory.background := fun e => hread k (by omega)
        by_cases h4 : b = Memory.background <;> by_cases hk : k = a <;> simp_all [Memory.read]
      · rw [if_neg h3]
        by_cases hk : k = j
        · subst hk
          rw [if_neg fun e => h3 e.symm]
          simp [Memory.read]
        · rw [Memory.read, if_neg hk, ih, Memory.read, if_neg hk]

/-- The addresses a write leaves listed. -/
theorem Memory.mem_write {m : Memory} {a : Nat} {b : Byte} {x : Host.Cell} (h : x ∈ m.write a b) :
    x ∈ m ∨ x = (a, b) ∧ b ≠ Memory.background := by
  induction m with
  | nil =>
    by_cases hb : b = Memory.background
    · simp [Memory.write, hb] at h
    · simp [Memory.write, hb] at h; exact .inr ⟨h, hb⟩
  | cons y m ih =>
    obtain ⟨j, c⟩ := y
    simp only [Memory.write] at h
    split_ifs at h with h1 h2 h3 h4
    · exact .inl h
    · rcases List.mem_cons.mp h with h | h
      · exact .inr ⟨h, h2⟩
      · exact .inl h
    · exact .inl (List.mem_cons_of_mem _ h)
    · rcases List.mem_cons.mp h with h | h
      · exact .inr ⟨h, h4⟩
      · exact .inl (List.mem_cons_of_mem _ h)
    · rcases List.mem_cons.mp h with h | h
      · exact .inl (h ▸ List.mem_cons_self)
      · rcases ih h with h | h
        · exact .inl (List.mem_cons_of_mem _ h)
        · exact .inr h

/-- Every write keeps the canonical form. -/
theorem Memory.write_wf (m : Memory) (hm : m.wf) (a : Nat) (b : Byte) : (m.write a b).wf := by
  refine ⟨?_, fun x hx => ?_⟩
  · induction m with
    | nil => by_cases hb : b = Memory.background <;> simp [Memory.write, hb]
    | cons y m ih =>
      obtain ⟨j, c⟩ := y
      have hm' : Memory.wf m := ⟨(List.pairwise_cons.mp hm.1).2, fun z hz => hm.2 z (List.mem_cons_of_mem _ hz)⟩
      have hlt : ∀ z ∈ m, j < z.1 := (List.pairwise_cons.mp hm.1).1
      simp only [Memory.write]
      split_ifs with h1 h2 h3 h4
      · exact hm.1
      · exact List.pairwise_cons.mpr ⟨fun z hz => by
          rcases List.mem_cons.mp hz with hz | hz
          · exact hz ▸ h1
          · exact Nat.lt_trans h1 (hlt z hz), hm.1⟩
      · exact hm'.1
      · exact List.pairwise_cons.mpr ⟨fun z hz => h3 ▸ hlt z hz, hm'.1⟩
      · refine List.pairwise_cons.mpr ⟨fun z hz => ?_, ih hm'⟩
        rcases Memory.mem_write hz with hz | ⟨hz, -⟩
        · exact hlt z hz
        · subst hz; show j < a; omega
  · rcases Memory.mem_write hx with hx | ⟨hx, hb⟩
    · exact hm.2 x hx
    · subst hx; exact hb

/-- A write below the capacity keeps every listed address below it. -/
theorem Memory.within_write (m : Memory) (cap : Nat) (hm : m.within cap) (a : Nat) (b : Byte) (ha : a < cap) :
    (m.write a b).within cap := by
  intro x hx
  rcases Memory.mem_write hx with hx | ⟨hx, -⟩
  · exact hm x hx
  · subst hx; exact ha

/-- The value of a listed byte is what reading its address gives. -/
theorem Memory.read_of_mem (m : Memory) (hm : m.wf) (x : Host.Cell) (hx : x ∈ m) : m.read x.1 = x.2 := by
  induction m with
  | nil => cases hx
  | cons y m ih =>
    obtain ⟨j, c⟩ := y
    have hm' : Memory.wf m := ⟨(List.pairwise_cons.mp hm.1).2, fun z hz => hm.2 z (List.mem_cons_of_mem _ hz)⟩
    rcases List.mem_cons.mp hx with hx | hx
    · subst hx; simp [Memory.read]
    · have := (List.pairwise_cons.mp hm.1).1 x hx
      simp only [Memory.read]
      rw [if_neg (by simpa using (Nat.ne_of_gt this)), ih hm' hx]

/-- Equal memories are equal data: canonical memories that read alike are the same list. -/
theorem Memory.ext_of_read {m n : Memory} (hm : m.wf) (hn : n.wf) (h : ∀ a, m.read a = n.read a) : m = n := by
  induction m generalizing n with
  | nil =>
    cases n with
    | nil => rfl
    | cons y n =>
      have := Memory.read_of_mem _ hn y List.mem_cons_self
      rw [← h] at this
      exact absurd this.symm (hn.2 y List.mem_cons_self)
  | cons x m ih =>
    cases n with
    | nil =>
      have := Memory.read_of_mem _ hm x List.mem_cons_self
      rw [h] at this
      exact absurd this.symm (hm.2 x List.mem_cons_self)
    | cons y n =>
      obtain ⟨i, b⟩ := x
      obtain ⟨j, c⟩ := y
      have hm' : Memory.wf m := ⟨(List.pairwise_cons.mp hm.1).2, fun z hz => hm.2 z (List.mem_cons_of_mem _ hz)⟩
      have hn' : Memory.wf n := ⟨(List.pairwise_cons.mp hn.1).2, fun z hz => hn.2 z (List.mem_cons_of_mem _ hz)⟩
      have hlm : ∀ z ∈ m, i < z.1 := (List.pairwise_cons.mp hm.1).1
      have hln : ∀ z ∈ n, j < z.1 := (List.pairwise_cons.mp hn.1).1
      have hij : i = j := by
        rcases Nat.lt_trichotomy i j with hlt | heq | hgt
        · have h1 := Memory.read_of_mem _ hm (i, b) List.mem_cons_self
          rw [h, Memory.read_of_all_gt _ _ (fun z hz => by
            rcases List.mem_cons.mp hz with hz | hz
            · exact hz ▸ hlt
            · exact Nat.lt_trans hlt (hln z hz))] at h1
          exact absurd h1.symm (hm.2 _ List.mem_cons_self)
        · exact heq
        · have h1 := Memory.read_of_mem _ hn (j, c) List.mem_cons_self
          rw [← h, Memory.read_of_all_gt _ _ (fun z hz => by
            rcases List.mem_cons.mp hz with hz | hz
            · exact hz ▸ hgt
            · exact Nat.lt_trans hgt (hlm z hz))] at h1
          exact absurd h1.symm (hn.2 _ List.mem_cons_self)
      subst hij
      have hbc : b = c := by simpa [Memory.read] using h i
      subst hbc
      rw [ih hm' hn' fun a => ?_]
      by_cases ha : a = i
      · subst ha
        rw [Memory.read_of_all_gt m a hlm, Memory.read_of_all_gt n a hln]
      · simpa [Memory.read, ha] using h a

/-- The bits of a byte after one is set. -/
theorem getLsbD_setByteBit (x : Byte) (i j : Nat) (b : Bool) (hi : i < 8) :
    (setByteBit x i b).getLsbD j = if j = i then b else x.getLsbD j := by
  unfold setByteBit
  by_cases hj : j < 8
  · cases b <;> simp only [Bool.false_eq_true, if_true, if_false, BitVec.getLsbD_or, BitVec.getLsbD_and,
      BitVec.getLsbD_not, BitVec.getLsbD_shiftLeft, BitVec.getLsbD_one]
    · by_cases h : j = i
      · subst h; simp [hj]
      · have : ¬ (j - i = 0 ∧ i ≤ j) := by omega
        by_cases h2 : j < i <;> simp [h, h2, hj]
        intro _
        omega
    · by_cases h : j = i
      · subst h; simp [hj]
      · by_cases h2 : j < i <;> simp [h, h2, hj]
        intro
        omega
  · have h1 : j ≠ i := by omega
    rw [if_neg h1, BitVec.getLsbD_of_ge _ _ (by omega), BitVec.getLsbD_of_ge _ _ (by omega)]

/-- Setting a bit of a memory sets that bit and no other. -/
theorem Memory.bit_setBit (m : Memory) (hm : m.wf) (p q : Nat) (b : Bool) :
    (m.setBit p b).bit q = if q = p then b else m.bit q := by
  unfold Memory.setBit Memory.bit
  rw [Memory.read_write m hm]
  by_cases h : q / 8 = p / 8
  · rw [if_pos h, getLsbD_setByteBit _ _ _ _ (by omega)]
    by_cases h2 : q = p
    · subst h2; simp
    · rw [if_neg h2, if_neg (by omega), h]
  · rw [if_neg h, if_neg (fun e => h (by rw [e]))]

theorem Memory.setBit_wf (m : Memory) (hm : m.wf) (p : Nat) (b : Bool) : (m.setBit p b).wf :=
  Memory.write_wf m hm _ _

/-- Setting a bit leaves every other byte as it was. -/
theorem Memory.read_setBit_of_ne (m : Memory) (hm : m.wf) (p a : Nat) (b : Bool) (h : a ≠ p / 8) :
    (m.setBit p b).read a = m.read a := by
  rw [Memory.setBit, Memory.read_write m hm, if_neg h]

end Sys2Proof.Machine
end

