-- ==== Sys2Proof/Laws/State.lean ====
section
/-! SUPPORT. One lemma per field per update of the state. -/

namespace Sys2Proof.Machine

/-! A result written to DOUT changes DOUT alone. -/

@[simp] theorem setDout_fault (w : Word) (s : State) : (setDout w s).fault = s.fault := rfl
@[simp] theorem setDout_cause (w : Word) (s : State) : (setDout w s).cause = s.cause := rfl
@[simp] theorem setDout_dout (w : Word) (s : State) : (setDout w s).dout = w := rfl
@[simp] theorem setDout_wmem (w : Word) (s : State) : (setDout w s).wmem = s.wmem := rfl
@[simp] theorem setDout_wpos (w : Word) (s : State) : (setDout w s).wpos = s.wpos := rfl
@[simp] theorem setDout_rmem (w : Word) (s : State) : (setDout w s).rmem = s.rmem := rfl
@[simp] theorem setDout_rlen (w : Word) (s : State) : (setDout w s).rlen = s.rlen := rfl
@[simp] theorem setDout_rpos (w : Word) (s : State) : (setDout w s).rpos = s.rpos := rfl
@[simp] theorem setDout_prevCp (w : Word) (s : State) : (setDout w s).prevCp = s.prevCp := rfl
@[simp] theorem setDout_prevValid (w : Word) (s : State) : (setDout w s).prevValid = s.prevValid := rfl
@[simp] theorem setDout_bestLen (w : Word) (s : State) : (setDout w s).bestLen = s.bestLen := rfl
@[simp] theorem setDout_bestMethod (w : Word) (s : State) : (setDout w s).bestMethod = s.bestMethod := rfl
@[simp] theorem setDout_selValid (w : Word) (s : State) : (setDout w s).selValid = s.selValid := rfl
@[simp] theorem setDout_resMethod (w : Word) (s : State) : (setDout w s).resMethod = s.resMethod := rfl
@[simp] theorem setDout_resSuccess (w : Word) (s : State) : (setDout w s).resSuccess = s.resSuccess := rfl
@[simp] theorem setDout_resValid (w : Word) (s : State) : (setDout w s).resValid = s.resValid := rfl
@[simp] theorem setDout_cfg (w : Word) (s : State) : (setDout w s).cfg = s.cfg := rfl
@[simp] theorem setDout_pending (w : Word) (s : State) : (setDout w s).pending = s.pending := rfl

/-! One appended bit changes WMEM and WPOS alone. -/

@[simp] theorem appendBit_fault (b : Bool) (s : State) : (appendBit b s).fault = s.fault := rfl
@[simp] theorem appendBit_cause (b : Bool) (s : State) : (appendBit b s).cause = s.cause := rfl
@[simp] theorem appendBit_dout (b : Bool) (s : State) : (appendBit b s).dout = s.dout := rfl
@[simp] theorem appendBit_wmem (b : Bool) (s : State) : (appendBit b s).wmem = s.wmem.setBit s.wpos b := rfl
@[simp] theorem appendBit_wpos (b : Bool) (s : State) : (appendBit b s).wpos = s.wpos + 1 := rfl
@[simp] theorem appendBit_rmem (b : Bool) (s : State) : (appendBit b s).rmem = s.rmem := rfl
@[simp] theorem appendBit_rlen (b : Bool) (s : State) : (appendBit b s).rlen = s.rlen := rfl
@[simp] theorem appendBit_rpos (b : Bool) (s : State) : (appendBit b s).rpos = s.rpos := rfl
@[simp] theorem appendBit_prevCp (b : Bool) (s : State) : (appendBit b s).prevCp = s.prevCp := rfl
@[simp] theorem appendBit_prevValid (b : Bool) (s : State) : (appendBit b s).prevValid = s.prevValid := rfl
@[simp] theorem appendBit_bestLen (b : Bool) (s : State) : (appendBit b s).bestLen = s.bestLen := rfl
@[simp] theorem appendBit_bestMethod (b : Bool) (s : State) : (appendBit b s).bestMethod = s.bestMethod := rfl
@[simp] theorem appendBit_selValid (b : Bool) (s : State) : (appendBit b s).selValid = s.selValid := rfl
@[simp] theorem appendBit_resMethod (b : Bool) (s : State) : (appendBit b s).resMethod = s.resMethod := rfl
@[simp] theorem appendBit_resSuccess (b : Bool) (s : State) : (appendBit b s).resSuccess = s.resSuccess := rfl
@[simp] theorem appendBit_resValid (b : Bool) (s : State) : (appendBit b s).resValid = s.resValid := rfl
@[simp] theorem appendBit_cfg (b : Bool) (s : State) : (appendBit b s).cfg = s.cfg := rfl
@[simp] theorem appendBit_pending (b : Bool) (s : State) : (appendBit b s).pending = s.pending := rfl

/-! Clearing the writer changes WMEM and WPOS alone. -/

@[simp] theorem clearWriter_fault (s : State) : (clearWriter s).fault = s.fault := rfl
@[simp] theorem clearWriter_cause (s : State) : (clearWriter s).cause = s.cause := rfl
@[simp] theorem clearWriter_dout (s : State) : (clearWriter s).dout = s.dout := rfl
@[simp] theorem clearWriter_wmem (s : State) : (clearWriter s).wmem = [] := rfl
@[simp] theorem clearWriter_wpos (s : State) : (clearWriter s).wpos = 0 := rfl
@[simp] theorem clearWriter_rmem (s : State) : (clearWriter s).rmem = s.rmem := rfl
@[simp] theorem clearWriter_rlen (s : State) : (clearWriter s).rlen = s.rlen := rfl
@[simp] theorem clearWriter_rpos (s : State) : (clearWriter s).rpos = s.rpos := rfl
@[simp] theorem clearWriter_prevCp (s : State) : (clearWriter s).prevCp = s.prevCp := rfl
@[simp] theorem clearWriter_prevValid (s : State) : (clearWriter s).prevValid = s.prevValid := rfl
@[simp] theorem clearWriter_bestLen (s : State) : (clearWriter s).bestLen = s.bestLen := rfl
@[simp] theorem clearWriter_bestMethod (s : State) : (clearWriter s).bestMethod = s.bestMethod := rfl
@[simp] theorem clearWriter_selValid (s : State) : (clearWriter s).selValid = s.selValid := rfl
@[simp] theorem clearWriter_resMethod (s : State) : (clearWriter s).resMethod = s.resMethod := rfl
@[simp] theorem clearWriter_resSuccess (s : State) : (clearWriter s).resSuccess = s.resSuccess := rfl
@[simp] theorem clearWriter_resValid (s : State) : (clearWriter s).resValid = s.resValid := rfl
@[simp] theorem clearWriter_cfg (s : State) : (clearWriter s).cfg = s.cfg := rfl
@[simp] theorem clearWriter_pending (s : State) : (clearWriter s).pending = s.pending := rfl

/-! A new previous codepoint changes PREV alone. -/

@[simp] theorem setPrev_fault (c : Nat) (s : State) : (setPrev c s).fault = s.fault := rfl
@[simp] theorem setPrev_cause (c : Nat) (s : State) : (setPrev c s).cause = s.cause := rfl
@[simp] theorem setPrev_dout (c : Nat) (s : State) : (setPrev c s).dout = s.dout := rfl
@[simp] theorem setPrev_wmem (c : Nat) (s : State) : (setPrev c s).wmem = s.wmem := rfl
@[simp] theorem setPrev_wpos (c : Nat) (s : State) : (setPrev c s).wpos = s.wpos := rfl
@[simp] theorem setPrev_rmem (c : Nat) (s : State) : (setPrev c s).rmem = s.rmem := rfl
@[simp] theorem setPrev_rlen (c : Nat) (s : State) : (setPrev c s).rlen = s.rlen := rfl
@[simp] theorem setPrev_rpos (c : Nat) (s : State) : (setPrev c s).rpos = s.rpos := rfl
@[simp] theorem setPrev_prevCp (c : Nat) (s : State) : (setPrev c s).prevCp = BitVec.ofNat 21 c := rfl
@[simp] theorem setPrev_prevValid (c : Nat) (s : State) : (setPrev c s).prevValid = true := rfl
@[simp] theorem setPrev_bestLen (c : Nat) (s : State) : (setPrev c s).bestLen = s.bestLen := rfl
@[simp] theorem setPrev_bestMethod (c : Nat) (s : State) : (setPrev c s).bestMethod = s.bestMethod := rfl
@[simp] theorem setPrev_selValid (c : Nat) (s : State) : (setPrev c s).selValid = s.selValid := rfl
@[simp] theorem setPrev_resMethod (c : Nat) (s : State) : (setPrev c s).resMethod = s.resMethod := rfl
@[simp] theorem setPrev_resSuccess (c : Nat) (s : State) : (setPrev c s).resSuccess = s.resSuccess := rfl
@[simp] theorem setPrev_resValid (c : Nat) (s : State) : (setPrev c s).resValid = s.resValid := rfl
@[simp] theorem setPrev_cfg (c : Nat) (s : State) : (setPrev c s).cfg = s.cfg := rfl
@[simp] theorem setPrev_pending (c : Nat) (s : State) : (setPrev c s).pending = s.pending := rfl

/-! SINIT changes the selector alone. -/

@[simp] theorem startSelection_fault (t : Word) (s : State) : (startSelection t s).fault = s.fault := rfl
@[simp] theorem startSelection_cause (t : Word) (s : State) : (startSelection t s).cause = s.cause := rfl
@[simp] theorem startSelection_dout (t : Word) (s : State) : (startSelection t s).dout = s.dout := rfl
@[simp] theorem startSelection_wmem (t : Word) (s : State) : (startSelection t s).wmem = s.wmem := rfl
@[simp] theorem startSelection_wpos (t : Word) (s : State) : (startSelection t s).wpos = s.wpos := rfl
@[simp] theorem startSelection_rmem (t : Word) (s : State) : (startSelection t s).rmem = s.rmem := rfl
@[simp] theorem startSelection_rlen (t : Word) (s : State) : (startSelection t s).rlen = s.rlen := rfl
@[simp] theorem startSelection_rpos (t : Word) (s : State) : (startSelection t s).rpos = s.rpos := rfl
@[simp] theorem startSelection_prevCp (t : Word) (s : State) : (startSelection t s).prevCp = s.prevCp := rfl
@[simp] theorem startSelection_prevValid (t : Word) (s : State) : (startSelection t s).prevValid = s.prevValid := rfl
@[simp] theorem startSelection_bestLen (t : Word) (s : State) : (startSelection t s).bestLen = t := rfl
@[simp] theorem startSelection_bestMethod (t : Word) (s : State) : (startSelection t s).bestMethod = .treeSquash := rfl
@[simp] theorem startSelection_selValid (t : Word) (s : State) : (startSelection t s).selValid = true := rfl
@[simp] theorem startSelection_resMethod (t : Word) (s : State) : (startSelection t s).resMethod = .none := rfl
@[simp] theorem startSelection_resSuccess (t : Word) (s : State) : (startSelection t s).resSuccess = false := rfl
@[simp] theorem startSelection_resValid (t : Word) (s : State) : (startSelection t s).resValid = false := rfl
@[simp] theorem startSelection_cfg (t : Word) (s : State) : (startSelection t s).cfg = s.cfg := rfl
@[simp] theorem startSelection_pending (t : Word) (s : State) : (startSelection t s).pending = s.pending := rfl

/-! INIT resets every per-call entity and keeps RMEM, the configuration and the host's commands. -/

@[simp] theorem startCall_fault (s : State) : (startCall s).fault = false := rfl
@[simp] theorem startCall_cause (s : State) : (startCall s).cause = .none := rfl
@[simp] theorem startCall_dout (s : State) : (startCall s).dout = 0 := rfl
@[simp] theorem startCall_wmem (s : State) : (startCall s).wmem = [] := rfl
@[simp] theorem startCall_wpos (s : State) : (startCall s).wpos = 0 := rfl
@[simp] theorem startCall_rmem (s : State) : (startCall s).rmem = s.rmem := rfl
@[simp] theorem startCall_rlen (s : State) : (startCall s).rlen = 0 := rfl
@[simp] theorem startCall_rpos (s : State) : (startCall s).rpos = 0 := rfl
@[simp] theorem startCall_prevCp (s : State) : (startCall s).prevCp = 0 := rfl
@[simp] theorem startCall_prevValid (s : State) : (startCall s).prevValid = false := rfl
@[simp] theorem startCall_bestLen (s : State) : (startCall s).bestLen = 0 := rfl
@[simp] theorem startCall_bestMethod (s : State) : (startCall s).bestMethod = .none := rfl
@[simp] theorem startCall_selValid (s : State) : (startCall s).selValid = false := rfl
@[simp] theorem startCall_resMethod (s : State) : (startCall s).resMethod = .none := rfl
@[simp] theorem startCall_resSuccess (s : State) : (startCall s).resSuccess = false := rfl
@[simp] theorem startCall_resValid (s : State) : (startCall s).resValid = false := rfl
@[simp] theorem startCall_cfg (s : State) : (startCall s).cfg = s.cfg := rfl
@[simp] theorem startCall_pending (s : State) : (startCall s).pending = s.pending := rfl

/-! Presenting a command changes the host's commands alone. -/

@[simp] theorem present_fault (c : Command) (s : State) : (present c s).fault = s.fault := rfl
@[simp] theorem present_cause (c : Command) (s : State) : (present c s).cause = s.cause := rfl
@[simp] theorem present_dout (c : Command) (s : State) : (present c s).dout = s.dout := rfl
@[simp] theorem present_wmem (c : Command) (s : State) : (present c s).wmem = s.wmem := rfl
@[simp] theorem present_wpos (c : Command) (s : State) : (present c s).wpos = s.wpos := rfl
@[simp] theorem present_rmem (c : Command) (s : State) : (present c s).rmem = s.rmem := rfl
@[simp] theorem present_rlen (c : Command) (s : State) : (present c s).rlen = s.rlen := rfl
@[simp] theorem present_rpos (c : Command) (s : State) : (present c s).rpos = s.rpos := rfl
@[simp] theorem present_prevCp (c : Command) (s : State) : (present c s).prevCp = s.prevCp := rfl
@[simp] theorem present_prevValid (c : Command) (s : State) : (present c s).prevValid = s.prevValid := rfl
@[simp] theorem present_bestLen (c : Command) (s : State) : (present c s).bestLen = s.bestLen := rfl
@[simp] theorem present_bestMethod (c : Command) (s : State) : (present c s).bestMethod = s.bestMethod := rfl
@[simp] theorem present_selValid (c : Command) (s : State) : (present c s).selValid = s.selValid := rfl
@[simp] theorem present_resMethod (c : Command) (s : State) : (present c s).resMethod = s.resMethod := rfl
@[simp] theorem present_resSuccess (c : Command) (s : State) : (present c s).resSuccess = s.resSuccess := rfl
@[simp] theorem present_resValid (c : Command) (s : State) : (present c s).resValid = s.resValid := rfl
@[simp] theorem present_cfg (c : Command) (s : State) : (present c s).cfg = s.cfg := rfl
@[simp] theorem present_pending (c : Command) (s : State) : (present c s).pending = c :: s.pending.tail := rfl

/-! A fault changes STATUS alone. -/

@[simp] theorem faulted_fault (c : Cause) (s : State) : (Safety.faulted c s).fault = true := rfl
@[simp] theorem faulted_cause (c : Cause) (s : State) : (Safety.faulted c s).cause = c := rfl
@[simp] theorem faulted_dout (c : Cause) (s : State) : (Safety.faulted c s).dout = s.dout := rfl
@[simp] theorem faulted_wmem (c : Cause) (s : State) : (Safety.faulted c s).wmem = s.wmem := rfl
@[simp] theorem faulted_wpos (c : Cause) (s : State) : (Safety.faulted c s).wpos = s.wpos := rfl
@[simp] theorem faulted_rmem (c : Cause) (s : State) : (Safety.faulted c s).rmem = s.rmem := rfl
@[simp] theorem faulted_rlen (c : Cause) (s : State) : (Safety.faulted c s).rlen = s.rlen := rfl
@[simp] theorem faulted_rpos (c : Cause) (s : State) : (Safety.faulted c s).rpos = s.rpos := rfl
@[simp] theorem faulted_prevCp (c : Cause) (s : State) : (Safety.faulted c s).prevCp = s.prevCp := rfl
@[simp] theorem faulted_prevValid (c : Cause) (s : State) : (Safety.faulted c s).prevValid = s.prevValid := rfl
@[simp] theorem faulted_bestLen (c : Cause) (s : State) : (Safety.faulted c s).bestLen = s.bestLen := rfl
@[simp] theorem faulted_bestMethod (c : Cause) (s : State) : (Safety.faulted c s).bestMethod = s.bestMethod := rfl
@[simp] theorem faulted_selValid (c : Cause) (s : State) : (Safety.faulted c s).selValid = s.selValid := rfl
@[simp] theorem faulted_resMethod (c : Cause) (s : State) : (Safety.faulted c s).resMethod = s.resMethod := rfl
@[simp] theorem faulted_resSuccess (c : Cause) (s : State) : (Safety.faulted c s).resSuccess = s.resSuccess := rfl
@[simp] theorem faulted_resValid (c : Cause) (s : State) : (Safety.faulted c s).resValid = s.resValid := rfl
@[simp] theorem faulted_cfg (c : Cause) (s : State) : (Safety.faulted c s).cfg = s.cfg := rfl
@[simp] theorem faulted_pending (c : Cause) (s : State) : (Safety.faulted c s).pending = s.pending := rfl

/-- A live SSBC that raises a fault records it. -/
theorem raise_of_live (c : Cause) (s : State) (h : s.fault = false) : raise c s = Safety.faulted c s := by
  simp [raise, h, Safety.faulted]

/-- A faulted SSBC keeps its first cause. -/
theorem raise_of_faulted (c : Cause) (s : State) (h : s.fault = true) : raise c s = s := by
  simp [raise, h]

end Sys2Proof.Machine
end

