-- ==== Sys2Proof/Laws/Bits.lean ====
section
/-! SUPPORT. The stream bits of a value, an append bit by bit, and a read as the value of its bits. -/

namespace Sys2Proof.Machine

open Sys2Proof.Safety

@[simp] theorem lowBits_length (v n : Nat) : (lowBits v n).length = n := by simp [lowBits]

theorem lowBits_getD (v n i : Nat) (h : i < n) : (lowBits v n).getD i false = v.testBit i := by
  simp [lowBits, List.getD, h]

theorem lowBits_getElem? (v n i : Nat) : (lowBits v n)[i]? = if i < n then some (v.testBit i) else none := by
  by_cases h : i < n <;> simp [lowBits, h]

/-- Two values with the same low n bits are congruent modulo 2^n. -/
theorem lowBits_inj {v w n : Nat} (h : lowBits v n = lowBits w n) : v % 2 ^ n = w % 2 ^ n := by
  apply Nat.eq_of_testBit_eq
  intro i
  rw [Nat.testBit_mod_two_pow, Nat.testBit_mod_two_pow]
  by_cases hi : i < n
  · have := congrArg (fun l => l.getD i false) h
    simp only [lowBits_getD _ _ _ hi] at this
    simp [hi, this]
  · simp [hi]

/-- The value of n bits of the view is below 2^n. -/
theorem viewBits_lt (s : State) (p n : Nat) : viewBits s p n < 2 ^ n := by
  induction n with
  | zero => simp [viewBits]
  | succ n ih =>
    rw [viewBits, Nat.pow_succ]
    split <;> omega

/-- Bit i of a read is the i-th bit of the view from its position on (20_memory.md R78). -/
theorem viewBits_testBit (s : State) (p n i : Nat) :
    (viewBits s p n).testBit i = (decide (i < n) && viewBit s (p + i)) := by
  induction n with
  | zero => simp [viewBits]
  | succ n ih =>
    have hlt := viewBits_lt s p n
    rw [viewBits]
    by_cases hb : viewBit s (p + n) = true
    · rw [if_pos hb, Nat.add_comm, ]
      by_cases hi : i = n
      · subst hi
        rw [Nat.testBit_two_pow_add_eq, Nat.testBit_lt_two_pow hlt]
        simp [hb]
      · rcases Nat.lt_or_gt_of_ne hi with hlt' | hgt
        · rw [Nat.testBit_two_pow_add_gt hlt', ih]
          simp [hlt', Nat.lt_succ_of_lt hlt']
        · have h1 : 2 ^ n + viewBits s p n < 2 ^ i := by
            have : 2 ^ (n + 1) ≤ 2 ^ i := Nat.pow_le_pow_right (by omega) hgt
            rw [Nat.pow_succ] at this; omega
          rw [Nat.testBit_lt_two_pow h1]
          have : ¬ i < n + 1 := by omega
          simp [this]
    · rw [if_neg hb, Nat.add_zero, ih]
      by_cases hi : i = n
      · subst hi; simp [hb]
      · by_cases h2 : i < n
        · simp [h2, Nat.lt_succ_of_lt h2]
        · have : ¬ i < n + 1 := by omega
          simp [h2, this]

/-- What a field of the view reads as, when its bits are known. -/
theorem viewBits_of_bits (s : State) (p n v : Nat) (h : ∀ i, i < n → viewBit s (p + i) = v.testBit i) :
    viewBits s p n = v % 2 ^ n := by
  apply Nat.eq_of_testBit_eq
  intro i
  rw [viewBits_testBit, Nat.testBit_mod_two_pow]
  by_cases hi : i < n
  · simp [hi, h i hi]
  · simp [hi]

/-- A view that holds a then b holds a, and b after it. -/
theorem viewHolds_append (s : State) (p : Nat) (a b : List Bool) :
    viewHolds s p (a ++ b) ↔ viewHolds s p a ∧ viewHolds s (p + a.length) b := by
  constructor
  · rintro ⟨h1, h2⟩
    rw [List.length_append] at h1
    refine ⟨⟨by omega, fun i hi => ?_⟩, ⟨by omega, fun i hi => ?_⟩⟩
    · rw [h2 i (by rw [List.length_append]; omega)]
      simp [List.getD, List.getElem?_append_left hi]
    · rw [Nat.add_assoc, h2 (a.length + i) (by rw [List.length_append]; omega)]
      simp [List.getD, List.getElem?_append_right]
  · rintro ⟨⟨h1, h2⟩, h3, h4⟩
    refine ⟨by rw [List.length_append]; omega, fun i hi => ?_⟩
    rw [List.length_append] at hi
    by_cases h : i < a.length
    · rw [h2 i h]; simp [List.getD, List.getElem?_append_left h]
    · have := h4 (i - a.length) (by omega)
      rw [show p + a.length + (i - a.length) = p + i by omega] at this
      rw [this]; simp [List.getD, List.getElem?_append_right (Nat.le_of_not_lt h)]

/-- A view that holds the low n bits of v reads them back. -/
theorem viewBits_of_viewHolds {s : State} {p v n : Nat} (h : viewHolds s p (lowBits v n)) :
    viewBits s p n = v % 2 ^ n :=
  viewBits_of_bits s p n v fun i hi => by rw [h.2 i (by simpa using hi), lowBits_getD _ _ _ hi]

/-! ### Appends -/

/-- The bits of a list appended one by one. -/
def appendList : List Bool → State → State
  | [], s => s
  | b :: bs, s => appendList bs (appendBit b s)

theorem appendList_append (a b : List Bool) (s : State) : appendList (a ++ b) s = appendList b (appendList a s) := by
  induction a generalizing s with
  | nil => rfl
  | cons x a ih => exact ih _

theorem appendBits_eq (v n : Nat) (s : State) : appendBits v n s = appendList (lowBits v n) s := by
  induction n with
  | zero => simp [appendBits, lowBits, appendList]
  | succ n ih =>
    rw [appendBits, ih, show lowBits v (n + 1) = lowBits v n ++ [v.testBit n] by simp [lowBits, List.range_succ],
      appendList_append]
    rfl

/-- The stream bits of a list of fields. -/
def fieldBits : List Field → List Bool
  | [] => []
  | f :: fs => lowBits f.value f.width ++ fieldBits fs

theorem fieldBits_length (fs : List Field) : (fieldBits fs).length = totalWidth fs := by
  induction fs with
  | nil => rfl
  | cons f fs ih => simp [fieldBits, totalWidth, ih]

theorem appendFields_eq (fs : List Field) (s : State) : appendFields fs s = appendList (fieldBits fs) s := by
  induction fs generalizing s with
  | nil => rfl
  | cons f fs ih => rw [appendFields, fieldBits, appendList_append, ih, appendBits_eq]

/-- Appending a list of bits changes WMEM and WPOS alone. -/
theorem appendList_frame (bs : List Bool) (s : State) :
    appendList bs s = { s with wmem := (appendList bs s).wmem, wpos := s.wpos + bs.length } := by
  induction bs generalizing s with
  | nil => rfl
  | cons b bs ih =>
    rw [appendList, ih (appendBit b s)]
    simp [appendBit]
    omega

theorem appendList_wf (bs : List Bool) (s : State) (h : s.wmem.wf) : (appendList bs s).wmem.wf := by
  induction bs generalizing s with
  | nil => exact h
  | cons b bs ih => exact ih _ (Memory.setBit_wf _ h _ _)

theorem appendList_within (bs : List Bool) (s : State) (cap : Nat) (h : s.wmem.within cap)
    (room : s.wpos + bs.length ≤ 8 * cap) : (appendList bs s).wmem.within cap := by
  induction bs generalizing s with
  | nil => exact h
  | cons b bs ih =>
    rw [List.length_cons] at room
    refine ih (appendBit b s) (Memory.within_write _ _ h _ _ (by omega)) ?_
    rw [appendBit_wpos]; omega

/-- Position by position, what an append leaves in the writer. -/
theorem appendList_bit (bs : List Bool) (s : State) (h : s.wmem.wf) (p : Nat) :
    (appendList bs s).wmem.bit p =
      if s.wpos ≤ p ∧ p < s.wpos + bs.length then bs.getD (p - s.wpos) false else s.wmem.bit p := by
  induction bs generalizing s with
  | nil =>
    rw [if_neg]
    · rfl
    · rw [List.length_nil]; omega
  | cons b bs ih =>
    rw [appendList, ih (appendBit b s) (Memory.setBit_wf _ h _ _), appendBit_wpos, appendBit_wmem,
      Memory.bit_setBit _ h, List.length_cons]
    by_cases h1 : p = s.wpos
    · subst h1
      rw [if_neg (by omega), if_pos rfl, if_pos (by omega)]
      simp
    · by_cases h2 : s.wpos ≤ p ∧ p < s.wpos + (bs.length + 1)
      · rw [if_pos (by omega), if_pos h2]
        obtain ⟨k, hk⟩ : ∃ k, p - s.wpos = k + 1 := ⟨p - s.wpos - 1, by omega⟩
        rw [hk, show p - (s.wpos + 1) = k by omega]
        simp
      · rw [if_neg (by omega), if_neg h1, if_neg h2]

/-- Byte by byte, what an append leaves alone. -/
theorem appendList_read (bs : List Bool) (s : State) (h : s.wmem.wf) (a : Nat)
    (ha : a < s.wpos / 8 ∨ (s.wpos + bs.length + 7) / 8 ≤ a) : (appendList bs s).wmem.read a = s.wmem.read a := by
  induction bs generalizing s with
  | nil => rfl
  | cons b bs ih =>
    rw [List.length_cons] at ha
    rw [appendList, ih (appendBit b s) (Memory.setBit_wf _ h _ _) (by rw [appendBit_wpos]; omega), appendBit_wmem,
      Memory.read_setBit_of_ne _ h _ _ _ (by omega)]

/-- An append does what the rule of AppendBits says (20_memory.md R74). -/
theorem appendFields_appended (fs : List Field) (s : State) (h : s.wmem.wf) :
    Appended s (appendFields fs s) (fieldBits fs) := by
  rw [appendFields_eq]
  exact ⟨appendList_frame _ _, fun p => appendList_bit _ _ h p, fun a ha => appendList_read _ _ h a ha⟩

/-- An append either completes with its bits in place, or raises WRITE_OVERFLOW before any bit (20_memory.md R75). -/
theorem append_cases (fs : List Field) (s : State) :
    (s.wpos + totalWidth fs ≤ 8 * s.cfg.wcap ∧ append fs s = .ok (appendFields fs s)) ∨
    (8 * s.cfg.wcap < s.wpos + totalWidth fs ∧ append fs s = .error .writeOverflow) := by
  unfold append
  by_cases h : 8 * s.cfg.wcap < s.wpos + totalWidth fs
  · exact .inr ⟨h, if_pos h⟩
  · exact .inl ⟨by omega, if_neg h⟩

end Sys2Proof.Machine
end

