-- ==== Sys2Proof/Laws/Commands.lean ====
section
/-! SUPPORT. What a command body, a read of the view and a whole command can do, said once: the lemmas that claims cite
instead of unfolding the meanings. -/

namespace Sys2Proof.Machine

open Sys2Proof.Safety

/-- A command that does not execute while faulted is dropped (60_exceptions.md R254). -/
theorem runCommand_of_faulted (s : State) (body : Except Cause State) (h : s.fault = true) :
    runCommand s body = .next s := by simp [runCommand, h]

theorem runCommand_ok {s t : State} (h : live s) : runCommand s (.ok t) = .next t := by simp [runCommand, h]

theorem runCommand_error {s : State} {c : Cause} (h : live s) : runCommand s (.error c) = .next (faulted c s) := by
  simp [runCommand, h, raise_of_live]

/-- What a command body can lead to, while live. -/
theorem runCommand_cases {s t : State} {body : Except Cause State} (hl : live s) (h : runCommand s body = .next t) :
    body = .ok t ∨ ∃ c, body = .error c ∧ t = faulted c s := by
  cases body with
  | ok u => rw [runCommand_ok hl] at h; injection h with h; exact .inl (by rw [h])
  | error c => rw [runCommand_error hl] at h; injection h with h; exact .inr ⟨c, rfl, h.symm⟩

/-! ### Reads -/

theorem withBits_of_room {α : Type} {s : State} {p n : Nat} {rest : Nat → Nat → Except Cause α}
    (h : p + n ≤ 8 * s.rlen) : withBits s p n rest = rest (viewBits s p n) (p + n) := by
  rw [withBits, if_neg (by omega)]

theorem withBits_of_overrun {α : Type} {s : State} {p n : Nat} {rest : Nat → Nat → Except Cause α}
    (h : 8 * s.rlen < p + n) : withBits s p n rest = .error .readOverrun := by
  rw [withBits, if_pos h]

/-- A read that completes had the bits, and the rest of the command completed with them. -/
theorem withBits_ok {α : Type} {s : State} {p n : Nat} {rest : Nat → Nat → Except Cause α} {a : α}
    (h : withBits s p n rest = .ok a) : p + n ≤ 8 * s.rlen ∧ rest (viewBits s p n) (p + n) = .ok a := by
  unfold withBits at h
  split at h
  · cases h
  · exact ⟨by omega, h⟩

/-- A read that faults overran the view, or the rest of the command faulted. -/
theorem withBits_error {α : Type} {s : State} {p n : Nat} {rest : Nat → Nat → Except Cause α} {c : Cause}
    (h : withBits s p n rest = .error c) :
    c = .readOverrun ∨ (p + n ≤ 8 * s.rlen ∧ rest (viewBits s p n) (p + n) = .error c) := by
  unfold withBits at h
  split at h
  · injection h with h; exact .inl h.symm
  · exact .inr ⟨by omega, h⟩

/-- A field of the view whose bits are known is what the rest of the command gets. -/
theorem withBits_of_viewHolds {α : Type} {s : State} {p n v : Nat} {rest : Nat → Nat → Except Cause α}
    (h : viewHolds s p (lowBits v n)) (hv : v < 2 ^ n) : withBits s p n rest = rest v (p + n) := by
  rw [withBits_of_room (by simpa using h.1), viewBits_of_viewHolds h, Nat.mod_eq_of_lt hv]

/-- A table walk that completes has read at least one bit and stays inside the view (43_prefix_code.md R183). -/
theorem prefixWalk_ok {N : Nat} {T : Vector PrefixEntry N} {s : State} {r p acc k sym q : Nat}
    (h : prefixWalk T s r p acc k = .ok (sym, q)) : p < q ∧ q ≤ p + r := by
  induction r generalizing p acc k with
  | zero => simp [prefixWalk] at h
  | succ r ih =>
    simp only [prefixWalk] at h
    generalize acc + (if viewBit s p then 2 ^ k else 0) = acc' at h
    split at h
    · injection h with h; injection h with h1 h2; omega
    · split at h
      · have := ih h; omega
      · cases h

/-- The faults of a table walk. -/
theorem prefixWalk_error {N : Nat} {T : Vector PrefixEntry N} {s : State} {r p acc k : Nat} {c : Cause}
    (h : prefixWalk T s r p acc k = .error c) : c = .readOverrun ∨ c = .badCode := by
  induction r generalizing p acc k with
  | zero => simp only [prefixWalk] at h; injection h with h; exact .inl h.symm
  | succ r ih =>
    simp only [prefixWalk] at h
    generalize acc + (if viewBit s p then 2 ^ k else 0) = acc' at h
    split at h
    · cases h
    · split at h
      · exact ih h
      · injection h with h; exact .inr h.symm

/-- An absolute code that decodes stays inside the view (44_codepoint.md R202). -/
theorem absRead_ok {s : State} {c p : Nat} (h : absRead s = .ok (c, p)) : s.rpos ≤ p ∧ p ≤ 8 * s.rlen := by
  unfold absRead at h
  obtain ⟨h1, h⟩ := withBits_ok h
  split at h
  · obtain ⟨h2, h⟩ := withBits_ok h
    split at h
    · injection h with h; injection h with _ h; omega
    · cases h
  · obtain ⟨h2, h⟩ := withBits_ok h
    split at h <;> obtain ⟨h3, h⟩ := withBits_ok h <;> injection h with h <;> injection h with _ h <;> omega

theorem absRead_error {s : State} {c : Cause} (h : absRead s = .error c) : c = .readOverrun ∨ c = .badCodepoint := by
  unfold absRead at h
  rcases withBits_error h with h | ⟨-, h⟩
  · exact .inl h
  · split at h
    · rcases withBits_error h with h | ⟨-, h⟩
      · exact .inl h
      · split at h
        · cases h
        · injection h with h; exact .inr h.symm
    · rcases withBits_error h with h | ⟨-, h⟩
      · exact .inl h
      · split at h <;> rcases withBits_error h with h | ⟨-, h⟩ <;> first | exact .inl h | cases h

/-- A delta-mode symbol that decodes stays inside the view, and a decoded delta had a previous codepoint and is a scalar
value (44_codepoint.md R209). -/
theorem deltaRead_ok {s : State} {k : Kind} {c p : Nat} (h : deltaRead s = .ok (k, c, p)) :
    s.rpos ≤ p ∧ p ≤ 8 * s.rlen ∧ (k = .delta → s.prevValid = true ∧ scalar c) := by
  unfold deltaRead at h
  obtain ⟨h1, h⟩ := withBits_ok h
  split at h
  · injection h with h; injection h with ha h; injection h with hb h
    subst ha; exact ⟨by omega, by omega, by simp⟩
  · split at h
    · obtain ⟨h2, h⟩ := withBits_ok h
      injection h with h; injection h with ha h; injection h with hb h
      subst ha; exact ⟨by omega, by omega, by simp⟩
    · split at h
      · rename_i hv
        obtain ⟨h2, h⟩ := withBits_ok h
        dsimp only at h
        generalize (if 3 ≤ viewBits s s.rpos 3 then _ else _ : Int) = z at h
        split at h
        · rename_i hc
          injection h with h; injection h with ha h; injection h with hb h
          subst ha; exact ⟨by omega, by omega, fun _ => ⟨hv, hb ▸ hc.2⟩⟩
        · cases h
      · cases h

theorem deltaRead_error {s : State} {c : Cause} (h : deltaRead s = .error c) :
    c = .readOverrun ∨ c = .badCodepoint ∨ c = .noPrev := by
  unfold deltaRead at h
  rcases withBits_error h with h | ⟨-, h⟩
  · exact .inl h
  · split at h
    · cases h
    · split at h
      · rcases withBits_error h with h | ⟨-, h⟩
        · exact .inl h
        · cases h
      · split at h
        · rcases withBits_error h with h | ⟨-, h⟩
          · exact .inl h
          · dsimp only at h
            generalize (if 3 ≤ viewBits s s.rpos 3 then _ else _ : Int) = z at h
            split at h
            · cases h
            · injection h with h; exact .inr (.inl h.symm)
        · injection h with h; exact .inr (.inr h.symm)

/-! ### What a live command does when it completes -/

/-- The effects of a command that completes. PREV is given by its value cp and valid bit v after the command. -/
inductive Effect (i : Instr) (s : State) : State → Prop where
  /-- nothing changes -/
  | same (h : i = .nop ∨ ∃ m l, i = .soffer m l) : Effect i s s
  /-- a new call starts -/
  | started (h : i = .init) : Effect i s (startCall s)
  /-- a report in DOUT -/
  | reported (w : Word) (h : writesDout i = true) (hr : readsView i = false) (hs : selects i = false) :
      Effect i s (setDout w s)
  /-- the writer is cleared -/
  | cleared (h : i = .wclr) : Effect i s (clearWriter s)
  /-- bits are appended -/
  | appended (bs : List Bool) (cp : Codepoint) (v : Bool) (h : appends i = true)
      (room : s.wpos + bs.length ≤ 8 * s.cfg.wcap)
      (prev : (cp = s.prevCp ∧ v = s.prevValid) ∨ (writesPrev i = true ∧ v = true ∧ scalar cp.toNat)) :
      Effect i s { appendList bs s with prevCp := cp, prevValid := v }
  /-- a view is bound -/
  | bound (l : Word) (h : i = .rbind l) (range : l.toNat ≤ s.cfg.rcap) : Effect i s { s with rlen := l.toNat, rpos := 0 }
  /-- a byte is loaded -/
  | loaded (k : BitVec 24) (b : Byte) (h : i = .rldb k b) (range : k.toNat < s.cfg.rcap) :
      Effect i s { s with rmem := s.rmem.write k.toNat b }
  /-- bits of the view are consumed -/
  | consumed (p : Nat) (w : Word) (cp : Codepoint) (v : Bool) (h : readsView i = true)
      (range : s.rpos ≤ p ∧ p ≤ 8 * s.rlen)
      (prev : (cp = s.prevCp ∧ v = s.prevValid) ∨ (writesPrev i = true ∧ v = true ∧ scalar cp.toNat)) :
      Effect i s { s with rpos := p, dout := w, prevCp := cp, prevValid := v }
  /-- a selection starts -/
  | selecting (t : Word) (h : i = .sinit t) : Effect i s (startSelection t s)
  /-- a candidate is kept -/
  | offered (m : BitVec 8) (l : Word) (method : Method) (h : i = .soffer m l) (hm : candidateMethod m = some method)
      (valid : s.selValid = true) (less : l.toNat < s.bestLen.toNat) :
      Effect i s { s with bestLen := l, bestMethod := method }
  /-- a selection is finished -/
  | finished (u : Word) (h : i = .sfinal u) (valid : s.selValid = true) : Effect i s (finishSelection u s)

theorem toNat_ofNat21 {c : Nat} (h : scalar c) : (BitVec.ofNat 21 c).toNat = c := by
  rw [BitVec.toNat_ofNat, Nat.mod_eq_of_lt]
  have := h.1
  omega

theorem readBits_ok {n : Nat} {s t : State} (h : readBits n s = .ok t) :
    s.rpos + n ≤ 8 * s.rlen ∧ t = { s with rpos := s.rpos + n, dout := BitVec.ofNat 32 (viewBits s s.rpos n) } := by
  obtain ⟨h1, h⟩ := withBits_ok h
  injection h with h
  exact ⟨h1, h.symm⟩

theorem readBits_error {n : Nat} {s : State} {c : Cause} (h : readBits n s = .error c) : c = .readOverrun := by
  rcases withBits_error h with h | ⟨-, h⟩
  · exact h
  · cases h

theorem append_ok {fs : List Field} {s t : State} (h : append fs s = .ok t) :
    s.wpos + (fieldBits fs).length ≤ 8 * s.cfg.wcap ∧ t = appendList (fieldBits fs) s := by
  rcases append_cases fs s with ⟨h1, h2⟩ | ⟨-, h2⟩ <;> rw [h2] at h
  · injection h with h
    exact ⟨by rw [fieldBits_length]; exact h1, by rw [← h, appendFields_eq]⟩
  · cases h

theorem append_error {fs : List Field} {s : State} {c : Cause} (h : append fs s = .error c) : c = .writeOverflow := by
  rcases append_cases fs s with ⟨-, h2⟩ | ⟨-, h2⟩ <;> rw [h2] at h
  · cases h
  · injection h with h; exact h.symm

/-- A plain append is an effect of every command that appends. -/
theorem Effect.of_append {i : Instr} {fs : List Field} {s t : State} (hi : appends i = true) (h : append fs s = .ok t) :
    Effect i s t := by
  obtain ⟨h1, h2⟩ := append_ok h
  have e := Effect.appended (i := i) (s := s) (fieldBits fs) s.prevCp s.prevValid hi h1 (.inl ⟨rfl, rfl⟩)
  have h3 : { appendList (fieldBits fs) s with prevCp := s.prevCp, prevValid := s.prevValid } = t := by
    rw [h2, appendList_frame]
  exact h3 ▸ e

theorem Effect.of_readBits {i : Instr} {n : Nat} {s t : State} (hi : readsView i = true) (h : readBits n s = .ok t) :
    Effect i s t := by
  obtain ⟨h1, h2⟩ := readBits_ok h
  have e := Effect.consumed (i := i) (s := s) (s.rpos + n) (BitVec.ofNat 32 (viewBits s s.rpos n)) s.prevCp s.prevValid hi
    ⟨by omega, h1⟩ (.inl ⟨rfl, rfl⟩)
  rw [h2]; exact e

theorem Effect.of_prefixDecode {N : Nat} {T : Vector PrefixEntry N} {i : Instr} {s t : State} (hi : readsView i = true)
    (h : prefixDecode T s = .ok t) : Effect i s t := by
  unfold prefixDecode at h
  split at h
  · rename_i sym p hw
    injection h with h
    have hp := prefixWalk_ok hw
    rw [remaining] at hp
    have e := Effect.consumed (i := i) (s := s) p (BitVec.ofNat 32 sym) s.prevCp s.prevValid hi
      ⟨by omega, by omega⟩ (.inl ⟨rfl, rfl⟩)
    rw [← h]; exact e
  · cases h

theorem prefixDecode_error {N : Nat} {T : Vector PrefixEntry N} {s : State} {c : Cause} (h : prefixDecode T s = .error c) :
    c = .readOverrun ∨ c = .badCode := by
  unfold prefixDecode at h
  split at h
  · cases h
  · rename_i hw; injection h with h; exact prefixWalk_error (h ▸ hw)

theorem prefixEncode_error {N : Nat} {T : Vector PrefixEntry N} {sym : Word} {s : State} {c : Cause}
    (h : prefixEncode T sym s = .error c) : c = .invalidState ∨ c = .writeOverflow := by
  unfold prefixEncode at h
  split at h
  · injection h with h; exact .inl h.symm
  · exact .inr (append_error h)

theorem Effect.of_prefixEncode {N : Nat} {T : Vector PrefixEntry N} {sym : Word} {i : Instr} {s t : State}
    (hi : appends i = true) (h : prefixEncode T sym s = .ok t) : Effect i s t := by
  unfold prefixEncode at h
  split at h
  · cases h
  · exact .of_append hi h

/-- The one inversion lemma of `exec`, while live: a command raises a fault that the spec lists for it, or completes with one
of the effects above. -/
theorem exec_cases {i : Instr} {s t : State} (hl : live s) (h : exec i s = .next t) :
    (∃ c ∈ mayRaise i, t = faulted c s) ∨ Effect i s t := by
  cases i with
  | nop => injection h with h; subst h; exact .inr (.same (.inl rfl))
  | init => injection h with h; subst h; exact .inr (.started rfl)
  | rdreg r =>
    simp only [exec, execRdreg] at h
    split at h <;> injection h with h <;> subst h
    · exact .inr (.reported _ rfl rfl rfl)
    · exact .inl ⟨.illegalCommand, by simp [mayRaise], raise_of_live _ _ hl⟩
  | wclr =>
    simp only [exec, execWclr] at h
    rcases runCommand_cases hl h with h | ⟨c, h, -⟩
    · injection h with h; subst h; exact .inr (.cleared rfl)
    · cases h
  | wbit b =>
    rcases runCommand_cases hl h with h | ⟨c, h, ht⟩
    · exact .inr (.of_append rfl h)
    · exact .inl ⟨c, by simp [mayRaise, append_error h], ht⟩
  | wbits n v =>
    rcases runCommand_cases hl h with h | ⟨c, h, ht⟩ <;> split at h
    · exact .inr (.of_append rfl h)
    · cases h
    · exact .inl ⟨c, by simp [mayRaise, append_error h], ht⟩
    · injection h with h; exact .inl ⟨c, by simp [mayRaise, ← h], ht⟩
  | wbyte v =>
    rcases runCommand_cases hl h with h | ⟨c, h, ht⟩
    · exact .inr (.of_append rfl h)
    · exact .inl ⟨c, by simp [mayRaise, append_error h], ht⟩
  | wlen | wpad | wblen | rrem =>
    simp only [exec, execWlen, execWpad, execWblen, execRrem] at h
    rcases runCommand_cases hl h with h | ⟨c, h, -⟩
    · injection h with h; subst h; exact .inr (.reported _ rfl rfl rfl)
    · cases h
  | hclass l b =>
    simp only [exec, execHclass] at h
    rcases runCommand_cases hl h with h | ⟨c, h, -⟩
    · injection h with h; subst h; exact .inr (.reported _ rfl rfl rfl)
    · cases h
  | wrdb k =>
    rcases runCommand_cases hl h with h | ⟨c, h, ht⟩ <;> split at h
    · cases h
    · injection h with h; subst h; exact .inr (.reported _ rfl rfl rfl)
    · injection h with h; exact .inl ⟨c, by simp [mayRaise, ← h], ht⟩
    · cases h
  | rbind l =>
    rcases runCommand_cases hl h with h | ⟨c, h, ht⟩ <;> split at h
    · cases h
    · rename_i hr; injection h with h; subst h; exact .inr (.bound l rfl (by omega))
    · injection h with h; exact .inl ⟨c, by simp [mayRaise, ← h], ht⟩
    · cases h
  | rldb k b =>
    rcases runCommand_cases hl h with h | ⟨c, h, ht⟩ <;> split at h
    · cases h
    · rename_i hr; injection h with h; subst h; exact .inr (.loaded k b rfl (by omega))
    · injection h with h; exact .inl ⟨c, by simp [mayRaise, ← h], ht⟩
    · cases h
  | rbit | rbyte =>
    rcases runCommand_cases hl h with h | ⟨c, h, ht⟩
    · exact .inr (.of_readBits rfl h)
    · exact .inl ⟨c, by simp [mayRaise, readBits_error h], ht⟩
  | rbits n =>
    rcases runCommand_cases hl h with h | ⟨c, h, ht⟩ <;> split at h
    · exact .inr (.of_readBits rfl h)
    · cases h
    · exact .inl ⟨c, by simp [mayRaise, readBits_error h], ht⟩
    · injection h with h; exact .inl ⟨c, by simp [mayRaise, ← h], ht⟩
  | penc28 sym | penc5 sym =>
    rcases runCommand_cases hl h with h | ⟨c, h, ht⟩
    · exact .inr (.of_prefixEncode rfl h)
    · exact .inl ⟨c, by rcases prefixEncode_error h with h | h <;> simp [mayRaise, h], ht⟩
  | pdec28 | pdec5 =>
    rcases runCommand_cases hl h with h | ⟨c, h, ht⟩
    · exact .inr (.of_prefixDecode rfl h)
    · exact .inl ⟨c, by rcases prefixDecode_error h with h | h <;> simp [mayRaise, h], ht⟩
  | caenc cp =>
    rcases runCommand_cases hl h with h | ⟨c, h, ht⟩ <;> unfold absEncode at h <;> split at h
    · rename_i hs
      split at h
      · rename_i u hu
        obtain ⟨h1, h2⟩ := append_ok hu
        injection h with h; subst h; subst h2
        exact .inr (.appended _ _ true rfl h1 (.inr ⟨rfl, rfl, by rw [toNat_ofNat21 hs]; exact hs⟩))
      · cases h
    · cases h
    · split at h
      · cases h
      · rename_i hu; injection h with h; exact .inl ⟨c, by simp [mayRaise, ← h, append_error hu], ht⟩
    · injection h with h; exact .inl ⟨c, by simp [mayRaise, ← h], ht⟩
  | cadec =>
    rcases runCommand_cases hl h with h | ⟨c, h, ht⟩ <;> unfold absDecode at h <;> split at h
    · rename_i hr
      split at h
      · rename_i hs
        injection h with h; subst h
        exact .inr (.consumed _ _ _ true rfl (absRead_ok hr) (.inr ⟨rfl, rfl, by rw [toNat_ofNat21 hs]; exact hs⟩))
      · cases h
    · cases h
    · split at h
      · cases h
      · injection h with h; exact .inl ⟨c, by simp [mayRaise, ← h], ht⟩
    · rename_i hr; injection h with h
      exact .inl ⟨c, by rcases absRead_error hr with e | e <;> simp [mayRaise, ← h, e], ht⟩
  | cdenc cp =>
    rcases runCommand_cases hl h with h | ⟨c, h, ht⟩ <;> unfold deltaEncode at h <;> split at h
    · rename_i hs
      split at h
      · rename_i hv
        split at h
        · rename_i u hu
          obtain ⟨h1, h2⟩ := append_ok hu
          injection h with h; subst h; subst h2
          have e := Effect.appended (i := .cdenc cp) (s := s) _ (BitVec.ofNat 21 cp.toNat) true rfl h1
            (.inr ⟨rfl, rfl, by rw [toNat_ofNat21 hs]; exact hs⟩)
          rw [appendList_frame] at e ⊢
          rw [← hv] at e
          exact .inr e
        · cases h
      · cases h
    · cases h
    · split at h
      · split at h
        · cases h
        · rename_i hu; injection h with h; exact .inl ⟨c, by simp [mayRaise, ← h, append_error hu], ht⟩
      · injection h with h; exact .inl ⟨c, by simp [mayRaise, ← h], ht⟩
    · injection h with h; exact .inl ⟨c, by simp [mayRaise, ← h], ht⟩
  | cdlit j =>
    rcases runCommand_cases hl h with h | ⟨c, h, ht⟩ <;> split at h
    · cases h
    · exact .inr (.of_append rfl h)
    · injection h with h; exact .inl ⟨c, by simp [mayRaise, ← h], ht⟩
    · exact .inl ⟨c, by simp [mayRaise, append_error h], ht⟩
  | cdleave =>
    rcases runCommand_cases hl h with h | ⟨c, h, ht⟩
    · exact .inr (.of_append rfl h)
    · exact .inl ⟨c, by simp [mayRaise, append_error h], ht⟩
  | cddec =>
    rcases runCommand_cases hl h with h | ⟨c, h, ht⟩ <;> unfold deltaDecode at h <;> split at h
    · rename_i k cp p hr
      injection h with h; subst h
      obtain ⟨h1, h2, h3⟩ := deltaRead_ok hr
      cases k with
      | delta =>
        have e := Effect.consumed (i := .cddec) (s := s) p (deltaWord .delta (BitVec.ofNat 21 cp)) (BitVec.ofNat 21 cp) true
          rfl ⟨h1, h2⟩ (.inr ⟨rfl, rfl, by rw [toNat_ofNat21 (h3 rfl).2]; exact (h3 rfl).2⟩)
        rw [← (h3 rfl).1] at e
        exact .inr e
      | literal => exact .inr (.consumed _ _ _ _ rfl ⟨h1, h2⟩ (.inl ⟨rfl, rfl⟩))
      | leave => exact .inr (.consumed _ _ _ _ rfl ⟨h1, h2⟩ (.inl ⟨rfl, rfl⟩))
    · cases h
    · cases h
    · rename_i hr; injection h with h
      exact .inl ⟨c, by rcases deltaRead_error hr with e | e | e <;> simp [mayRaise, ← h, e], ht⟩
  | sinit t =>
    simp only [exec, execSinit] at h
    rcases runCommand_cases hl h with h | ⟨c, h, -⟩
    · injection h with h; subst h; exact .inr (.selecting _ rfl)
    · cases h
  | soffer m l =>
    rcases runCommand_cases hl h with h | ⟨c, h, ht⟩ <;> split at h
    · cases h
    · rename_i method hm
      split at h
      · rename_i hv
        injection h with h; subst h
        unfold offer
        split
        · exact .inr (.offered m l method rfl hm hv ‹_›)
        · exact .inr (.same (.inr ⟨_, _, rfl⟩))
      · cases h
    · injection h with h; exact .inl ⟨c, by simp [mayRaise, ← h], ht⟩
    · split at h
      · cases h
      · injection h with h; exact .inl ⟨c, by simp [mayRaise, ← h], ht⟩
  | sfinal u =>
    rcases runCommand_cases hl h with h | ⟨c, h, ht⟩ <;> split at h
    · injection h with h; subst h; exact .inr (.finished u rfl ‹_›)
    · cases h
    · cases h
    · injection h with h; exact .inl ⟨c, by simp [mayRaise, ← h], ht⟩

/-- While faulted, every command but INIT and RDREG changes nothing (60_exceptions.md R254). -/
theorem exec_of_faulted {i : Instr} {s : State} (hf : s.fault = true) (hi : i ≠ .init) (hr : ∀ r, i ≠ .rdreg r) :
    exec i s = .next s := by
  cases i <;> first
    | exact absurd rfl hi
    | exact absurd rfl (hr _)
    | rfl
    | exact runCommand_of_faulted _ _ hf
    | simp only [exec, execWclr, execWlen, execWpad, execWblen, execRrem, execSinit, execHclass,
        runCommand_of_faulted _ _ hf]

/-! ### Whole commands -/

/-- A command that does not execute while faulted always answers a next state (60_exceptions.md R251, R254). -/
theorem runCommand_next (s : State) (body : Except Cause State) : ∃ t, runCommand s body = .next t := by
  unfold runCommand
  split
  · exact ⟨_, rfl⟩
  · split <;> exact ⟨_, rfl⟩

/-- An append as a whole command: its bits are in place, or WRITE_OVERFLOW (20_memory.md R74, R75). -/
theorem runCommand_append {s : State} (fs : List Field) (hl : live s) (hw : s.wmem.wf) (bits : List Bool)
    (hb : fieldBits fs = bits) :
    (s.wpos + bits.length ≤ 8 * s.cfg.wcap → ∃ t, runCommand s (append fs s) = .next t ∧ Appended s t bits) ∧
    (8 * s.cfg.wcap < s.wpos + bits.length → runCommand s (append fs s) = .next (faulted .writeOverflow s)) := by
  subst hb
  rw [fieldBits_length]
  rcases append_cases fs s with ⟨h1, h2⟩ | ⟨h1, h2⟩
  · exact ⟨fun _ => ⟨_, by rw [h2, runCommand_ok hl], appendFields_appended _ _ hw⟩, fun h => by omega⟩
  · exact ⟨fun h => by omega, fun _ => by rw [h2, runCommand_error hl]⟩

/-- A read of n bits as a whole command: its value, or READ_OVERRUN (20_memory.md R78). -/
theorem runCommand_readBits {s : State} (n : Nat) (hl : live s) :
    (s.rpos + n ≤ 8 * s.rlen → runCommand s (readBits n s) =
      .next { s with rpos := s.rpos + n, dout := BitVec.ofNat 32 (viewBits s s.rpos n) }) ∧
    (8 * s.rlen < s.rpos + n → runCommand s (readBits n s) = .next (faulted .readOverrun s)) :=
  ⟨fun h => by rw [readBits, withBits_of_room h, runCommand_ok hl],
   fun h => by rw [readBits, withBits_of_overrun h, runCommand_error hl]⟩

/-- No command raises the cause NONE (60_exceptions.md R250). -/
theorem mayRaise_ne_none {i : Instr} {c : Cause} (h : c ∈ mayRaise i) : c ≠ .none := by
  cases i <;> simp [mayRaise] at h <;> aesop

/-- A command that completes leaves the SSBC live. -/
theorem Effect.live {i : Instr} {s t : State} (hl : live s) (e : Effect i s t) : live t := by
  cases e <;> try exact hl
  · rfl
  · rw [appendList_frame]; exact hl

/-- The inversion lemma of `exec` in every state: the live cases, and what a faulted SSBC does (60_exceptions.md R254). -/
theorem exec_all_cases {i : Instr} {s t : State} (h : exec i s = .next t) :
    (live s ∧ ((∃ c ∈ mayRaise i, t = faulted c s) ∨ Effect i s t)) ∨
    (s.fault = true ∧
      ((i = .init ∧ t = startCall s) ∨ (∃ r w, i = .rdreg r ∧ t = setDout w s) ∨ (i ≠ .init ∧ t = s))) := by
  by_cases hl : s.fault = false
  · exact .inl ⟨hl, exec_cases hl h⟩
  · simp only [Bool.not_eq_false] at hl
    refine .inr ⟨hl, ?_⟩
    by_cases hi : i = .init
    · subst hi; injection h with h; exact .inl ⟨rfl, h.symm⟩
    · by_cases hr : ∃ r, i = .rdreg r
      · obtain ⟨r, rfl⟩ := hr
        simp only [exec, execRdreg] at h
        split at h <;> injection h with h <;> subst h
        · exact .inr (.inl ⟨_, _, rfl, rfl⟩)
        · rw [illegalWord, raise_of_faulted _ _ hl]; exact .inr (.inr ⟨hi, rfl⟩)
      · rw [exec_of_faulted hl hi (fun r hh => hr ⟨r, hh⟩)] at h
        injection h with h; exact .inr (.inr ⟨hi, h.symm⟩)

/-- A sequence of commands in two parts. -/
theorem issue_append (a b : List Instr) (s : State) : issue (a ++ b) s =
    match issue a s with
    | .next t => issue b t
    | .fault r => .fault r
    | .refused r => .refused r := by
  induction a generalizing s with
  | nil => rfl
  | cons i a ih =>
    rw [List.cons_append, issue, issue]
    cases exec i s with
    | next t => exact ih t
    | fault => rfl
    | refused => rfl

end Sys2Proof.Machine
end

