-- ==== Sys2Proof/Laws/PrefixCode.lean ====
section
/-! SUPPORT. The table lookups of the prefix-code unit, and the table walk against the codewords. -/

namespace Sys2Proof.Machine

open Sys2Proof.Safety

theorem leafAt_some {N : Nat} {T : Vector PrefixEntry N} {k acc i : Nat} (h : leafAt T k acc = some i) :
    ∃ hi : i < N, T[i].len = k ∧ T[i].code = acc := by
  unfold leafAt at h
  rw [List.findIdx?_eq_some_iff_getElem] at h
  obtain ⟨hi, h1, -⟩ := h
  refine ⟨by simpa using hi, ?_⟩
  simpa using h1

theorem leafAt_none {N : Nat} {T : Vector PrefixEntry N} {k acc : Nat} (h : leafAt T k acc = none) (s : Fin N) :
    ¬ (T[s].len = k ∧ T[s].code = acc) := by
  unfold leafAt at h
  rw [List.findIdx?_eq_none_iff] at h
  have := h T[s] (by simp)
  simpa using this

theorem extendsAt_iff {N : Nat} {T : Vector PrefixEntry N} {k acc : Nat} :
    extendsAt T k acc = true ↔ ∃ s : Fin N, k < T[s].len ∧ T[s].code % 2 ^ k = acc := by
  unfold extendsAt
  rw [List.any_eq_true]
  constructor
  · rintro ⟨x, hx, h⟩
    obtain ⟨i, hi, rfl⟩ := List.getElem_of_mem hx
    refine ⟨⟨i, by simpa using hi⟩, ?_⟩
    simpa using h
  · rintro ⟨s, h1, h2⟩
    exact ⟨T[s], by simp, by simpa using ⟨h1, h2⟩⟩

/-! ### Stream bits and the view -/

/-- One string of stream bits begins another exactly when it is shorter and the values agree on it. -/
theorem lowBits_prefix {v w n m : Nat} : lowBits v n <+: lowBits w m ↔ n ≤ m ∧ v % 2 ^ n = w % 2 ^ n := by
  constructor
  · intro h
    have hl := h.length_le
    simp at hl
    refine ⟨hl, lowBits_inj ?_⟩
    apply List.ext_getElem?
    intro i
    obtain ⟨t, ht⟩ := h
    rw [lowBits_getElem?, lowBits_getElem?]
    by_cases hi : i < n
    · have := congrArg (fun l => l[i]?) ht
      simp only [List.getElem?_append_left (show i < (lowBits v n).length by simpa using hi), lowBits_getElem?] at this
      simpa [hi, Nat.lt_of_lt_of_le hi hl] using this
    · simp [hi]
  · rintro ⟨h1, h2⟩
    refine ⟨(lowBits w m).drop n, ?_⟩
    apply List.ext_getElem?
    intro i
    by_cases hi : i < n
    · rw [List.getElem?_append_left (by simpa using hi), lowBits_getElem?, lowBits_getElem?]
      have := congrArg (fun x => x.testBit i) h2
      simp only [Nat.testBit_mod_two_pow, hi, decide_true, Bool.true_and] at this
      simp [hi, Nat.lt_of_lt_of_le hi h1, this]
    · rw [List.getElem?_append_right (by simpa using Nat.le_of_not_lt hi)]
      simp
      congr 1; omega

theorem lowBits_congr {v w n : Nat} (h : v % 2 ^ n = w % 2 ^ n) : lowBits v n = lowBits w n :=
  (lowBits_prefix.mpr ⟨Nat.le_refl _, h⟩).eq_of_length (by simp)

theorem lowBits_succ (v n : Nat) : lowBits v (n + 1) = lowBits v n ++ [v.testBit n] := by
  simp [lowBits, List.range_succ]

theorem viewRest_length (s : State) : (viewRest s).length = 8 * s.rlen - s.rpos := by simp [viewRest]

theorem viewRest_getElem? (s : State) (i : Nat) :
    (viewRest s)[i]? = if i < (viewRest s).length then some (viewBit s (s.rpos + i)) else none := by
  rw [viewRest_length]
  by_cases h : i < 8 * s.rlen - s.rpos <;> simp [viewRest, h]

/-- The first k bits left to read are the bits of the k-bit read. -/
theorem viewRest_take (s : State) (k : Nat) (hk : k ≤ 8 * s.rlen - s.rpos) :
    (viewRest s).take k = lowBits (viewBits s s.rpos k) k := by
  apply List.ext_getElem?
  intro i
  rw [lowBits_getElem?]
  by_cases hi : i < k
  · rw [List.getElem?_take_of_lt hi]
    rw [if_pos hi, viewBits_testBit]
    simp [viewRest, hi, show i < 8 * s.rlen - s.rpos by omega]
  · rw [if_neg hi, List.getElem?_eq_none]
    simp; omega

/-- A longer read begins with a shorter one. -/
theorem viewBits_mod (s : State) (p k j : Nat) (h : j ≤ k) : viewBits s p k % 2 ^ j = viewBits s p j := by
  apply Nat.eq_of_testBit_eq
  intro i
  rw [Nat.testBit_mod_two_pow, viewBits_testBit, viewBits_testBit]
  by_cases hi : i < j
  · simp [hi, Nat.lt_of_lt_of_le hi h]
  · simp [hi]

/-! ### The walk -/

/-- One step of the table walk after k bits from p0: acc is the k-bit read (43_prefix_code.md R183). -/
theorem prefixWalk_step {N : Nat} (T : Vector PrefixEntry N) (s : State) (r p0 k : Nat) :
    prefixWalk T s (r + 1) (p0 + k) (viewBits s p0 k) k =
      match leafAt T (k + 1) (viewBits s p0 (k + 1)) with
      | some sym => .ok (sym, p0 + (k + 1))
      | none =>
        if extendsAt T (k + 1) (viewBits s p0 (k + 1)) then
          prefixWalk T s r (p0 + (k + 1)) (viewBits s p0 (k + 1)) (k + 1)
        else .error .badCode := by
  rw [prefixWalk]
  rfl

section
variable {N L : Nat} {T : Vector PrefixEntry N}

/-- In a well-formed table a codeword begins no other (20_memory.md R84 (d)). -/
theorem prefixTableWf_unique (hT : prefixTableWf T L) {a b : Fin N} (h1 : T[a].len ≤ T[b].len)
    (h2 : T[b].code % 2 ^ T[a].len = T[a].code) : a = b := by
  by_contra hne
  exact hT.2.2 a b hne h1 h2

/-- The walk finds the symbol whose codeword the view holds. -/
theorem prefixWalk_of_viewHolds (hT : prefixTableWf T L) (s : State) (sym : Fin N)
    (hv : viewHolds s s.rpos (codeword T sym)) :
    ∀ r k, k < T[sym].len → T[sym].len ≤ k + r →
      prefixWalk T s r (s.rpos + k) (viewBits s s.rpos k) k = .ok (sym.1, s.rpos + T[sym].len) := by
  have hcode : viewBits s s.rpos T[sym].len = T[sym].code := by
    rw [viewBits_of_viewHolds hv, Nat.mod_eq_of_lt (hT.1 sym).2.2]
  intro r
  induction r with
  | zero => intro k h1 h2; omega
  | succ r ih =>
    intro k h1 h2
    rw [prefixWalk_step]
    have hk : viewBits s s.rpos (k + 1) = T[sym].code % 2 ^ (k + 1) := by
      rw [← hcode, viewBits_mod _ _ _ _ h1]
    cases hl : leafAt T (k + 1) (viewBits s s.rpos (k + 1)) with
    | some i =>
      obtain ⟨hi, h3, h4⟩ := leafAt_some hl
      have : (⟨i, hi⟩ : Fin N) = sym := prefixTableWf_unique hT (show T[i].len ≤ _ by omega) (by
        show _ % 2 ^ T[i].len = T[i].code
        rw [h3, h4, hk])
      have hi2 : i = sym.1 := congrArg Fin.val this
      subst hi2
      dsimp only
      rw [← h3]; rfl
    | none =>
      have hne : k + 1 ≠ T[sym].len := fun e => leafAt_none hl sym ⟨e.symm, by rw [e]; exact hcode.symm⟩
      have he : extendsAt T (k + 1) (viewBits s s.rpos (k + 1)) = true := extendsAt_iff.mpr ⟨sym, by omega, hk.symm⟩
      simp only [he, if_true]
      exact ih (k + 1) (by omega) (by omega)

/-- The walk overruns when the n bits left begin a longer codeword. -/
theorem prefixWalk_of_short (hT : prefixTableWf T L) (s : State) (sym : Fin N) (n : Nat) (hn : n < T[sym].len)
    (hv : T[sym].code % 2 ^ n = viewBits s s.rpos n) :
    ∀ r k, k + r = n →
      prefixWalk T s r (s.rpos + k) (viewBits s s.rpos k) k = .error .readOverrun := by
  intro r
  induction r with
  | zero => intro k h1; rfl
  | succ r ih =>
    intro k h1
    rw [prefixWalk_step]
    have hk : viewBits s s.rpos (k + 1) = T[sym].code % 2 ^ (k + 1) := by
      rw [← viewBits_mod _ _ n (k + 1) (by omega), ← hv, Nat.mod_mod_of_dvd _ (Nat.pow_dvd_pow 2 (by omega))]
    cases hl : leafAt T (k + 1) (viewBits s s.rpos (k + 1)) with
    | some i =>
      obtain ⟨hi, h3, h4⟩ := leafAt_some hl
      have : (⟨i, hi⟩ : Fin N) = sym := prefixTableWf_unique hT (show T[i].len ≤ _ by omega) (by
        show _ % 2 ^ T[i].len = T[i].code
        rw [h3, h4, hk])
      have hi2 : i = sym.1 := congrArg Fin.val this
      subst hi2
      have : T[sym].len = k + 1 := h3
      omega
    | none =>
      have he : extendsAt T (k + 1) (viewBits s s.rpos (k + 1)) = true := extendsAt_iff.mpr ⟨sym, by omega, hk.symm⟩
      simp only [he, if_true]
      exact ih (k + 1) (by omega)

/-- The walk leaves the tree when the first n bits neither begin a codeword nor begin with one. -/
theorem prefixWalk_of_bad (s : State) (n : Nat)
    (hn : ∀ sym : Fin N, ¬ (n ≤ T[sym].len ∧ T[sym].code % 2 ^ n = viewBits s s.rpos n) ∧
      ¬ (T[sym].len ≤ n ∧ viewBits s s.rpos T[sym].len = T[sym].code)) :
    ∀ r k, k < n → n ≤ k + r →
      prefixWalk T s r (s.rpos + k) (viewBits s s.rpos k) k = .error .badCode := by
  intro r
  induction r with
  | zero => intro k h1 h2; omega
  | succ r ih =>
    intro k h1 h2
    rw [prefixWalk_step]
    cases hl : leafAt T (k + 1) (viewBits s s.rpos (k + 1)) with
    | some i =>
      obtain ⟨hi, h3, h4⟩ := leafAt_some hl
      refine absurd ⟨?_, ?_⟩ (hn ⟨i, hi⟩).2
      · show T[i].len ≤ n; omega
      · show viewBits s s.rpos T[i].len = T[i].code
        rw [h3, h4]
    | none =>
      dsimp only
      split
      · rename_i he
        by_cases e : k + 1 = n
        · subst e
          obtain ⟨sym, h5, h6⟩ := extendsAt_iff.mp he
          exact absurd ⟨by omega, h6⟩ (hn sym).1
        · exact ih (k + 1) (by omega) (by omega)
      · rfl

end

end Sys2Proof.Machine
end

