-- ==== Sys2Proof/Laws/CodeTree.lean ====
section
/-! SUPPORT. What the decode tree of a prefix-code table holds, path by path. -/

namespace Sys2Proof.Machine

open Sys2Proof.Safety

/-- The subtree at the end of a path; `empty` where the path leaves the tree. -/
def treeAt : CodeTree → List Bool → CodeTree
  | t, [] => t
  | .node l r, b :: bs => treeAt (if b then r else l) bs
  | .leaf _, _ :: _ => .empty
  | .empty, _ :: _ => .empty

theorem treeAt_empty (q) : treeAt .empty q = .empty := by cases q <;> rfl

theorem treeAt_node (l r b bs) : treeAt (.node l r) (b :: bs) = treeAt (if b then r else l) bs := by rw [treeAt]

/-- A path that an insertion may take: it meets no leaf and does not end at a node. -/
def treeFree : CodeTree → List Bool → Prop
  | .empty, _ => True
  | .leaf _, _ => False
  | .node _ _, [] => False
  | .node l r, b :: bs => treeFree (if b then r else l) bs

/-- A path with no leaf on it and no node at its end is free. -/
theorem treeFree_of (path : List Bool) (t : CodeTree) (h1 : ∀ p s, p <+: path → treeAt t p ≠ .leaf s)
    (h2 : ∀ l r, treeAt t path ≠ .node l r) : treeFree t path := by
  induction path generalizing t with
  | nil =>
    cases t with
    | empty => trivial
    | leaf s => exact absurd rfl (h1 [] s (List.nil_prefix))
    | node l r => exact absurd rfl (h2 l r)
  | cons b bs ih =>
    cases t with
    | empty => trivial
    | leaf s => exact absurd rfl (h1 [] s (List.nil_prefix))
    | node l r =>
      refine ih _ (fun p s hp => ?_) (fun l' r' => ?_)
      · exact h1 (b :: p) s (by simpa using hp)
      · exact h2 l' r'

/-- An insertion goes into the child that the first bit names and leaves the other. -/
theorem treeInsert_cons (b : Bool) (bs) (sym) (t : CodeTree) (h : treeFree t (b :: bs)) :
    ∃ l r, treeInsert (b :: bs) sym t = .node l r ∧
      (if b then r else l) = treeInsert bs sym (treeAt t [b]) ∧ (if b then l else r) = treeAt t [!b] ∧
      treeFree (treeAt t [b]) bs := by
  cases t with
  | empty => cases b <;> exact ⟨_, _, rfl, rfl, rfl, by simp [treeAt, treeFree]⟩
  | leaf s => exact h.elim
  | node l r => cases b <;> exact ⟨_, _, rfl, rfl, rfl, h⟩

/-- A path, walked bit by bit. -/
theorem treeAt_cons (t : CodeTree) (b q) : treeAt t (b :: q) = treeAt (treeAt t [b]) q := by
  cases t <;> simp [treeAt, treeAt_empty]

/-- What an insertion leaves at every path: the leaf at its own, nodes on the way, nothing past it, and the old subtree
elsewhere. -/
theorem treeAt_insert (path : List Bool) (sym : Nat) (t : CodeTree) (hf : treeFree t path) (q : List Bool) :
    (q = path → treeAt (treeInsert path sym t) q = .leaf sym) ∧
    (q <+: path → q ≠ path → ∃ l r, treeAt (treeInsert path sym t) q = .node l r) ∧
    (path <+: q → q ≠ path → treeAt (treeInsert path sym t) q = .empty) ∧
    (¬ q <+: path → ¬ path <+: q → treeAt (treeInsert path sym t) q = treeAt t q) := by
  induction path generalizing t q with
  | nil =>
    refine ⟨fun h => by subst h; rfl, fun h hn => absurd (List.prefix_nil.mp h) hn, fun _ hn => ?_,
      fun _ h => absurd List.nil_prefix h⟩
    cases q with
    | nil => exact absurd rfl hn
    | cons => rfl
  | cons b bs ih =>
    obtain ⟨l, r, e1, e2, e3, e4⟩ := treeInsert_cons b bs sym t hf
    rw [e1]
    cases q with
    | nil =>
      refine ⟨fun h => by simp at h, fun _ _ => ⟨l, r, rfl⟩, fun h => by simp at h,
        fun h => absurd List.nil_prefix h⟩
    | cons c q =>
      rw [treeAt_node, treeAt_cons t]
      by_cases hc : c = b
      · subst hc
        rw [e2]
        have := ih _ e4 q
        simpa using this
      · have : c = !b := by cases b <;> cases c <;> simp_all
        subst this
        have h3 : (if (!b) = true then r else l) = treeAt t [!b] := by cases b <;> simpa using e3
        rw [h3]
        simp

/-- A tree holds exactly these (path, symbol) pairs: a leaf at each path, a node strictly above each. -/
structure TreeHolds (t : CodeTree) (es : List (List Bool × Nat)) : Prop where
  leaf : ∀ q sym, treeAt t q = .leaf sym ↔ (q, sym) ∈ es
  node : ∀ q, (∃ l r, treeAt t q = .node l r) ↔ ∃ e ∈ es, q <+: e.1 ∧ q ≠ e.1

/-- An insertion adds its pair, when its path and those of the tree begin none of each other. -/
theorem treeHolds_insert {t es} (h : TreeHolds t es) (path sym) (hfree : ∀ e ∈ es, ¬ e.1 <+: path ∧ ¬ path <+: e.1) :
    TreeHolds (treeInsert path sym t) (es ++ [(path, sym)]) := by
  have hf : treeFree t path := by
    apply treeFree_of
    · intro p s hp hl
      exact (hfree _ ((h.leaf p s).mp hl)).1 hp
    · intro l r hl
      obtain ⟨e, he, h1, -⟩ := (h.node path).mp ⟨l, r, hl⟩
      exact (hfree e he).2 h1
  have hi := treeAt_insert path sym t hf
  constructor
  · intro q s
    obtain ⟨i1, i2, i3, i4⟩ := hi q
    by_cases h1 : q = path
    · rw [i1 h1]
      subst h1
      constructor
      · intro h; injection h with h; simp [h]
      · intro h2
        rw [List.mem_append] at h2
        rcases h2 with h2 | h2
        · exact absurd (List.prefix_refl q) (hfree _ h2).1
        · simp at h2; rw [h2]
    · by_cases h2 : q <+: path
      · obtain ⟨l, r, e⟩ := i2 h2 h1
        rw [e]
        refine ⟨fun h => (by cases h), fun hm => ?_⟩
        simp [h1] at hm
        exact absurd h2 (hfree _ hm).1
      · by_cases h3 : path <+: q
        · rw [i3 h3 h1]
          refine ⟨fun h => (by cases h), fun hm => ?_⟩
          simp [h1] at hm
          exact absurd h3 (hfree _ hm).2
        · rw [i4 h2 h3, h.leaf]; simp [h1]
  · intro q
    obtain ⟨i1, i2, i3, i4⟩ := hi q
    by_cases h1 : q = path
    · rw [i1 h1]
      subst h1
      refine ⟨fun ⟨l, r, h⟩ => (by cases h), fun ⟨e, he, h2, h3⟩ => ?_⟩
      rcases List.mem_append.mp he with he | he
      · exact absurd h2 (hfree e he).2
      · simp at he; rw [he] at h3; exact absurd rfl h3
    · by_cases h2 : q <+: path
      · exact ⟨fun _ => ⟨_, List.mem_append_right _ (List.mem_singleton.mpr rfl), h2, h1⟩, fun _ => i2 h2 h1⟩
      · by_cases h3 : path <+: q
        · rw [i3 h3 h1]
          refine ⟨fun ⟨l, r, h⟩ => (by cases h), fun ⟨e, he, h4, h5⟩ => ?_⟩
          rcases List.mem_append.mp he with he | he
          · exact absurd (h3.trans h4) (hfree e he).2
          · simp at he; rw [he] at h4; exact absurd h4 h2
        · rw [i4 h2 h3, h.node]
          constructor
          · rintro ⟨e, he, h4⟩; exact ⟨e, List.mem_append_left _ he, h4⟩
          · rintro ⟨e, he, h4, h5⟩
            rcases List.mem_append.mp he with he | he
            · exact ⟨e, he, h4, h5⟩
            · simp at he; rw [he] at h4; exact absurd h4 h2

/-- The insertions one after the other. -/
theorem treeHolds_foldl (fs : List (PrefixEntry × Nat)) (t : CodeTree) (es : List (List Bool × Nat)) (h : TreeHolds t es)
    (hp : (es ++ fs.map fun e => (codePath e.1, e.2)).Pairwise fun a b => ¬ a.1 <+: b.1 ∧ ¬ b.1 <+: a.1) :
    TreeHolds (fs.foldl (fun t e => treeInsert (codePath e.1) e.2 t) t) (es ++ fs.map fun e => (codePath e.1, e.2)) := by
  induction fs generalizing t es with
  | nil => simpa using h
  | cons f fs ih =>
    rw [List.map_cons] at hp ⊢
    have e : es ++ (codePath f.1, f.2) :: fs.map (fun e => (codePath e.1, e.2)) =
      (es ++ [(codePath f.1, f.2)]) ++ fs.map (fun e => (codePath e.1, e.2)) := by simp
    rw [e] at hp ⊢
    refine ih _ _ (treeHolds_insert h _ _ fun x hx => ?_) hp
    have := (List.pairwise_append.mp (List.pairwise_append.mp hp).1).2.2 x hx _ (List.mem_singleton.mpr rfl)
    exact this

/-- The path of a codeword is its stream bits. -/
theorem codePath_eq (e : PrefixEntry) : codePath e = lowBits e.code e.len := rfl

section
variable {N L : Nat} {T : Vector PrefixEntry N}

/-- The tree of a well-formed table holds its codewords (43_prefix_code.md R184). -/
theorem treeHolds_codeTree (hT : prefixTableWf T L) :
    TreeHolds (codeTree T) (T.toList.zipIdx.map fun e => (codePath e.1, e.2)) := by
  have h0 : TreeHolds CodeTree.empty [] := ⟨fun q s => by simp [treeAt_empty], fun q => by simp [treeAt_empty]⟩
  have := treeHolds_foldl T.toList.zipIdx .empty [] h0 ?_
  · exact this
  · rw [List.nil_append, List.pairwise_map, List.pairwise_iff_getElem]
    intro i j hi hj hij
    simp at hi hj
    have hne : (⟨i, hi⟩ : Fin N) ≠ ⟨j, hj⟩ := by intro h; simp at h; omega
    simp only [List.getElem_zipIdx, codePath_eq, lowBits_prefix, Vector.getElem_toList]
    refine ⟨fun ⟨h1, h2⟩ => hne (prefixTableWf_unique hT h1 ?_),
      fun ⟨h1, h2⟩ => hne.symm (prefixTableWf_unique hT h1 ?_)⟩
    · show T[j].code % 2 ^ T[i].len = T[i].code
      rw [← h2]; exact Nat.mod_eq_of_lt (hT.1 ⟨i, hi⟩).2.2
    · show T[i].code % 2 ^ T[j].len = T[j].code
      rw [← h2]; exact Nat.mod_eq_of_lt (hT.1 ⟨j, hj⟩).2.2

/-- The pairs of a table's tree. -/
theorem mem_codes (q : List Bool) (sym : Nat) : (q, sym) ∈ (T.toList.zipIdx.map fun e => (codePath e.1, e.2)) ↔
    ∃ h : sym < N, q = codePath T[sym] := by
  simp only [List.mem_map, Prod.mk.injEq, Prod.exists]
  constructor
  · rintro ⟨e, i, h1, h2, rfl⟩
    rw [List.mk_mem_zipIdx_iff_getElem?] at h1
    rw [List.getElem?_eq_some_iff] at h1
    obtain ⟨h3, h4⟩ := h1
    exact ⟨by simpa using h3, by rw [← h2, ← h4]; simp⟩
  · rintro ⟨h, rfl⟩
    exact ⟨T[sym], sym, by rw [List.mk_mem_zipIdx_iff_getElem?]; simp [h], rfl, rfl⟩

/-- A path of two parts, walked part by part. -/
theorem treeAt_append (t q p) : treeAt t (q ++ p) = treeAt (treeAt t q) p := by
  induction q generalizing t with
  | nil => rfl
  | cons b q ih => rw [List.cons_append, treeAt_cons, ih, ← treeAt_cons]

end

end Sys2Proof.Machine
end

