-- ==== Sys2Proof/Laws/Encoding.lean ====
section
/-! SUPPORT. The fields of a command word and of its operand, bit by bit, the two format checks, and the rows of the opcode
table as OP and ARG. -/

namespace Sys2Proof.Machine

open Sys2Proof.Safety

/-- Bit i of a command word: ARG below bit 8, OP above. -/
theorem opArg_getLsbD (op arg : BitVec 8) (i : Nat) :
    (op ++ arg : BitVec 16).getLsbD i = if i < 8 then arg.getLsbD i else op.getLsbD (i - 8) :=
  BitVec.getLsbD_append

/-- Bit i of an operand made of 24 bits above a byte. -/
theorem highLow_getLsbD (k : BitVec 24) (b : BitVec 8) (i : Nat) :
    (k ++ b : Word).getLsbD i = if i < 8 then b.getLsbD i else k.getLsbD (i - 8) :=
  BitVec.getLsbD_append

theorem command_op (op arg : BitVec 8) (d : Word) : (command op arg d).op = op := by
  apply BitVec.eq_of_getLsbD_eq
  intro i hi
  simp [command, Command.op, opArg_getLsbD, hi]

theorem command_arg (op arg : BitVec 8) (d : Word) : (command op arg d).arg = arg := by
  apply BitVec.eq_of_getLsbD_eq
  intro i hi
  simp [command, Command.arg, opArg_getLsbD, hi]

theorem command_din (op arg : BitVec 8) (d : Word) : (command op arg d).din = d := rfl

/-- A command word is its OP above its ARG (30_encoding.md R100). -/
theorem op_append_arg (c : Command) : c.op ++ c.arg = c.cmd := by
  apply BitVec.eq_of_getLsbD_eq
  intro i hi
  rw [opArg_getLsbD]
  simp only [Command.op, Command.arg, BitVec.getLsbD_extractLsb']
  by_cases h : i < 8
  · simp [h]
  · rw [if_neg h, show 8 + (i - 8) = i by omega]; simp; omega

/-- The command word of a command whose OP is the number n. -/
theorem cmd_of_op (c : Command) (n : Nat) (h : c.op.toNat = n) : c.cmd = BitVec.ofNat 8 n ++ c.arg := by
  rw [← h, BitVec.ofNat_toNat, BitVec.setWidth_eq, op_append_arg]

theorem op_toNat (c : Command) : c.op.toNat = c.cmd.toNat / 256 := by
  simp [Command.op, BitVec.extractLsb'_toNat, Nat.shiftRight_eq_div_pow]
  have := c.cmd.isLt
  omega

theorem arg_toNat (c : Command) : c.arg.toNat = c.cmd.toNat % 256 := by
  simp [Command.arg, BitVec.extractLsb'_toNat]

theorem arg_eq_zero (c : Command) : c.arg = 0 ↔ c.cmd.toNat % 256 = 0 := by
  rw [← arg_toNat, ← BitVec.toNat_inj]; rfl

/-! ### The operand -/

theorem highLow_high (k : BitVec 24) (b : BitVec 8) : (k ++ b : Word).extractLsb' 8 24 = k := by
  apply BitVec.eq_of_getLsbD_eq
  intro i hi
  simp [highLow_getLsbD, hi]

theorem highLow_low (k : BitVec 24) (b : BitVec 8) : (k ++ b : Word).extractLsb' 0 8 = b := by
  apply BitVec.eq_of_getLsbD_eq
  intro i hi
  simp [highLow_getLsbD, hi]

theorem byte_low (b : BitVec 8) : (BitVec.setWidth 32 b : Word).extractLsb' 0 8 = b := by
  apply BitVec.eq_of_getLsbD_eq
  intro i hi
  simp [hi]; intro; omega

/-- The low n bits of an operand, by mask. -/
theorem and_lowMask_getLsbD (d : Word) (n : Nat) (h : n ≤ 32) (i : Nat) :
    (d &&& BitVec.ofNat 32 (2 ^ n - 1)).getLsbD i = (decide (i < n) && d.getLsbD i) := by
  rw [BitVec.getLsbD_and, BitVec.getLsbD_ofNat, Nat.testBit_two_pow_sub_one, Bool.and_comm]
  by_cases hi : i < n
  · simp [hi]; intro; omega
  · simp [hi]

theorem din_bit (d : Word) : (BitVec.setWidth 32 (BitVec.ofBool (d[0])) : Word) = d &&& 1#32 := by
  apply BitVec.eq_of_getLsbD_eq
  intro i hi
  have := and_lowMask_getLsbD d 1 (by omega) i
  rw [show BitVec.ofNat 32 (2 ^ 1 - 1) = 1#32 by decide] at this
  rw [this]
  by_cases h : i = 0
  · subst h; simp
  · simp [h]

theorem din_byte (d : Word) : (BitVec.setWidth 32 (d.extractLsb' 0 8) : Word) = d &&& 0xFF#32 := by
  apply BitVec.eq_of_getLsbD_eq
  intro i hi
  have := and_lowMask_getLsbD d 8 (by omega) i
  rw [show BitVec.ofNat 32 (2 ^ 8 - 1) = 0xFF#32 by decide] at this
  rw [this]
  by_cases h : i < 8 <;> simp [h, hi]

theorem din_highLow (d : Word) : (d.extractLsb' 8 24 ++ d.extractLsb' 0 8 : Word) = d := by
  apply BitVec.eq_of_getLsbD_eq
  intro i hi
  rw [highLow_getLsbD]
  by_cases h : i < 8
  · simp [h]
  · rw [if_neg h, BitVec.getLsbD_extractLsb', show 8 + (i - 8) = i by omega]
    simp; omega

theorem din_whole (d : Word) : d &&& 0xFFFFFFFF#32 = d := by
  apply BitVec.eq_of_getLsbD_eq
  intro i hi
  have := and_lowMask_getLsbD d 32 (by omega) i
  rw [show BitVec.ofNat 32 (2 ^ 32 - 1) = 0xFFFFFFFF#32 by decide] at this
  rw [this]; simp [hi]

/-! ### The format checks -/

theorem formatZ_ok {c : Command} {i j : Instr} (h : formatZ c i = .ok j) : c.arg = 0 ∧ j = i := by
  unfold formatZ at h
  split at h
  · injection h with h; exact ⟨‹_›, h.symm⟩
  · cases h

theorem formatR_ok {c : Command} {i j : Instr} (h : formatR c i = .ok j) : c.arg.toNat ≤ 8 ∧ j = i := by
  unfold formatR at h
  split at h
  · injection h with h; exact ⟨‹_›, h.symm⟩
  · cases h

/-- An illegal word raises ILLEGAL_COMMAND and has no other effect (30_encoding.md R106). -/
theorem step_of_decode_error {s : State} {c : Command} {rest : List Command} {e : DecodeError} (hl : live s)
    (hp : s.pending = c :: rest) (h : decode c = .error e) :
    step s = .next (faulted .illegalCommand { s with pending := rest }) := by
  simp only [step, acceptCommand, hp, h, illegalWord]
  rw [raise_of_live]; exact hl

/-- While faulted an illegal word is dropped (60_exceptions.md R254). -/
theorem step_of_decode_error_faulted {s : State} {c : Command} {rest : List Command} {e : DecodeError}
    (hf : s.fault = true) (hp : s.pending = c :: rest) (h : decode c = .error e) :
    step s = .next { s with pending := rest } := by
  simp only [step, acceptCommand, hp, h, illegalWord]
  rw [raise_of_faulted]; exact hf

/-- What the rows of format Z of the decoder give. -/
theorem zCommand_of_formatZ (op : BitVec 8) (i : Word → Instr)
    (h : ∀ din arg, decode (command op arg din) = formatZ (command op arg din) (i din)) : zCommand op i := by
  constructor
  · intro din
    rw [h, formatZ, command_arg]; simp
  · intro arg din rest s ha hp
    have hd : decode (command op arg din) = .error .nonzeroArg := by
      rw [h, formatZ, command_arg, if_neg ha]
    exact ⟨fun hl => step_of_decode_error hl hp hd, fun hf => step_of_decode_error_faulted hf hp hd⟩

/-! ### Rows of the opcode table -/

/-- A command matches a format-Z row exactly when OP is the row's and ARG is 0 (30_encoding.md R109). -/
theorem match_rowZ (c : Command) (o : BitVec 8) :
    c.cmd &&& (0xFFFF : BitVec 16) = o ++ 0#8 ↔ c.op = o ∧ c.arg = 0 := by
  rw [show (0xFFFF : BitVec 16) = BitVec.allOnes 16 by decide, BitVec.and_allOnes, ← op_append_arg c]
  constructor
  · intro h
    have h1 := congrArg (fun x => (⟨x, 0⟩ : Command).op) h
    have h2 := congrArg (fun x => (⟨x, 0⟩ : Command).arg) h
    have e1 := fun a b => command_op a b 0
    have e2 := fun a b => command_arg a b 0
    simp only [command] at e1 e2
    simp only [e1, e2] at h1 h2
    exact ⟨h1, h2⟩
  · rintro ⟨rfl, h⟩; rw [h]; rfl

/-- A command matches a row of another format exactly when OP is the row's (30_encoding.md R109). -/
theorem match_rowArg (c : Command) (o : BitVec 8) : c.cmd &&& (0xFF00 : BitVec 16) = o ++ 0#8 ↔ c.op = o := by
  have hn : c.cmd &&& (0xFF00 : BitVec 16) = c.op ++ 0#8 := by
    rw [← op_append_arg c]
    apply BitVec.eq_of_getLsbD_eq
    intro i hi
    rw [BitVec.getLsbD_and, show (0xFF00 : BitVec 16) = (BitVec.allOnes 8) ++ (0#8) by decide]
    simp only [opArg_getLsbD]
    by_cases h : i < 8
    · simp [h]
    · have : i - 8 < 8 := by omega
      simp only [h, if_false, BitVec.getLsbD_allOnes, this, decide_true, Bool.and_true]
  rw [hn]
  constructor
  · intro h
    have h1 := congrArg (fun x => (⟨x, 0⟩ : Command).op) h
    have e1 := fun a b => command_op a b 0
    simp only [command] at e1
    simpa only [e1] using h1
  · rintro rfl; rfl

/-! ### Registers -/

/-- Every register number up to 8 names a register (10_state.md R50). -/
theorem readRegister_of_le (r : BitVec 8) (s : State) (h : r.toNat ≤ 8) : ∃ w, readRegister r s = some w := by
  unfold readRegister
  generalize r.toNat = n at *
  interval_cases n <;> exact ⟨_, rfl⟩

theorem toNat_ofBool (b : Bool) : (BitVec.ofBool b).toNat = b.toNat := by cases b <;> rfl

/-- The value of a field above another. -/
theorem toNat_append {m n : Nat} (a : BitVec m) (b : BitVec n) : (a ++ b).toNat = a.toNat * 2 ^ n + b.toNat := by
  rw [BitVec.toNat_append, Nat.shiftLeft_eq, Nat.mul_comm, Nat.two_pow_add_eq_or_of_lt b.isLt]

end Sys2Proof.Machine
end

