-- ==== Sys2Proof/Laws/Codepoint.lean ====
section
/-! SUPPORT. The stream bits of the codepoint codes, and what a decode reads from a view that holds them. -/

namespace Sys2Proof.Machine

open Sys2Proof.Safety

/-- A view that holds a bit and then more, read by one bit. -/
theorem viewHolds_cons {s : State} {p : Nat} {b : Bool} {bs : List Bool} :
    viewHolds s p (b :: bs) ↔ p + 1 ≤ 8 * s.rlen ∧ viewBits s p 1 = b.toNat ∧ viewHolds s (p + 1) bs := by
  have : viewHolds s p ([b] ++ bs) ↔ _ := viewHolds_append s p [b] bs
  rw [List.singleton_append] at this
  rw [this]
  have h1 : viewHolds s p [b] ↔ p + 1 ≤ 8 * s.rlen ∧ viewBits s p 1 = b.toNat := by
    unfold viewHolds
    simp [viewBits]
    intro _
    cases viewBit s p <;> cases b <;> simp
  rw [h1, and_assoc]; rfl

/-- A flag bit of the view whose value is known is what the rest of the command gets. -/
theorem withBits_of_viewHolds_cons {α : Type} {s : State} {p : Nat} {b : Bool} {bs : List Bool}
    {rest : Nat → Nat → Except Cause α} (h : viewHolds s p (b :: bs)) :
    withBits s p 1 rest = rest b.toNat (p + 1) ∧ viewHolds s (p + 1) bs := by
  obtain ⟨h1, h2, h3⟩ := viewHolds_cons.mp h
  exact ⟨by rw [withBits_of_room h1, h2], h3⟩

theorem viewBits_one (s : State) (p : Nat) : viewBits s p 1 = (viewBit s p).toNat := by
  simp [viewBits]; cases viewBit s p <;> rfl

/-- The fields of an absolute code are the bits of its tier (44_codepoint.md R200). -/
theorem absFields_absCode (cfg : Config) (c : Nat) : AbsCode cfg c (fieldBits (absFields cfg c)) := by
  unfold absFields
  have hnone : lowIndex cfg c = none → c ∉ cfg.lowcp.toList.map BitVec.toNat := by
    intro h hm
    unfold lowIndex at h
    rw [List.findIdx?_eq_none_iff] at h
    obtain ⟨e, he, rfl⟩ := List.mem_map.mp hm
    simpa using h e he
  split
  · rename_i i hi
    unfold lowIndex at hi
    rw [List.findIdx?_eq_some_iff_getElem] at hi
    obtain ⟨h1, h2, h3⟩ := hi
    have e : fieldBits [⟨1, 1⟩, ⟨i, 8⟩] = true :: lowBits i 8 := by simp [fieldBits, lowBits, List.range_succ]
    rw [e]
    have h1' : i < 32 := by simpa using h1
    refine .tierA i h1' ?_ ?_
    · simp [h1']; simpa using h2
    · intro j hj
      have := h3 j hj
      simp [show j < 32 by omega]; simpa using this
  · rename_i hi
    split
    · rename_i ht
      have e : fieldBits [⟨0b10, 2⟩, ⟨c - baseB cfg, 14⟩] = false :: true :: lowBits (c - baseB cfg) 14 := by
        simp [fieldBits, lowBits, List.range_succ]; decide
      rw [e]
      exact .tierB (hnone hi) ht.1 ht.2
    · rename_i ht
      have e : fieldBits [⟨0b00, 2⟩, ⟨c, 21⟩] = false :: false :: lowBits c 21 := by
        simp [fieldBits, lowBits, List.range_succ]
      rw [e]
      exact .tierC (hnone hi) (by unfold inTierB at ht; omega)

/-- The fields of a delta code are the bits of its form (44_codepoint.md R203, R204, R205). -/
theorem deltaFields_deltaCode (prev c : Nat) : DeltaCode prev c (fieldBits (deltaFields prev c)) := by
  unfold deltaFields deltaForm
  by_cases h : prev ≤ c
  · have h1 : ((c : Int) - prev).natAbs = c - prev := by omega
    have h2 : ¬ ((c : Int) - prev < 0) := by omega
    simp only [h1, h2, if_false]
    split
    · simpa [fieldBits] using DeltaCode.pos7 h ‹_›
    · split
      · simpa [fieldBits] using DeltaCode.pos14 h (by omega) ‹_›
      · simpa [fieldBits] using DeltaCode.pos21 h (by omega)
  · have h1 : ((c : Int) - prev).natAbs = prev - c := by omega
    have h2 : ((c : Int) - prev < 0) := by omega
    simp only [h1, h2, if_true]
    split
    · simpa [fieldBits] using DeltaCode.neg7 (by omega) ‹_›
    · split
      · simpa [fieldBits] using DeltaCode.neg14 (by omega) (by omega) ‹_›
      · simpa [fieldBits] using DeltaCode.neg21 (by omega) (by omega)

/-- A delta-mode read after its descriptor (44_codepoint.md R209). -/
theorem deltaRead_of_descriptor {s : State} {d : Nat} (hd : d < 8) (h : viewHolds s s.rpos (lowBits d 3)) :
    deltaRead s =
      (if d = 6 then .ok (.leave, 0, s.rpos + 3)
      else if d = 7 then
        withBits s (s.rpos + 3) 2 fun j p =>
          .ok (.literal, (s.cfg.lit4[j % 4]'(Nat.mod_lt _ (by decide))).toNat, p)
      else if s.prevValid then
        withBits s (s.rpos + 3) (deltaPayload (d % 3)).1 fun f p =>
          let m : Int := ((f + (deltaPayload (d % 3)).2 : Nat) : Int)
          let c : Int := if 3 ≤ d then (s.prevCp.toNat : Int) - m else (s.prevCp.toNat : Int) + m
          if 0 ≤ c ∧ scalar c.toNat then .ok (.delta, c.toNat, p) else .error .badCodepoint
      else .error .noPrev) := by
  unfold deltaRead
  rw [withBits_of_viewHolds h (by omega)]

/-- What the result word of CDDEC is for a delta. -/
theorem deltaWord_delta (c : Nat) (h : c < 2 ^ 21) : deltaWord .delta (BitVec.ofNat 21 c) = BitVec.ofNat 32 c := by
  apply BitVec.eq_of_toNat_eq
  rw [deltaWord, toNat_append, toNat_append, toNat_append]
  simp [kindCode]; omega

/-- Every LOWCP entry lies below BASE_B (20_memory.md R87). -/
theorem lowcp_lt_baseB (cfg : Config) (i : Fin 32) : cfg.lowcp[i].toNat < baseB cfg := by
  have gen : ∀ (l : List Codepoint) (m : Nat), m ≤ l.foldl (fun m c => max m c.toNat) m ∧
      ∀ x ∈ l, x.toNat ≤ l.foldl (fun m c => max m c.toNat) m := by
    intro l
    induction l with
    | nil => simp
    | cons y l ih =>
      intro m
      obtain ⟨a, b⟩ := ih (max m y.toNat)
      rw [List.foldl_cons]
      refine ⟨by omega, fun x hx => ?_⟩
      rcases List.mem_cons.mp hx with rfl | hx
      · omega
      · exact b x hx
  have := (gen cfg.lowcp.toList 0).2 cfg.lowcp[i] (by simp)
  unfold baseB; omega

/-- A bound on every LOWCP entry bounds BASE_B (20_memory.md R87). -/
theorem baseB_le (cfg : Config) (n : Nat) (h : ∀ i : Fin 32, cfg.lowcp[i].toNat < n) (hn : 1 ≤ n) : baseB cfg ≤ n := by
  have gen : ∀ (l : List Codepoint) (m : Nat), m < n → (∀ x ∈ l, x.toNat < n) →
      l.foldl (fun m c => max m c.toNat) m < n := by
    intro l
    induction l with
    | nil => intro m hm _; exact hm
    | cons y l ih =>
      intro m hm hl
      have := hl y List.mem_cons_self
      exact ih _ (by dsimp only; omega) fun x hx => hl x (List.mem_cons_of_mem _ hx)
  have := gen cfg.lowcp.toList 0 (by omega) (fun x hx => by
    obtain ⟨i, hi, rfl⟩ := List.getElem_of_mem hx
    have hi' : i < 32 := by simpa using hi
    exact h ⟨i, hi'⟩)
  unfold baseB; omega

/-- Tier B never yields a value that is no scalar value, in a well-formed configuration (44_codepoint.md R202). -/
theorem scalar_tierB (cfg : Config) (h : configWf cfg) (o : Nat) (ho : o < 2 ^ 14) : scalar (baseB cfg + o) := by
  obtain ⟨-, -, -, -, ⟨-, -, -, k, hk, -, -, hl⟩, -⟩ := h
  have := baseB_le cfg 0xA0 (fun i => by have := hl i; omega) (by omega)
  simp only [scalar]; omega

end Sys2Proof.Machine
end

