-- ==== Sys2Proof/Laws/PerInstr.lean ====
section
/-! SUPPORT. What holds of every instruction as syntax, one lemma per instruction. -/

namespace Sys2Proof.Laws

open Sys2Proof Sys2Proof.Machine

/-- The encoding of an instruction stands in its row of the opcode table (30_encoding.md R108, R109), and its operand uses
no bit of DIN that the instruction does not take (R107). -/
def TableRow.Statement (i : Instr) : Prop :=
  opcodeRow i ∈ opcodeTable ∧ (encode i).cmd &&& (opcodeRow i).mask = (opcodeRow i).pattern ∧
    (encode i).din &&& dinMask i = (encode i).din

/-- The row of every instruction is in the table. -/
theorem TableRow.opcodeRow_mem (i : Instr) : opcodeRow i ∈ opcodeTable := by
  cases i <;> simp only [opcodeTable, opcodeRow, List.mem_append, List.mem_cons, true_or, or_true]

/-- A byte operand uses DIN[7:0] alone. -/
theorem TableRow.byte_and (v : Byte) : (BitVec.setWidth 32 v : Word) &&& 0xFF#32 = BitVec.setWidth 32 v := by
  rw [← din_byte, byte_low]

theorem TableRow.nop : TableRow.Statement .nop :=
  ⟨TableRow.opcodeRow_mem _, (match_rowZ (encode .nop) _).mpr ⟨command_op _ _ _, command_arg _ _ _⟩,
    by decide⟩

theorem TableRow.init : TableRow.Statement .init :=
  ⟨TableRow.opcodeRow_mem _, (match_rowZ (encode .init) _).mpr ⟨command_op _ _ _, command_arg _ _ _⟩,
    by decide⟩

theorem TableRow.rdreg (r : BitVec 8) : TableRow.Statement (.rdreg r) :=
  ⟨TableRow.opcodeRow_mem _, (match_rowArg (encode (.rdreg r)) _).mpr (command_op _ _ _),
    BitVec.and_zero⟩

theorem TableRow.wclr : TableRow.Statement .wclr :=
  ⟨TableRow.opcodeRow_mem _, (match_rowZ (encode .wclr) _).mpr ⟨command_op _ _ _, command_arg _ _ _⟩,
    by decide⟩

theorem TableRow.wbit (b : Bool) : TableRow.Statement (.wbit b) :=
  ⟨TableRow.opcodeRow_mem _, (match_rowZ (encode (.wbit b)) _).mpr ⟨command_op _ _ _, command_arg _ _ _⟩,
    by cases b <;> decide⟩

theorem TableRow.wbits (n : BitVec 8) (v : Word) : TableRow.Statement (.wbits n v) :=
  ⟨TableRow.opcodeRow_mem _, (match_rowArg (encode (.wbits n v)) _).mpr (command_op _ _ _),
    din_whole _⟩

theorem TableRow.wbyte (v : Byte) : TableRow.Statement (.wbyte v) :=
  ⟨TableRow.opcodeRow_mem _, (match_rowZ (encode (.wbyte v)) _).mpr ⟨command_op _ _ _, command_arg _ _ _⟩,
    TableRow.byte_and v⟩

theorem TableRow.wlen : TableRow.Statement .wlen :=
  ⟨TableRow.opcodeRow_mem _, (match_rowZ (encode .wlen) _).mpr ⟨command_op _ _ _, command_arg _ _ _⟩,
    by decide⟩

theorem TableRow.wpad : TableRow.Statement .wpad :=
  ⟨TableRow.opcodeRow_mem _, (match_rowZ (encode .wpad) _).mpr ⟨command_op _ _ _, command_arg _ _ _⟩,
    by decide⟩

theorem TableRow.wblen : TableRow.Statement .wblen :=
  ⟨TableRow.opcodeRow_mem _, (match_rowZ (encode .wblen) _).mpr ⟨command_op _ _ _, command_arg _ _ _⟩,
    by decide⟩

theorem TableRow.wrdb (k : Word) : TableRow.Statement (.wrdb k) :=
  ⟨TableRow.opcodeRow_mem _, (match_rowZ (encode (.wrdb k)) _).mpr ⟨command_op _ _ _, command_arg _ _ _⟩,
    din_whole _⟩

theorem TableRow.rbind (l : Word) : TableRow.Statement (.rbind l) :=
  ⟨TableRow.opcodeRow_mem _, (match_rowZ (encode (.rbind l)) _).mpr ⟨command_op _ _ _, command_arg _ _ _⟩,
    din_whole _⟩

theorem TableRow.rldb (k : BitVec 24) (b : Byte) : TableRow.Statement (.rldb k b) :=
  ⟨TableRow.opcodeRow_mem _, (match_rowZ (encode (.rldb k b)) _).mpr ⟨command_op _ _ _, command_arg _ _ _⟩,
    din_whole _⟩

theorem TableRow.rbit : TableRow.Statement .rbit :=
  ⟨TableRow.opcodeRow_mem _, (match_rowZ (encode .rbit) _).mpr ⟨command_op _ _ _, command_arg _ _ _⟩,
    by decide⟩

theorem TableRow.rbits (n : BitVec 8) : TableRow.Statement (.rbits n) :=
  ⟨TableRow.opcodeRow_mem _, (match_rowArg (encode (.rbits n)) _).mpr (command_op _ _ _),
    BitVec.and_zero⟩

theorem TableRow.rbyte : TableRow.Statement .rbyte :=
  ⟨TableRow.opcodeRow_mem _, (match_rowZ (encode .rbyte) _).mpr ⟨command_op _ _ _, command_arg _ _ _⟩,
    by decide⟩

theorem TableRow.rrem : TableRow.Statement .rrem :=
  ⟨TableRow.opcodeRow_mem _, (match_rowZ (encode .rrem) _).mpr ⟨command_op _ _ _, command_arg _ _ _⟩,
    by decide⟩

theorem TableRow.penc28 (sym : Word) : TableRow.Statement (.penc28 sym) :=
  ⟨TableRow.opcodeRow_mem _, (match_rowZ (encode (.penc28 sym)) _).mpr ⟨command_op _ _ _, command_arg _ _ _⟩,
    din_whole _⟩

theorem TableRow.penc5 (sym : Word) : TableRow.Statement (.penc5 sym) :=
  ⟨TableRow.opcodeRow_mem _, (match_rowZ (encode (.penc5 sym)) _).mpr ⟨command_op _ _ _, command_arg _ _ _⟩,
    din_whole _⟩

theorem TableRow.pdec28 : TableRow.Statement .pdec28 :=
  ⟨TableRow.opcodeRow_mem _, (match_rowZ (encode .pdec28) _).mpr ⟨command_op _ _ _, command_arg _ _ _⟩,
    by decide⟩

theorem TableRow.pdec5 : TableRow.Statement .pdec5 :=
  ⟨TableRow.opcodeRow_mem _, (match_rowZ (encode .pdec5) _).mpr ⟨command_op _ _ _, command_arg _ _ _⟩,
    by decide⟩

theorem TableRow.caenc (c : Word) : TableRow.Statement (.caenc c) :=
  ⟨TableRow.opcodeRow_mem _, (match_rowZ (encode (.caenc c)) _).mpr ⟨command_op _ _ _, command_arg _ _ _⟩,
    din_whole _⟩

theorem TableRow.cadec : TableRow.Statement .cadec :=
  ⟨TableRow.opcodeRow_mem _, (match_rowZ (encode .cadec) _).mpr ⟨command_op _ _ _, command_arg _ _ _⟩,
    by decide⟩

theorem TableRow.cdenc (c : Word) : TableRow.Statement (.cdenc c) :=
  ⟨TableRow.opcodeRow_mem _, (match_rowZ (encode (.cdenc c)) _).mpr ⟨command_op _ _ _, command_arg _ _ _⟩,
    din_whole _⟩

theorem TableRow.cdlit (j : Word) : TableRow.Statement (.cdlit j) :=
  ⟨TableRow.opcodeRow_mem _, (match_rowZ (encode (.cdlit j)) _).mpr ⟨command_op _ _ _, command_arg _ _ _⟩,
    din_whole _⟩

theorem TableRow.cdleave : TableRow.Statement .cdleave :=
  ⟨TableRow.opcodeRow_mem _, (match_rowZ (encode .cdleave) _).mpr ⟨command_op _ _ _, command_arg _ _ _⟩,
    by decide⟩

theorem TableRow.cddec : TableRow.Statement .cddec :=
  ⟨TableRow.opcodeRow_mem _, (match_rowZ (encode .cddec) _).mpr ⟨command_op _ _ _, command_arg _ _ _⟩,
    by decide⟩

theorem TableRow.sinit (t : Word) : TableRow.Statement (.sinit t) :=
  ⟨TableRow.opcodeRow_mem _, (match_rowZ (encode (.sinit t)) _).mpr ⟨command_op _ _ _, command_arg _ _ _⟩,
    din_whole _⟩

theorem TableRow.soffer (m : BitVec 8) (l : Word) : TableRow.Statement (.soffer m l) :=
  ⟨TableRow.opcodeRow_mem _, (match_rowArg (encode (.soffer m l)) _).mpr (command_op _ _ _),
    din_whole _⟩

theorem TableRow.sfinal (u : Word) : TableRow.Statement (.sfinal u) :=
  ⟨TableRow.opcodeRow_mem _, (match_rowZ (encode (.sfinal u)) _).mpr ⟨command_op _ _ _, command_arg _ _ _⟩,
    din_whole _⟩

theorem TableRow.hclass (l : BitVec 24) (b : Byte) : TableRow.Statement (.hclass l b) :=
  ⟨TableRow.opcodeRow_mem _, (match_rowZ (encode (.hclass l b)) _).mpr ⟨command_op _ _ _, command_arg _ _ _⟩,
    din_whole _⟩

end Sys2Proof.Laws
end

