-- ==== Sys2Proof/Laws/Selector.lean ====
section
/-! SUPPORT. The method tags that SOFFER takes, and the packed results of the selector. -/

namespace Sys2Proof.Machine

open Sys2Proof.Safety

/-- A tag outside 2..4 offers nothing (45_selector.md R232). -/
theorem candidateMethod_none {m : BitVec 8} (h : m.toNat < 2 ∨ 4 < m.toNat) : candidateMethod m = none := by
  unfold candidateMethod
  rw [if_neg, if_neg, if_neg] <;> (rintro rfl; simp at h)

/-- A tag in 2..4 offers the method of that tag (10_state.md R49). -/
theorem candidateMethod_some {m : BitVec 8} (h1 : 2 ≤ m.toNat) (h2 : m.toNat ≤ 4) :
    ∃ method, candidateMethod m = some method ∧ (methodTag method).toNat = m.toNat := by
  have : m.toNat = 2 ∨ m.toNat = 3 ∨ m.toNat = 4 := by omega
  rcases this with h | h | h
  · obtain rfl : m = 2#8 := BitVec.eq_of_toNat_eq h
    exact ⟨.fixed4, rfl, rfl⟩
  · obtain rfl : m = 3#8 := BitVec.eq_of_toNat_eq h
    exact ⟨.fixed5, rfl, rfl⟩
  · obtain rfl : m = 4#8 := BitVec.eq_of_toNat_eq h
    exact ⟨.fixed6, rfl, rfl⟩

theorem finalWord_of_success (m : Method) : finalWord true m = BitVec.ofNat 32 (256 + (methodTag m).toNat) := by
  cases m <;> rfl

theorem finalWord_of_passthrough : finalWord false .none = 0 := by decide

/-- The fields of HCLASS's result, as a number. -/
theorem headerWord_ofNat (cls : HeaderClass) (arg : BitVec 6) (m : Method) :
    headerWord cls arg m =
      BitVec.ofNat 32 ((classCode cls).toNat + 256 * arg.toNat + 65536 * (methodTag m).toNat) := by
  apply BitVec.eq_of_toNat_eq
  rw [headerWord, toNat_append, toNat_append, toNat_append, toNat_append, toNat_append]
  have h1 := (classCode cls).isLt
  have h2 := arg.isLt
  have h3 := (methodTag m).isLt
  rw [BitVec.toNat_ofNat, Nat.mod_eq_of_lt (by omega)]
  simp; omega

end Sys2Proof.Machine
end

