-- ==== Sys2Proof/Laws/View.lean ====
section
/-! SUPPORT. Reads of the view see the view alone: with other bytes past its end, every read gives the same. -/

namespace Sys2Proof.Machine

open Sys2Proof.Safety

/-- The state with another content of RMEM. -/
def withRmem (m : Memory) (s : State) : State := { s with rmem := m }

section
variable {s : State} {m : Memory} (hm : ∀ p, p < 8 * s.rlen → m.bit p = s.rmem.bit p)
include hm

theorem viewBits_withRmem (p n : Nat) (h : p + n ≤ 8 * s.rlen) : viewBits (withRmem m s) p n = viewBits s p n := by
  apply Nat.eq_of_testBit_eq
  intro i
  rw [viewBits_testBit, viewBits_testBit]
  by_cases hi : i < n
  · simp only [hi, decide_true, Bool.true_and]; exact hm _ (by omega)
  · simp [hi]

theorem withBits_withRmem {α : Type} (p n : Nat) (f g : Nat → Nat → Except Cause α) (h : ∀ v q, f v q = g v q) :
    withBits (withRmem m s) p n f = withBits s p n g := by
  unfold withBits
  by_cases hr : 8 * s.rlen < p + n
  · rw [if_pos hr, if_pos (by exact hr)]
  · rw [if_neg hr, if_neg (by exact hr), viewBits_withRmem hm _ _ (by omega), h]

theorem prefixWalk_withRmem {N : Nat} (T : Vector PrefixEntry N) (r p acc k : Nat) (h : p + r ≤ 8 * s.rlen) :
    prefixWalk T (withRmem m s) r p acc k = prefixWalk T s r p acc k := by
  induction r generalizing p acc k with
  | zero => rfl
  | succ r ih =>
    have : viewBit (withRmem m s) p = viewBit s p := hm _ (by omega)
    simp only [prefixWalk, this]
    rw [ih _ _ _ (by omega)]

theorem absRead_withRmem : absRead (withRmem m s) = absRead s := by
  unfold absRead
  apply withBits_withRmem hm
  intro v q
  split
  · apply withBits_withRmem hm; intros; rfl
  · apply withBits_withRmem hm
    intros
    split <;> (apply withBits_withRmem hm; intros; rfl)

theorem deltaRead_withRmem : deltaRead (withRmem m s) = deltaRead s := by
  unfold deltaRead
  apply withBits_withRmem hm
  intro v q
  split
  · rfl
  · split
    · apply withBits_withRmem hm; intros; rfl
    · show (if s.prevValid then _ else _) = _
      split
      · apply withBits_withRmem hm; intros; rfl
      · rfl

end

end Sys2Proof.Machine
end

