-- ==== Sys2Proof/Machine/Assembler.lean ====
section
/-! DEFINITION. The assembler notation of 30_encoding.md R113 and the pseudo-instructions of R114: from the characters of one
line to the commands (CMD, DIN) it stands for, and back to the written form CMD/DIN. What R113 leaves open (letter case,
blanks, names, operands that do not fit their field) is in notes/assumptions/12.md. -/

namespace Sys2Proof.Machine

/-- A token of a line: a mnemonic, number or name; a character literal; a comma; the colon of SELECT's candidates. -/
inductive Token where
  | word (cs : List Char)
  | char (c : Char)
  | comma
  | colon
deriving DecidableEq, Repr

/-- The tokens found so far (last first), with the word that has just ended, if any. -/
def endWord (cur : List Char) (out : List Token) : List Token :=
  match cur with
  | [] => out
  | c :: cs => .word (c :: cs).reverse :: out

/-- The characters of words: mnemonics hold a full stop (WHDR.SEQ). -/
def wordChar (c : Char) : Bool := c.isAlphanum || c == '.' || c == '_'

/-- The tokens of a line; a semicolon starts a comment. -/
def tokens : List Char → (cur : List Char) → (out : List Token) → Option (List Token)
  | [], cur, out => some (endWord cur out).reverse
  | ';' :: _, cur, out => some (endWord cur out).reverse
  | ' ' :: rest, cur, out => tokens rest [] (endWord cur out)
  | ',' :: rest, cur, out => tokens rest [] (.comma :: endWord cur out)
  | ':' :: rest, cur, out => tokens rest [] (.colon :: endWord cur out)
  | '\'' :: c :: '\'' :: rest, cur, out => tokens rest [] (.char c :: endWord cur out)
  | c :: rest, cur, out => if wordChar c then tokens rest (c :: cur) out else none

/-- The value of a digit in a base. -/
def digitValue (base : Nat) (c : Char) : Option Nat :=
  let v :=
    if '0' ≤ c ∧ c ≤ '9' then c.toNat - 48
    else if 'a' ≤ c ∧ c ≤ 'f' then c.toNat - 87
    else if 'A' ≤ c ∧ c ≤ 'F' then c.toNat - 55
    else base
  if v < base then some v else none

/-- The number that digits write, after the value of those before them. -/
def digits (base : Nat) : List Char → Nat → Option Nat
  | [], acc => some acc
  | c :: cs, acc =>
    match digitValue base c with
    | some v => digits base cs (acc * base + v)
    | none => none

/-- number := decimal | 0x hex digits | 0b binary digits (R113). -/
def numberOf : List Char → Option Nat
  | '0' :: 'x' :: c :: cs => digits 16 (c :: cs) 0
  | '0' :: 'b' :: c :: cs => digits 2 (c :: cs) 0
  | c :: cs => digits 10 (c :: cs) 0
  | [] => none

/-- The names of RDREG's operand: the registers of 10_state.md R50 (R113). -/
def registerNames : List (String × Nat) :=
  [("STATUS", 0x00), ("WPOS", 0x01), ("RPOS", 0x02), ("RLEN", 0x03), ("PREV", 0x04), ("SELBEST", 0x05), ("SELCTRL", 0x06),
   ("WCAP", 0x07), ("RCAP", 0x08)]

/-- The names of CDLIT's literal indices (R113). -/
def literalNames : List (String × Nat) := [("SP", 0), ("COMMA", 1), ("DOT", 2), ("NL", 3)]

/-- The names of SOFFER's methods (R113). -/
def methodNames : List (String × Nat) := [("FIXED4", 2), ("FIXED5", 3), ("FIXED6", 4)]

/-- The number a name stands for in a list of names. -/
def nameValue (names : List (String × Nat)) (cs : List Char) : Option Nat :=
  (names.find? fun e => e.1.toList == cs).map Prod.snd

/-- operand := number | name (R113), where the mnemonic admits the names. -/
def operandValue (names : List (String × Nat)) : Token → Option Nat
  | .char c => some c.toNat
  | .word cs => (numberOf cs).or (nameValue names cs)
  | .comma => none
  | .colon => none

/-- operand, operand, ... The names stand for the first operand alone: R113 gives RDREG's, CDLIT's and SOFFER's names for r, i
and m. That a name in another operand (SOFFER's len) assembles nothing is the model's choice (DESIGN CHOICE,
notes/assumptions/12.md). -/
def operandList (names : List (String × Nat)) : List Token → Option (List Nat)
  | [] => some []
  | [t] => (operandValue names t).map ([·])
  | t :: .comma :: rest =>
    match operandValue names t, rest, operandList [] rest with
    | some v, _ :: _, some vs => some (v :: vs)
    | _, _, _ => none
  | _ :: _ :: _ => none

/-- How a mnemonic's operands fill ARG and DIN (R113). -/
inductive OperandForm where
  /-- no operand: ARG = 0, DIN = 0 -/
  | bare
  /-- one operand in ARG, DIN = 0 -/
  | arg
  /-- one operand in DIN, ARG = 0 -/
  | din
  /-- the first operand in ARG, the second in DIN -/
  | argDin
  /-- DIN = (first << 8) | second, ARG = 0 -/
  | pair
deriving DecidableEq, Repr

/-- The mnemonics with their opcode (R108), operand form and operand names (R113). -/
def mnemonicTable : List (String × BitVec 8 × OperandForm × List (String × Nat)) :=
  [("NOP", 0x00, .bare, []), ("INIT", 0x01, .bare, []), ("RDREG", 0x02, .arg, registerNames)] ++
  [("WCLR", 0x10, .bare, []), ("WBIT", 0x11, .din, []), ("WBITS", 0x12, .argDin, []), ("WBYTE", 0x13, .din, []),
   ("WLEN", 0x14, .bare, []), ("WPAD", 0x15, .bare, []), ("WBLEN", 0x16, .bare, []), ("WRDB", 0x17, .din, [])] ++
  [("RBIND", 0x20, .din, []), ("RLDB", 0x21, .pair, []), ("RBIT", 0x22, .bare, []), ("RBITS", 0x23, .arg, []),
   ("RBYTE", 0x24, .bare, []), ("RREM", 0x25, .bare, [])] ++
  [("PENC28", 0x30, .din, []), ("PENC5", 0x31, .din, []), ("PDEC28", 0x32, .bare, []), ("PDEC5", 0x33, .bare, [])] ++
  [("CAENC", 0x40, .din, []), ("CADEC", 0x41, .bare, []), ("CDENC", 0x42, .din, []), ("CDLIT", 0x43, .din, literalNames),
   ("CDLEAVE", 0x44, .bare, []), ("CDDEC", 0x45, .bare, [])] ++
  [("SINIT", 0x50, .din, []), ("SOFFER", 0x51, .argDin, methodNames), ("SFINAL", 0x52, .din, []),
   ("HCLASS", 0x53, .pair, [])]

/-- The command of an opcode with its operands, where each fits its field. -/
def fillOperands (op : BitVec 8) : OperandForm → List Nat → Option Command
  | .bare, [] => some (command op 0 0)
  | .arg, [a] => if a < 2 ^ 8 then some (command op (BitVec.ofNat 8 a) 0) else none
  | .din, [d] => if d < 2 ^ 32 then some (command op 0 (BitVec.ofNat 32 d)) else none
  | .argDin, [a, d] =>
    if a < 2 ^ 8 ∧ d < 2 ^ 32 then some (command op (BitVec.ofNat 8 a) (BitVec.ofNat 32 d)) else none
  | .pair, [k, b] => if k < 2 ^ 24 ∧ b < 2 ^ 8 then some (command op 0 (BitVec.ofNat 32 (k * 2 ^ 8 + b))) else none
  | _, _ => none

/-- The bytes of LOADVIEW. -/
def byteOperands : List Nat → Option (List Byte)
  | [] => some []
  | v :: vs =>
    match byteOperands vs with
    | some bs => if v < 2 ^ 8 then some (BitVec.ofNat 8 v :: bs) else none
    | none => none

/-- The candidates m:l, each followed by a comma, and the last operand u, of SELECT (R114). SELECT's m takes the names R113
gives SOFFER's m (DESIGN CHOICE, notes/assumptions/12.md). -/
def selectOperands : List Token → Option (List (BitVec 8 × Word) × Word)
  | [t] => (operandValue [] t).bind fun u => if u < 2 ^ 32 then some ([], BitVec.ofNat 32 u) else none
  | t :: .colon :: l :: .comma :: rest =>
    match operandValue methodNames t, operandValue [] l, selectOperands rest with
    | some m, some v, some (cs, u) =>
      if m < 2 ^ 8 ∧ v < 2 ^ 32 then some ((BitVec.ofNat 8 m, BitVec.ofNat 32 v) :: cs, u) else none
    | _, _, _ => none
  | _ => none

/-- The expansion of a pseudo-instruction (R114). That LOADVIEW with no byte (k = 0) assembles nothing, and so does one with
more bytes than RLDB's index reaches, is the model's choice (DESIGN CHOICE, notes/assumptions/12.md); WHDR.PACKED follows
R114's formula for every c. -/
def assemblePseudo (mnemonic : List Char) (ops : List Token) : Option (List Instr) :=
  if mnemonic = "WHDR.PACKED".toList then
    match operandList [] ops with
    | some [c] => some (headerPacked c)
    | _ => none
  else if mnemonic = "WHDR.SEQ".toList then (if ops = [] then some headerSequence else none)
  else if mnemonic = "WHDR.UNI".toList then (if ops = [] then some headerUnicode else none)
  else if mnemonic = "LOADVIEW".toList then
    match operandList [] ops with
    | some (v :: vs) => if vs.length < 2 ^ 24 then (byteOperands (v :: vs)).map loadView else none
    | _ => none
  else if mnemonic = "SELECT".toList then
    match ops with
    | t :: .comma :: rest =>
      match operandValue [] t, selectOperands rest with
      | some v, some (cs, u) => if v < 2 ^ 32 then some (select (BitVec.ofNat 32 v) cs u) else none
      | _, _ => none
    | _ => none
  else none

/-- The commands of a line of assembly; a blank or comment line has none (R113). -/
def assembleLine (line : String) : Option (List Command) :=
  match tokens line.toList [] [] with
  | none => none
  | some [] => some []
  | some (.word m :: ops) =>
    match mnemonicTable.find? (fun e => e.1.toList == m) with
    | some (_, op, form, names) =>
      match operandList names ops with
      | some vs => (fillOperands op form vs).map ([·])
      | none => none
    | none => (assemblePseudo m ops).map fun is => is.map encode
  | some (_ :: _) => none

/-- A hex digit as R113 writes it. -/
def hexDigit (v : Nat) : Char := if v < 10 then Char.ofNat (48 + v) else Char.ofNat (55 + v)

/-- The n low hex digits of v, the highest first. -/
def hexDigits (v : Nat) : Nat → List Char
  | 0 => []
  | n + 1 => hexDigits (v / 16) n ++ [hexDigit (v % 16)]

/-- The assembled form CMD/DIN of a command (R113). -/
def renderCommand (c : Command) : String := String.ofList (hexDigits c.cmd.toNat 4 ++ '/' :: hexDigits c.din.toNat 8)

end Sys2Proof.Machine
end

