-- ==== Sys2Proof/Tests/Slice0.lean ====
section
/-! SUPPORT. The model's own tests: the WellFormed smoke, decoding of words written out from 30_encoding.md, one-step tests
whose expected values are those of 95_test_vectors.md or of a rule's own example (named at each), and for every obligation
with hypotheses a witness that meets them. -/

namespace Sys2Proof.Tests

open Sys2Proof Sys2Proof.Machine Sys2Proof.Safety

/-! ### Small states -/

/-- After power-on reset, in the test configuration of 95 §2. -/
def fresh : State := State.reset

/-- The next state, if the answer is one. -/
def nextOf : Answer → Option State
  | .next t => some t
  | .fault _ => none
  | .refused _ => none

/-- The state after one step that accepts the command (CMD, DIN). -/
def after (cmd : BitVec 16) (din : Word) (s : State) : Option State := nextOf (step { s with pending := [⟨cmd, din⟩] })

/-- DOUT after one command. -/
def doutAfter (cmd : BitVec 16) (din : Word) (s : State) : Option Word := (after cmd din s).map State.dout

/-- STATUS after one command. -/
def statusAfter (cmd : BitVec 16) (din : Word) (s : State) : Option Word := (after cmd din s).map statusWord

/-- The writer after one command. -/
def writerAfter (cmd : BitVec 16) (din : Word) (s : State) : Option (Memory × Nat) :=
  (after cmd din s).map fun t => (t.wmem, t.wpos)

/-- A writer that holds these bytes, the position at p. -/
def writer (m : Memory) (p : Nat) : State := { fresh with wmem := m, wpos := p }

/-- A bound view of these bytes (none of them 0x00), the cursor at p. -/
def view (bytes : List Byte) (p : Nat) : State :=
  { fresh with rmem := (List.range bytes.length).zip bytes, rlen := bytes.length, rpos := p }

/-- The previous codepoint set. -/
def previous (c : Codepoint) (s : State) : State := { s with prevCp := c, prevValid := true }

/-- A selection under way. -/
def selecting (l : Word) (m : Method) : State := { fresh with bestLen := l, bestMethod := m, selValid := true }

/-- Faulted by a READ_OVERRUN. -/
def stuck (s : State) : State := { s with fault := true, cause := .readOverrun }

/-- A capacity of one byte for the writer. -/
def small (s : State) : State := { s with cfg := { s.cfg with wcap := 1 } }

/-- EX5I of 95 §2.3, well-formed but incomplete, as the 5-symbol table. -/
def incomplete (s : State) : State :=
  { s with cfg := { s.cfg with pc5 := #v[⟨2, 0⟩, ⟨2, 2⟩, ⟨3, 1⟩, ⟨3, 5⟩, ⟨3, 3⟩] } }

theorem eq_of_nextOf {o : Answer} {t : State} (h : nextOf o = some t) : o = .next t := by
  cases o <;> simp_all [nextOf]

/-! ### WellFormed -/

theorem test_reserved_register_is_ill_formed : (Instr.rdreg 0x09).wf = false ∧ (Instr.rdreg 0xFF).wf = false := by decide

theorem test_last_register_is_well_formed : (Instr.rdreg 0x08).wf = true := by decide

/-! ### Decoding: words written out from the opcode map (30_encoding.md R108), OP above ARG -/

theorem test_decode_control :
    decode ⟨0b0000000000000000#16, 7⟩ = .ok .nop ∧
    decode ⟨0b0000000100000000#16, 0⟩ = .ok .init ∧
    decode ⟨0b0000001000000110#16, 0⟩ = .ok (.rdreg 6) := ⟨rfl, rfl, rfl⟩

theorem test_decode_writer :
    decode ⟨0b0001000000000000#16, 0⟩ = .ok .wclr ∧
    decode ⟨0b0001000100000000#16, 0b11#32⟩ = .ok (.wbit true) ∧
    decode ⟨0b0001001000000101#16, 0x15⟩ = .ok (.wbits 5 0x15) ∧
    decode ⟨0b0001001100000000#16, 0x123456C1⟩ = .ok (.wbyte 0xC1) ∧
    decode ⟨0b0001010000000000#16, 0⟩ = .ok .wlen ∧
    decode ⟨0b0001010100000000#16, 0⟩ = .ok .wpad ∧
    decode ⟨0b0001011000000000#16, 0⟩ = .ok .wblen ∧
    decode ⟨0b0001011100000000#16, 0x0A⟩ = .ok (.wrdb 0x0A) := ⟨rfl, rfl, rfl, rfl, rfl, rfl, rfl, rfl⟩

theorem test_decode_reader :
    decode ⟨0b0010000000000000#16, 0x0B⟩ = .ok (.rbind 0x0B) ∧
    decode ⟨0b0010000100000000#16, 0x00000A1A⟩ = .ok (.rldb 0x00000A 0x1A) ∧
    decode ⟨0b0010001000000000#16, 0⟩ = .ok .rbit ∧
    decode ⟨0b0010001100100000#16, 0⟩ = .ok (.rbits 32) ∧
    decode ⟨0b0010010000000000#16, 0⟩ = .ok .rbyte ∧
    decode ⟨0b0010010100000000#16, 0⟩ = .ok .rrem := ⟨rfl, rfl, rfl, rfl, rfl, rfl⟩

theorem test_decode_prefix :
    decode ⟨0b0011000000000000#16, 0x09⟩ = .ok (.penc28 9) ∧
    decode ⟨0b0011000100000000#16, 0x03⟩ = .ok (.penc5 3) ∧
    decode ⟨0b0011001000000000#16, 0⟩ = .ok .pdec28 ∧
    decode ⟨0b0011001100000000#16, 0⟩ = .ok .pdec5 := ⟨rfl, rfl, rfl, rfl⟩

theorem test_decode_codepoint :
    decode ⟨0b0100000000000000#16, 0x6839⟩ = .ok (.caenc 0x6839) ∧
    decode ⟨0b0100000100000000#16, 0⟩ = .ok .cadec ∧
    decode ⟨0b0100001000000000#16, 0x636E⟩ = .ok (.cdenc 0x636E) ∧
    decode ⟨0b0100001100000000#16, 0x01⟩ = .ok (.cdlit 1) ∧
    decode ⟨0b0100010000000000#16, 0⟩ = .ok .cdleave ∧
    decode ⟨0b0100010100000000#16, 0⟩ = .ok .cddec := ⟨rfl, rfl, rfl, rfl, rfl, rfl⟩

theorem test_decode_selector :
    decode ⟨0b0101000000000000#16, 0x0B⟩ = .ok (.sinit 0x0B) ∧
    decode ⟨0b0101000100000011#16, 0x0F⟩ = .ok (.soffer 3 0x0F) ∧
    decode ⟨0b0101001000000000#16, 0x0C⟩ = .ok (.sfinal 0x0C) ∧
    decode ⟨0b0101001100000000#16, 0x00000BC1⟩ = .ok (.hclass 0x00000B 0xC1) := ⟨rfl, rfl, rfl, rfl⟩

/-- No two rows of the opcode table share a word: two rows differ in a bit that both fix. -/
theorem test_opcode_rows_disjoint :
    opcodeTable.Pairwise (fun r q => (r.pattern ^^^ q.pattern) &&& (r.mask &&& q.mask) ≠ 0) := by decide

theorem test_opcode_table_has_31_rows : opcodeTable.length = 31 := rfl

/-- The table's numbering: CMD in bits 15..0, DIN from bit 16; a row of 16 bits leaves DIN 0. -/
theorem test_table_words :
    decodeTableWord 48 0x000000151205 = some (.wbits 5 0x15) ∧ decodeTableWord 16 0x1205 = some (.wbits 5 0) ∧
    decodeTableWord 16 0x5400 = none := ⟨rfl, rfl, rfl⟩

/-- The host's placement of a word: the next step runs it. -/
theorem test_fetch_word :
    (nextOf (step (fresh.withFetchWord 48 0x000000151205))).map (fun t => (t.wmem, t.wpos, t.pending)) =
      some ([(0, 0x15)], 5, []) := by decide

/-! ### The assembler (30_encoding.md R113, R114; the forms are those of 95 §1.1, §3.2, §4) -/

theorem test_assemble_wbits : (assembleLine "WBITS 5, 0x15 ; five bits").map (·.map renderCommand) = some ["1205/00000015"] := by
  decide

theorem test_assemble_loadview :
    (assembleLine "LOADVIEW 0xC0, 0x75").map (·.map renderCommand) =
      some ["2100/000000C0", "2100/00000175", "2000/00000002"] := by decide

theorem test_assemble_header : (assembleLine "WHDR.PACKED 0x76").map (·.map renderCommand) =
    some ["1300/000000B6", "1100/00000001"] := by decide

/-- R113 names FIXED4 for SOFFER's m; in len it assembles nothing, and neither does LOADVIEW with no byte (log entry 12). -/
theorem test_assemble_names :
    (assembleLine "SOFFER FIXED4, 9").map (·.map renderCommand) = some ["5102/00000009"] ∧
    assembleLine "SOFFER 2, FIXED4" = none ∧ assembleLine "LOADVIEW" = none := by decide

theorem test_assemble_select : (assembleLine "SELECT 20, FIXED5:15, 4:12, 13").map (·.map renderCommand) =
    some ["5000/00000014", "5103/0000000F", "5104/0000000C", "5200/0000000D"] := by decide

/-! ### One step of each command -/

/-- R130 -/
theorem test_nop : after 0x0000 5 (writer [(0, 0x15)] 5) = some (writer [(0, 0x15)] 5) := by decide
/-- 95 CT3 -/
theorem test_nop_with_arg_is_illegal : statusAfter 0x0001 0 fresh = some 0x0801 := by decide
/-- R131 example -/
theorem test_init : (after 0x0100 0 (stuck (writer [(0, 0xFF)] 13))).map (fun t => (t.wpos, statusWord t, t.dout)) =
    some (0, 0, 0) := by decide
/-- 95 CT7, CT1 -/
theorem test_rdreg : doutAfter 0x0204 0 (previous 0x7F fresh) = some 0x8000007F ∧ doutAfter 0x0207 0 fresh = some 0x10 := by
  decide
/-- 95 CT8, CT2 -/
theorem test_rdreg_selctrl :
    doutAfter 0x0206 0 { selecting 12 .fixed6 with resMethod := .fixed6, resSuccess := true, resValid := true } = some 0x3414 ∧
    statusAfter 0x0209 0 fresh = some 0x0801 := by decide
/-- 95 BW7 -/
theorem test_wclr : writerAfter 0x1000 0 (writer [(0, 0xBC), (1, 0x0A)] 12) = some ([], 0) := by decide
/-- 95 BW5 (0 is appended) and the third WBIT of R141's example -/
theorem test_wbit : writerAfter 0x1100 2 fresh = some ([], 1) ∧ writerAfter 0x1100 1 (writer [(0, 0x01)] 2) = some ([(0, 0x05)], 3) := by
  decide
/-- 95 BW14 -/
theorem test_wbit_full : statusAfter 0x1100 1 (small (writer [(0, 0xAB)] 8)) = some 0x0401 := by decide
/-- 95 BW2 -/
theorem test_wbits : writerAfter 0x1220 0xFFFFFFFF (writer [] 3) =
    some ([(0, 0xF8), (1, 0xFF), (2, 0xFF), (3, 0xFF), (4, 0x07)], 35) := by decide
/-- 95 BW6, BW15, BW16 -/
theorem test_wbits_checks : writerAfter 0x1203 0xFF fresh = some ([(0, 0x07)], 3) ∧
    (after 0x1204 0xA (small (writer [(0, 0x15)] 5))).map (fun t => (statusWord t, t.wmem, t.wpos)) =
      some (0x0401, [(0, 0x15)], 5) ∧
    statusAfter 0x1200 0 (small (writer [(0, 0xAB)] 8)) = some 0x0101 := by decide
/-- R143 example -/
theorem test_wbyte : writerAfter 0x1300 0xFF (writer [(0, 0x05)] 3) = some ([(0, 0xFD), (1, 0x07)], 11) := by decide
/-- R144 example -/
theorem test_wlen : doutAfter 0x1400 0 (writer [(0, 0x15)] 5) = some 5 := by decide
/-- 95 BW9, BW10; §1.4 -/
theorem test_wpad : doutAfter 0x1500 0 (writer [] 12) = some 4 ∧ doutAfter 0x1500 0 (writer [] 1) = some 7 ∧
    doutAfter 0x1500 0 (writer [] 16) = some 0 := by decide
/-- 95 §1.4 -/
theorem test_wblen : [0, 1, 8, 9].map (fun p => doutAfter 0x1600 0 (writer [] p)) = [some 0, some 1, some 1, some 2] := by
  decide
/-- 95 BW17 -/
theorem test_wrdb : doutAfter 0x1700 1 (writer [(0, 0x55), (1, 0x01)] 9) = some 0x01 ∧
    statusAfter 0x1700 2 (writer [(0, 0x55), (1, 0x01)] 9) = some 0x0101 := by decide
/-- 95 BR9, and BR12 with the capacity 16 of 95 §2 -/
theorem test_rbind : (after 0x2000 2 (view [0x55, 0x01] 1)).map (fun t => (t.rlen, t.rpos)) = some (2, 0) ∧
    (after 0x2000 16 fresh).map State.rlen = some 16 ∧ statusAfter 0x2000 17 fresh = some 0x0101 := by decide
/-- R161 example, and BR13 with the capacity 16 of 95 §2 -/
theorem test_rldb : (after 0x2100 0x00000101 fresh).map State.rmem = some [(1, 0x01)] ∧
    statusAfter 0x2100 0x00001000 fresh = some 0x0101 := by decide
/-- 95 BR11, BR4 -/
theorem test_rbit : (after 0x2200 0 (view [0x80] 7)).map (fun t => (t.dout, t.rpos)) = some (1, 8) ∧
    statusAfter 0x2200 0 fresh = some 0x0301 := by decide
/-- 95 BR1, BR6 -/
theorem test_rbits : doutAfter 0x2320 0 (view [0xEF, 0xBE, 0xAD, 0xDE] 0) = some 0xDEADBEEF ∧
    (after 0x2304 0 (view [0x55, 0x01] 5)).map (fun t => (t.dout, t.rpos)) = some (0xA, 9) := by decide
/-- 95 BR7, BR3 -/
theorem test_rbits_checks :
    (after 0x2308 0 (view [0x55, 0x01] 9)).map (fun t => (statusWord t, t.rpos)) = some (0x0301, 9) ∧
    statusAfter 0x2321 0 (view [0x55, 0x01] 0) = some 0x0101 := by decide
/-- 95 BR10 -/
theorem test_rbyte : doutAfter 0x2400 0 (view [0x55, 0x01] 1) = some 0xAA := by decide
/-- R165 example -/
theorem test_rrem : doutAfter 0x2500 0 (view [0x55, 0x01] 5) = some 11 := by decide
/-- 95 PC1, PC4 -/
theorem test_penc28 : writerAfter 0x3000 9 fresh = some ([(0, 0x15)], 5) ∧ statusAfter 0x3000 28 fresh = some 0x0201 := by
  decide
/-- 95 PC3, PC5 -/
theorem test_penc5 : writerAfter 0x3100 3 fresh = some ([(0, 0x03)], 3) ∧ statusAfter 0x3100 5 fresh = some 0x0201 := by
  decide
/-- 95 PC6, PC8 -/
theorem test_pdec28 : (after 0x3200 0 (view [0x15] 0)).map (fun t => (t.dout, t.rpos)) = some (9, 5) ∧
    (after 0x3200 0 (view [0xFF] 1)).map (fun t => (statusWord t, t.rpos)) = some (0x0301, 1) := by decide
/-- 95 PC9: a 3-bit code with 3 bits left -/
theorem test_pdec28_short : (after 0x3200 0 { fresh with rlen := 1, rpos := 5 }).map (fun t => (t.dout, t.rpos)) = some (0, 8) := by
  decide
/-- 95 PC10 -/
theorem test_pdec5 : (after 0x3300 0 (view [0x03] 0)).map (fun t => (t.dout, t.rpos)) = some (3, 3) ∧
    (after 0x3300 0 (view [0x03] 3)).map (fun t => (t.dout, t.rpos)) = some (0, 5) := by decide
/-- 95 PC12, PC13 -/
theorem test_pdec5_incomplete : (after 0x3300 0 (incomplete (view [0x07] 0))).map (fun t => (statusWord t, t.rpos)) = some (0x0501, 0) ∧
    doutAfter 0x3300 0 (incomplete (view [0x03] 0)) = some 4 := by decide
/-- 95 §3.5, tiers A and B -/
theorem test_caenc : writerAfter 0x4000 0x7F fresh = some ([(0, 0x09)], 9) ∧
    (after 0x4000 0xE9 fresh).map (fun t => (t.wmem, t.wpos, t.prevCp, t.prevValid)) =
      some ([(0, 0x3A), (1, 0x01)], 16, 0xE9, true) := by decide
/-- 95 §3.5, tier C; CA1 -/
theorem test_caenc_raw : writerAfter 0x4000 0x409B fresh = some ([(0, 0x6C), (1, 0x02), (2, 0x01)], 23) ∧
    statusAfter 0x4000 0xD800 fresh = some 0x0201 := by decide
/-- 95 CA8, CA5 -/
theorem test_cadec : (after 0x4100 0 (view [0xFE, 0xFF] 0)).map (fun t => (t.dout, t.rpos, t.prevCp)) = some (0x409A, 16, 0x409A) ∧
    statusAfter 0x4100 0 (view [0x01] 0) = some 0x0301 := by decide
/-- 95 CA4, CA6 -/
theorem test_cadec_bad : statusAfter 0x4100 0 { view [0x41] 0 with rlen := 2 } = some 0x0601 ∧
    statusAfter 0x4100 0 { fresh with rmem := [(2, 0x44)], rlen := 3 } = some 0x0601 := by decide
/-- 95 §3.6: δ = −1227 and δ = +128 -/
theorem test_cdenc : (after 0x4200 0x636E (previous 0x6839 fresh)).map (fun t => (t.wmem, t.wpos, t.prevCp)) =
      some ([(0, 0x5C), (1, 0x22)], 17, 0x636E) ∧
    writerAfter 0x4200 0xC1 (previous 0x41 fresh) = some ([(0, 0x01)], 17) := by decide
/-- 95 CD1, CD2 -/
theorem test_cdenc_checks : statusAfter 0x4200 0x41 fresh = some 0x0701 ∧ statusAfter 0x4200 0xD800 fresh = some 0x0201 := by
  decide
/-- 95 CD3, CD4 -/
theorem test_cdlit : writerAfter 0x4300 1 fresh = some ([(0, 0x0F)], 5) ∧ statusAfter 0x4300 4 (previous 0x41 fresh) = some 0x0101 := by
  decide
/-- 95 CD5 -/
theorem test_cdleave : writerAfter 0x4400 0 fresh = some ([(0, 0x06)], 3) := by decide
/-- 95 CD7, CD16 -/
theorem test_cddec : (after 0x4500 0 (view [0x0F] 0)).map (fun t => (t.dout, t.rpos, t.prevValid)) = some (0x0100002C, 5, false) ∧
    (after 0x4500 0 { previous 0x41 (view [0x0B] 0) with rlen := 2 }).map (fun t => (t.dout, t.rpos, t.prevCp)) =
      some (0x40, 10, 0x40) := by decide
/-- 95 CD12, CD8 -/
theorem test_cddec_bad : statusAfter 0x4500 0 { previous 0xD7FF (view [0x08] 0) with rlen := 2 } = some 0x0601 ∧
    statusAfter 0x4500 0 { fresh with rlen := 1 } = some 0x0701 := by decide
/-- R231 -/
theorem test_sinit : (after 0x5000 11 fresh).map (fun t => (t.bestLen, t.bestMethod, t.selValid)) = some (11, .treeSquash, true) := by
  decide
/-- 95 SL9, SL8 -/
theorem test_soffer : (after 0x5102 20 (selecting 20 .treeSquash)).map (fun t => (t.bestLen, t.bestMethod)) = some (20, .treeSquash) ∧
    (after 0x5104 12 (selecting 15 .fixed5)).map (fun t => (t.bestLen, t.bestMethod)) = some (12, .fixed6) := by decide
/-- 95 SL1, SL3 -/
theorem test_soffer_checks : statusAfter 0x5103 5 fresh = some 0x0201 ∧ statusAfter 0x5105 5 fresh = some 0x0101 := by decide
/-- 95 SL11, SL5 -/
theorem test_sfinal : doutAfter 0x5200 0xFFFFFFFF (selecting 0xFFFFFFFE .fixed4) = some 0x102 ∧
    doutAfter 0x5200 10 (selecting 10 .treeSquash) = some 0 := by decide
/-- 95 §1.1, §1.2 -/
theorem test_hclass : doutAfter 0x5300 0x000002B6 fresh = some 0x00013602 ∧ doutAfter 0x5300 0x000001C1 fresh = some 1 ∧
    doutAfter 0x5300 0x000002F8 fresh = some 0x00040305 ∧ doutAfter 0x5300 0xFFFFFFFF fresh = some 0x00020009 := by decide

/-! ### Witnesses: for every obligation with hypotheses, concrete values that meet them, each clause at a boundary -/

/-- A state in the middle of a call: 5 bits written, a view of 2 bytes read up to its last bit, a previous codepoint, a
selection with a valid result, a command to come. -/
def midCall : State :=
  { fresh with
    dout := 7, wmem := [(0, 0x15)], wpos := 5, rmem := [(0, 0x55), (1, 0x01)], rlen := 2, rpos := 15,
    prevCp := 0x10FFFF, prevValid := true, bestLen := 9, bestMethod := .fixed5, selValid := true,
    resMethod := .fixed5, resSuccess := true, resValid := true, pending := [⟨0x2200, 0⟩] }

theorem test_config_well_formed : configWf Config.test := by decide

/-- EX5I keeps the premises on the configuration (95 §2.3). -/
theorem test_incomplete_table_well_formed : configWf (incomplete fresh).cfg := by decide

theorem witness_invariant : MachineInv midCall where
  config := test_config_well_formed
  writerForm := by decide
  writerWithin := by decide
  viewForm := by decide
  viewWithin := by decide
  writerRange := by decide
  writerZeros := by
    intro p hp
    by_cases h : p < 8
    · have hp' : 5 ≤ p := hp
      interval_cases p <;> rfl
    · have : Memory.read midCall.wmem (p / 8) = Memory.background := by
        have h0 : p / 8 ≠ 0 := by omega
        simp [midCall, Memory.read, h0]
      simp [Memory.bit, this, Memory.background]
  viewLength := by decide
  viewRange := by decide
  prevScalar := by decide
  causeWithFault := by decide
  resultValid := by decide
  selectionMethod := by decide

/-- A draw that lists the last byte of RMEM. -/
theorem witness_PowerOnSatisfiesTheInvariant : ∃ (cfg : Config) (rmem : Memory), configWf cfg ∧ rmem.wf ∧ rmem.within cfg.rcap ∧ rmem ≠ [] :=
  ⟨Config.test, [(15, 1)], test_config_well_formed, by decide, by decide, by decide⟩

theorem witness_StepKeepsTheInvariant : MachineInv midCall ∧ ∃ t, step midCall = .next t ∧ t.rpos = 16 :=
  ⟨witness_invariant, _, rfl, rfl⟩

theorem witness_StepExecutesTheDecodedCommand :
    (∃ (s : State) (c : Command) (rest : List Command) (i : Instr), s.pending = c :: rest ∧ decode c = .ok i) ∧
    fresh.pending = [] ∧ decodeTableWord 48 0xFFFFFFFF5300 = some (.hclass 0xFFFFFF 0xFF) :=
  ⟨⟨midCall, ⟨0x2200, 0⟩, [], .rbit, rfl, rfl⟩, rfl, rfl⟩

theorem witness_IllegalWordRaisesIllegalCommand :
    live { midCall with pending := [⟨0x0209, 0⟩] } ∧
    (∀ cmd ∈ [0x0001#16, 0x00FF#16, 0x0209#16, 0x02FF#16, 0x0300#16, 0x1001#16, 0x5400#16, 0x5401#16, 0xFF00#16], illegalCmd cmd) ∧
    (∀ cmd ∈ [0x0000#16, 0x0200#16, 0x0208#16, 0x1200#16, 0x12FF#16, 0x23FF#16, 0x51FF#16, 0x5300#16], ¬ illegalCmd cmd) := by
  refine ⟨rfl, ?_, ?_⟩ <;> simp [illegalCmd, formatZOpcodes, countOrMethodOpcodes]

theorem witness_ReservedSpaceIsIllegal :
    live { midCall with pending := [⟨0x0300, 0⟩] } ∧
    (∀ cmd ∈ [0x0300#16, 0x0F00#16, 0x1800#16, 0x1F00#16, 0x2600#16, 0x2F00#16, 0x3400#16, 0x3F00#16, 0x4600#16, 0x4F00#16,
      0x5400#16, 0xFFFF#16, 0x5301#16, 0x0209#16], reservedCmd cmd) ∧
    (∀ cmd ∈ [0x0208#16, 0x1000#16, 0x1700#16, 0x2000#16, 0x2500#16, 0x3000#16, 0x3300#16, 0x4000#16, 0x4500#16, 0x5000#16,
      0x5300#16], ¬ reservedCmd cmd) := by
  refine ⟨rfl, ?_, ?_⟩ <;> simp [reservedCmd, formatZOpcodes]

theorem witness_DecodeOfEncodeIsTheInstruction :
    (Instr.rdreg 8).wf = true ∧ (Instr.wbits 255 0xFFFFFFFF).wf = true ∧ (Instr.rldb 0xFFFFFF 0xFF).wf = true := by decide

theorem witness_DecodedCommandIsTheEncodedCommand : decode ⟨0x1300, 0xFFFFFFC1⟩ = .ok (.wbyte 0xC1) := rfl

theorem witness_DecodeFollowsTheOpcodeTable :
    decode ⟨0x12FF, 0⟩ = .ok (.wbits 255 0) ∧ rowArg "RDREG" .r 0x02 ∈ opcodeTable ∧
    0x0208#16 &&& (rowArg "RDREG" .r 0x02).mask = (rowArg "RDREG" .r 0x02).pattern ∧ (0x0208#16).toNat % 256 ≤ 8 := by
  refine ⟨rfl, ?_⟩; decide

theorem witness_FaultedSsbcExecutesOnlyThreeCommands :
    (stuck midCall).fault = true ∧ 0x0208#16 = 0x02#8 ++ 0x08#8 ∧
    (∀ cmd ∈ [0x0001#16, 0x01FF#16, 0x0209#16, 0x0300#16, 0x1000#16], cmd ≠ 0x0000#16 ∧ cmd ≠ 0x0100#16 ∧
      ¬ (0x0200 ≤ cmd.toNat ∧ cmd.toNat ≤ 0x0208)) := ⟨rfl, rfl, by simp⟩

/-- A live state and a command that ends in a fault. -/
theorem witness_FaultChangesOnlyStatus :
    live fresh ∧ ∃ t, exec .rbit fresh = .next t ∧ t.fault = true ∧ t.cause = .readOverrun := ⟨rfl, _, rfl, rfl, rfl⟩

theorem witness_CommandsRaiseOnlyTheirCauses :
    live fresh ∧ ∃ t, exec (.rdreg 9) fresh = .next t ∧ t.fault = true ∧ t.cause = .illegalCommand := ⟨rfl, _, rfl, rfl, rfl⟩

theorem witness_FirstCauseIsKeptUntilInit :
    (∃ t, step (stuck midCall) = .next t ∧ t.fault = true ∧ t.cause = .readOverrun) ∧
    (∃ t, step { stuck midCall with pending := [⟨0x0100, 0⟩] } = .next t ∧ t.fault = false) := ⟨⟨_, rfl, rfl, rfl⟩, _, rfl, rfl⟩

theorem witness_DoutIsWrittenOnlyByResultCommands :
    ∃ t, exec (.wbit true) midCall = .next t ∧ Instr.wbit true ≠ .init ∧ writesDout (.wbit true) = false ∧ t.dout = 7 :=
  ⟨_, rfl, by decide, rfl, rfl⟩

theorem witness_OnlyWclrAndInitShrinkTheWriter :
    midCall.wmem.wf ∧ live midCall ∧ (∃ t, exec .wclr midCall = .next t ∧ t.wpos < midCall.wpos) ∧
    (∃ t, exec (.wbit true) midCall = .next t ∧ t.wpos = 6) := ⟨by decide, rfl, ⟨_, rfl, by decide⟩, _, rfl, rfl⟩

theorem witness_TablesAndParametersNeverChange : ∃ t, step { midCall with pending := [⟨0x0100, 0⟩] } = .next t ∧ t.wpos = 0 :=
  ⟨_, rfl, rfl⟩

theorem witness_UnitsWriteOnlyTheirOwnState :
    (∃ t, exec .cddec midCall = .next t) ∧ appends .cddec = false ∧ selects .cddec = false ∧
    (∃ t, exec (.soffer 2 8) midCall = .next t ∧ t.bestLen = 8) ∧ readsView (.soffer 2 8) = false ∧
    writesPrev (.soffer 2 8) = false := ⟨⟨_, rfl⟩, rfl, rfl, ⟨_, rfl, rfl⟩, rfl, rfl⟩

/-- A memory that differs from the view's only past its end, at byte 2. -/
theorem witness_NothingPastTheViewIsRead :
    (∀ p, p < 8 * midCall.rlen → Memory.bit [(0, 0x55), (1, 0x01), (2, 0xFF)] p = midCall.rmem.bit p) ∧
    ∃ t, exec .rbit midCall = .next t ∧ t.rpos = 16 := ⟨by decide, _, rfl, rfl⟩

/-- Format Z of any opcode, here that of RREM: an ARG other than 0, live and faulted. -/
theorem witness_zCommand :
    (1#8 ≠ 0#8) ∧ (255#8 ≠ 0#8) ∧ { midCall with pending := [command 0x25 255 0] }.pending = [command 0x25 255 0] ∧
    live midCall ∧ (stuck midCall).fault = true := by decide

theorem witness_RdregReadsTheRegisterMap :
    (∀ r ∈ [0#8, 1#8, 2#8, 3#8, 4#8, 5#8, 6#8, 7#8, 8#8], r.toNat ≤ 8) ∧ 9 ≤ (9#8).toNat ∧ 9 ≤ (255#8).toNat ∧
    live midCall ∧ (stuck midCall).fault = true := ⟨by simp, by decide, by decide, rfl, rfl⟩

theorem witness_WclrEmptiesTheWriter : live midCall := rfl

theorem witness_WbitAppendsOneBit :
    live (writer [(0, 0xFF)] 127) ∧ (writer [(0, 0xFF)] 127).wmem.wf ∧ 127 + 1 ≤ 8 * fresh.cfg.wcap ∧
    live (writer [(0, 0xFF)] 128) ∧ (writer [(0, 0xFF)] 128).wmem.wf ∧ 8 * fresh.cfg.wcap < 128 + 1 := by decide

theorem witness_WbitsAppendsTheLowBits :
    live (writer [] 96) ∧ (writer [] 96).wmem.wf ∧ ((0#8).toNat < 1 ∧ 32 < (33#8).toNat) ∧
    (1 ≤ (32#8).toNat ∧ (32#8).toNat ≤ 32 ∧ 96 + (32#8).toNat ≤ 8 * fresh.cfg.wcap) ∧
    (1 ≤ (1#8).toNat ∧ (1#8).toNat ≤ 32 ∧ 127 + (1#8).toNat ≤ 8 * fresh.cfg.wcap) ∧
    8 * fresh.cfg.wcap < 97 + (32#8).toNat := by decide

theorem witness_WbyteAppendsAByte :
    live (writer [] 120) ∧ (writer [] 120).wmem.wf ∧ 120 + 8 ≤ 8 * fresh.cfg.wcap ∧ (writer [] 120).wpos % 8 = 0 ∧
    8 * fresh.cfg.wcap < 121 + 8 := by decide

theorem witness_WriterReportsItsLengths : live fresh ∧ live (writer [] 127) := by decide

theorem witness_WrdbReadsTheSnapshot :
    live midCall ∧ 8 * (0#32).toNat < midCall.wpos ∧ midCall.wpos ≤ 8 * (1#32).toNat ∧
    (snapshot midCall).getLast? = some 0x15 ∧ midCall.wpos % 8 ≠ 0 ∧ midCall.wpos % 8 ≤ 5 := by decide

theorem witness_RbindBindsTheView :
    live fresh ∧ (16#32).toNat ≤ fresh.cfg.rcap ∧ (0#32).toNat ≤ fresh.cfg.rcap ∧ fresh.cfg.rcap < (17#32).toNat := by decide

theorem witness_RldbLoadsOneByte :
    live midCall ∧ midCall.rmem.wf ∧ (15#24).toNat < midCall.cfg.rcap ∧ midCall.cfg.rcap ≤ (16#24).toNat := by decide

/-- The last bit, and one bit too many; the last byte, and one bit short of it. -/
theorem witness_RbitAndRbyteReadFields :
    live midCall ∧ (view [0x55, 0x01] 15).rpos + 1 ≤ 8 * (view [0x55, 0x01] 15).rlen ∧
    8 * (view [0x55, 0x01] 16).rlen < (view [0x55, 0x01] 16).rpos + 1 ∧
    (view [0x55, 0x01] 8).rpos + 8 ≤ 8 * (view [0x55, 0x01] 8).rlen ∧
    8 * (view [0x55, 0x01] 9).rlen < (view [0x55, 0x01] 9).rpos + 8 := by decide

theorem witness_RbitsReadsAField :
    1 ≤ (1#8).toNat ∧ (32#8).toNat ≤ 32 ∧ live midCall ∧ (0#8).toNat < 1 ∧ 32 < (33#8).toNat ∧
    (view [0x55, 0x01, 0x02, 0x03] 0).rpos + 32 ≤ 8 * (view [0x55, 0x01, 0x02, 0x03] 0).rlen ∧
    8 * (view [0x55, 0x01, 0x02, 0x03] 1).rlen < (view [0x55, 0x01, 0x02, 0x03] 1).rpos + 32 := by decide

theorem witness_RremReportsTheRemainingBits :
    live midCall ∧ midCall.rpos ≤ 8 * midCall.rlen ∧ (view [0x55] 8).rpos ≤ 8 * (view [0x55] 8).rlen := by decide

/-- The last symbols, with 8 and 3 bits of room and one bit less; the first indices outside the tables. -/
theorem witness_PencAppendsTheCodeword :
    live (writer [] 120) ∧ (writer [] 120).wmem.wf ∧
    120 + (codeword fresh.cfg.pc28 27).length ≤ 8 * fresh.cfg.wcap ∧ 8 * fresh.cfg.wcap < 121 + (codeword fresh.cfg.pc28 27).length ∧
    125 + (codeword fresh.cfg.pc5 4).length ≤ 8 * fresh.cfg.wcap ∧ 8 * fresh.cfg.wcap < 126 + (codeword fresh.cfg.pc5 4).length ∧
    28 ≤ (28#32).toNat ∧ 5 ≤ (5#32).toNat := by decide

/-- A codeword that fills the view, a view that ends inside one, and with EX5I bits that no codeword begins with. -/
theorem witness_PdecDecodesTheCodeword :
    prefixTableWf fresh.cfg.pc28 8 ∧ prefixTableWf fresh.cfg.pc5 3 ∧
    viewHolds (view [0xFF] 0) 0 (codeword fresh.cfg.pc28 27) ∧ viewHolds (view [0x07] 0) 0 (codeword fresh.cfg.pc5 4) ∧
    (viewRest (view [0xFF] 1) <+: codeword fresh.cfg.pc28 27 ∧ viewRest (view [0xFF] 1) ≠ codeword fresh.cfg.pc28 27) ∧
    (viewRest (view [0xFF] 6) <+: codeword fresh.cfg.pc5 4 ∧ viewRest (view [0xFF] 6) ≠ codeword fresh.cfg.pc5 4) ∧
    prefixTableWf (incomplete fresh).cfg.pc5 3 ∧ 3 ≤ (viewRest (incomplete (view [0x07] 0))).length ∧
    (∀ sym : Fin 5, ¬ (viewRest (incomplete (view [0x07] 0))).take 3 <+: codeword (incomplete fresh).cfg.pc5 sym ∧
      ¬ codeword (incomplete fresh).cfg.pc5 sym <+: (viewRest (incomplete (view [0x07] 0))).take 3) := by decide

/-- An incomplete table of 28 symbols: EX28 with symbol 0 at 0000 and symbol 27 at 0001 (stream order), so that no codeword
begins with eight ones any more; the view holds eight ones. -/
def incomplete28 : State :=
  { view [0xFF] 0 with cfg := { fresh.cfg with pc28 := fresh.cfg.pc28.set 0 ⟨4, 0x00⟩ |>.set 27 ⟨4, 0x08⟩ } }

theorem witness_PdecDecodesTheCodeword_28 :
    live incomplete28 ∧ prefixTableWf incomplete28.cfg.pc28 8 ∧ 8 ≤ (viewRest incomplete28).length ∧
    ∀ sym : Fin 28, ¬ (viewRest incomplete28).take 8 <+: codeword incomplete28.cfg.pc28 sym ∧
      ¬ codeword incomplete28.cfg.pc28 sym <+: (viewRest incomplete28).take 8 := by decide

theorem witness_TreeWalkIsTheTableWalk : prefixTableWf ex28 8 ∧ prefixTableWf ex5 3 := by decide

theorem witness_PrefixCodeRoundTrip :
    let s := writer [(0, 0x07)] 3
    let t := writer [(0, 0xAF)] 8
    let r := view [0xAF] 3
    live s ∧ live r ∧ live t ∧ s.wmem.wf ∧ r.cfg = s.cfg ∧ configWf s.cfg ∧ viewCopies r s t ∧ exec (.penc28 9) s = .next t ∧
    (viewCopies (view [0x1F] 3) s (writer [(0, 0x1F)] 6) ∧ exec (.penc5 3) s = .next (writer [(0, 0x1F)] 6)) :=
  ⟨rfl, rfl, rfl, by decide, rfl, test_config_well_formed, by decide, eq_of_nextOf (by decide), by decide,
    eq_of_nextOf (by decide)⟩

/-- A scalar on each side of every boundary of `Scalar` and of the tiers, a value of each kind that is none, and for a code of
each tier the last position where it fits. -/
theorem witness_CaencAppendsTheTierCode :
    live (writer [] 105) ∧ (writer [] 105).wmem.wf ∧
    (∀ c ∈ [0x0#32, 0x7F#32, 0x9A#32, 0x9B#32, 0x409A#32, 0x409B#32, 0xD7FF#32, 0xE000#32, 0x10FFFF#32], scalar c.toNat) ∧
    (∀ c ∈ [0xD800#32, 0xDFFF#32, 0x110000#32, 0xFFFFFFFF#32], ¬ scalar c.toNat) ∧
    105 + (false :: false :: lowBits 0x409B 21).length ≤ 8 * fresh.cfg.wcap ∧
    8 * fresh.cfg.wcap < 106 + (false :: false :: lowBits 0x409B 21).length ∧
    112 + (false :: true :: lowBits 0 14).length ≤ 8 * fresh.cfg.wcap ∧
    8 * fresh.cfg.wcap < 113 + (false :: true :: lowBits 0 14).length ∧
    119 + (true :: lowBits 4 8).length ≤ 8 * fresh.cfg.wcap ∧
    8 * fresh.cfg.wcap < 120 + (true :: lowBits 4 8).length := by
  refine ⟨rfl, by decide, by simp [scalar], by simp [scalar], ?_⟩
  decide

theorem witness_absolute_codes :
    AbsCode fresh.cfg 0x7F (true :: lowBits 4 8) ∧ AbsCode fresh.cfg 0x9B (false :: true :: lowBits 0 14) ∧
    AbsCode fresh.cfg 0x409A (false :: true :: lowBits 16383 14) ∧ AbsCode fresh.cfg 0x409B (false :: false :: lowBits 0x409B 21) :=
  ⟨.tierA 4 (by decide) (by decide) (by decide), .tierB (c := 0x9B) (by decide) (by decide) (by decide),
    .tierB (c := 0x409A) (by decide) (by decide) (by decide), .tierC (c := 0x409B) (by decide) (by decide)⟩

/-- The views of 95 §3.5 CA4, CA6, CA7 and CA8, the first and last index of each side of 32, and views that end inside a code. -/
theorem witness_CadecDecodesTheTierCode :
    (live fresh ∧ configWf fresh.cfg) ∧
    (viewHolds { view [0x3F] 0 with rlen := 2 } 0 (true :: lowBits (31 : Fin 32) 8)) ∧
    (viewHolds { view [0x41] 0 with rlen := 2 } 0 (true :: lowBits 32 8) ∧ viewHolds (view [0xFF, 0x01] 0) 0 (true :: lowBits 255 8)) ∧
    (viewHolds (view [0xFE, 0xFF] 0) 0 (false :: true :: lowBits 16383 14)) ∧
    (viewHolds { fresh with rmem := [(2, 0x44)], rlen := 3 } 0 (false :: false :: lowBits 0x110000 21) ∧
      viewHolds { fresh with rmem := [(1, 0x60), (2, 0x03)], rlen := 3 } 0 (false :: false :: lowBits 0xD800 21) ∧
      viewHolds (view [0xFC, 0xFF, 0x43] 0) 0 (false :: false :: lowBits 0x10FFFF 21)) ∧
    (viewRest fresh = [] ∧ viewRest (view [0x55] 7) = [false] ∧
      ((viewRest (view [0x01] 0))[0]? = some true ∧ (viewRest (view [0x01] 0)).length < 9) ∧
      ((viewRest (view [0x05, 0x01] 1))[0]? = some false ∧ (viewRest (view [0x05, 0x01] 1))[1]? = some true ∧
        (viewRest (view [0x05, 0x01] 1)).length < 16) ∧
      ((viewRest (view [0xF8, 0x01, 0x01] 2))[0]? = some false ∧ (viewRest (view [0xF9, 0x01, 0x01] 2))[1]? = some true ∧
        (viewRest (view [0xF1, 0x01, 0x01] 2))[1]? = some false ∧ (viewRest (view [0xF1, 0x01, 0x01] 2)).length < 23)) := by
  and_intros <;> decide

/-- The deltas at the boundaries of the three forms, both signs (95 §3.6), the last position where a code fits, and the checks. -/
theorem witness_CdencAppendsTheDeltaCode :
    live (previous 0x41 (writer [] 104)) ∧ (previous 0x41 (writer [] 104)).wmem.wf ∧
    (∀ c ∈ [0x41#32, 0xC0#32, 0xC1#32, 0x40C0#32, 0x40C1#32, 0x40#32, 0x0#32, 0x10FFFF#32], scalar c.toNat) ∧
    ¬ scalar (0xD800#32).toNat ∧ fresh.prevValid = false ∧ (previous 0x41 fresh).prevValid = true ∧
    104 + (lowBits 2 3 ++ lowBits 16512 21).length ≤ 8 * fresh.cfg.wcap ∧
    8 * fresh.cfg.wcap < 105 + (lowBits 2 3 ++ lowBits 16512 21).length := by
  refine ⟨rfl, by decide, by simp [scalar], by simp [scalar], rfl, rfl, ?_⟩
  decide

theorem witness_delta_codes :
    DeltaCode 0x41 0xC0 (lowBits 0 3 ++ lowBits 127 7) ∧ DeltaCode 0x41 0xC1 (lowBits 1 3 ++ lowBits 0 14) ∧
    DeltaCode 0x41 0x40C0 (lowBits 1 3 ++ lowBits 16383 14) ∧ DeltaCode 0x41 0x40C1 (lowBits 2 3 ++ lowBits 16512 21) ∧
    DeltaCode 0x100 0x81 (lowBits 3 3 ++ lowBits 127 7) ∧ DeltaCode 0x100 0x80 (lowBits 4 3 ++ lowBits 0 14) ∧
    DeltaCode 0x10FFFF 0 (lowBits 5 3 ++ lowBits 0x10FFFF 21) :=
  ⟨.pos7 (by decide) (by decide), .pos14 (by decide) (by decide) (by decide), .pos14 (by decide) (by decide) (by decide),
    .pos21 (by decide) (by decide), .neg7 (by decide) (by decide), .neg14 (by decide) (by decide) (by decide),
    .neg21 (by decide) (by decide)⟩

theorem witness_CdlitAndCdleaveAppendDescriptors :
    live (writer [] 123) ∧ (writer [] 123).wmem.wf ∧ 4 ≤ (4#32).toNat ∧ (3#32).toNat < 4 ∧ 123 + 5 ≤ 8 * fresh.cfg.wcap ∧
    8 * fresh.cfg.wcap < 124 + 5 ∧ 125 + 3 ≤ 8 * fresh.cfg.wcap ∧ 8 * fresh.cfg.wcap < 126 + 3 := by decide

/-- 95 CD6, CD7, CD8, CD9, CD12, CD13 and CD15, and views that end inside the descriptor and inside the literal index. -/
theorem witness_CddecDecodesTheDeltaSymbol :
    (live fresh ∧ configWf fresh.cfg) ∧
    viewHolds (view [0x06] 0) 0 (lowBits 6 3) ∧ viewHolds (view [0x0F] 0) 0 (lowBits 7 3 ++ lowBits (1 : Fin 4) 2) ∧
    (fresh.prevValid = false ∧ viewHolds { fresh with rlen := 1 } 0 (lowBits 0 3)) ∧
    (viewHolds { previous 0 (view [0x0B] 0) with rlen := 2 } 0 (lowBits 3 3 ++ lowBits 1 7) ∧ ¬ (0 ≤ (0 : Int) - (1 + 0 : Nat))) ∧
    (viewHolds { previous 0xD7FF (view [0x08] 0) with rlen := 2 } 0 (lowBits 0 3 ++ lowBits 1 7) ∧
      ¬ scalar ((0xD7FF : Int) + (1 + 0 : Nat)).toNat) ∧
    (viewHolds { previous 0x41 (view [0x05] 0) with rlen := 3 } 0 (lowBits 5 3 ++ lowBits 0 21) ∧
      0 ≤ (0x41 : Int) - (0 + 0 : Nat) ∧ scalar ((0x41 : Int) - (0 + 0 : Nat)).toNat) ∧
    (viewRest (view [0x55] 6)).length < 3 ∧
    (viewHolds (view [0xE0] 5) 5 (lowBits 7 3) ∧ (viewRest (view [0xE0] 5)).length < 3 + 2) ∧
    (viewHolds { previous 0x41 (view [0x05] 0) with rlen := 2 } 0 (lowBits 5 3) ∧
      (viewRest { previous 0x41 (view [0x05] 0) with rlen := 2 }).length < 3 + 21) := by
  and_intros <;> decide

theorem witness_AbsoluteCodeRoundTrip :
    let t := previous 0xE9 (writer [(0, 0x3A), (1, 0x01)] 16)
    let r := view [0x3A, 0x01] 0
    live fresh ∧ live t ∧ live r ∧ fresh.wmem.wf ∧ r.cfg = fresh.cfg ∧ configWf fresh.cfg ∧ exec (.caenc 0xE9) fresh = .next t ∧
      viewCopies r fresh t :=
  ⟨rfl, rfl, rfl, by decide, rfl, test_config_well_formed, eq_of_nextOf (by decide), by decide⟩

theorem witness_DeltaCodeRoundTrip :
    let s := previous 0x41 fresh
    let r := previous 0x41 (view [0xF9, 0xFF, 0x01] 0)
    let t := previous 0x40C0 (writer [(0, 0xF9), (1, 0xFF), (2, 0x01)] 17)
    live s ∧ live t ∧ live r ∧ s.wmem.wf ∧ r.cfg = s.cfg ∧ configWf s.cfg ∧ r.prevCp = s.prevCp ∧ r.prevValid = s.prevValid ∧
      viewCopies r s t ∧ exec (.cdenc 0x40C0) s = .next t :=
  ⟨rfl, rfl, rfl, by decide, rfl, test_config_well_formed, rfl, rfl, by decide, eq_of_nextOf (by decide)⟩

theorem witness_DeltaCodeRoundTrip_literal_and_leave :
    let s := previous 0x41 fresh
    (viewCopies (previous 0x41 (view [0x0F] 0)) s (previous 0x41 (writer [(0, 0x0F)] 5)) ∧
      exec (.cdlit 1) s = .next (previous 0x41 (writer [(0, 0x0F)] 5))) ∧
    (viewCopies (previous 0x41 (view [0x06] 0)) s (previous 0x41 (writer [(0, 0x06)] 3)) ∧
      exec .cdleave s = .next (previous 0x41 (writer [(0, 0x06)] 3))) :=
  ⟨⟨by decide, eq_of_nextOf (by decide)⟩, by decide, eq_of_nextOf (by decide)⟩

theorem witness_SinitStartsASelection : live fresh := rfl

theorem witness_SofferKeepsOnlyAStrictlySmaller :
    live (selecting 20 .treeSquash) ∧ (1#8).toNat < 2 ∧ 4 < (5#8).toNat ∧ 2 ≤ (2#8).toNat ∧ (4#8).toNat ≤ 4 ∧
    fresh.selValid = false ∧ (selecting 20 .treeSquash).selValid = true ∧
    (19#32).toNat < (selecting 20 .treeSquash).bestLen.toNat ∧ (selecting 20 .treeSquash).bestLen.toNat ≤ (20#32).toNat := by decide

theorem witness_SfinalComparesWithUtf8 :
    live fresh ∧ fresh.selValid = false ∧ live (selecting 10 .treeSquash) ∧ (selecting 10 .treeSquash).selValid = true ∧
    (selecting 10 .treeSquash).bestLen.toNat < (11#32).toNat ∧ (10#32).toNat ≤ (selecting 10 .treeSquash).bestLen.toNat := by decide

theorem witness_SelectionNeverExpands :
    live (selecting 10 .treeSquash) ∧ (selecting 10 .treeSquash).selValid = true ∧
    (∃ t, exec (.sfinal 11) (selecting 10 .treeSquash) = .next t ∧ t.resSuccess = true) ∧
    (∃ t, exec (.sfinal 0) (selecting 0 .treeSquash) = .next t ∧ t.resSuccess = false) := ⟨rfl, rfl, ⟨_, rfl, rfl⟩, _, rfl, rfl⟩

/-- The candidates of 95 SL10: two of length 9, of which the first is kept, with each tag of format M that is legal. -/
theorem witness_SelectionPicksTheFirstMinimum :
    live fresh ∧ (∀ x ∈ [(3#8, 9#32), (4#8, 9#32), (2#8, 10#32)], 2 ≤ x.1.toNat ∧ x.1.toNat ≤ 4) := ⟨rfl, by simp⟩

theorem witness_HclassClassifiesTheHeader :
    live fresh ∧ (0#24).toNat = 0 ∧ (1#24).toNat = 1 ∧ 2 ≤ (2#24).toNat ∧
    (∀ b ∈ [0x00#8, 0x7F#8], b.toNat ≤ 0x7F) ∧ (∀ b ∈ [0x80#8, 0xBF#8], 0x80 ≤ b.toNat ∧ b.toNat ≤ 0xBF) ∧
    (0xC0#8).toNat = 0xC0 ∧ (0xC1#8).toNat = 0xC1 ∧ (∀ b ∈ [0xC2#8, 0xF4#8], 0xC2 ≤ b.toNat ∧ b.toNat ≤ 0xF4) ∧
    (∀ b ∈ [0xF5#8, 0xF8#8], 0xF5 ≤ b.toNat ∧ b.toNat ≤ 0xF8) ∧ (∀ b ∈ [0xF9#8, 0xFC#8], 0xF9 ≤ b.toNat ∧ b.toNat ≤ 0xFC) ∧
    (0xFD#8).toNat = 0xFD ∧ (0xFE#8).toNat = 0xFE ∧ (0xFF#8).toNat = 0xFF := by
  refine ⟨rfl, rfl, rfl, by decide, by simp, by simp, rfl, rfl, by simp, by simp, by simp, rfl, rfl, rfl⟩

theorem witness_LoadViewLoadsAndBinds :
    live midCall ∧ midCall.rmem.wf ∧ midCall.cfg.rcap ≤ 2 ^ 24 ∧ (List.replicate 16 (0xAA : Byte)).length ≤ midCall.cfg.rcap := ⟨rfl, by decide, by decide, by decide⟩

/-- The fields of R142's example, and a writer filled to its last bit. -/
theorem witness_WriterReaderRoundTrip :
    live fresh ∧ fresh.wmem.wf ∧ fresh.wpos = 0 ∧ fresh.rmem.wf ∧ fresh.cfg.rcap ≤ 2 ^ 24 ∧
    (∀ f ∈ [(5#8, 0x15#32), (4#8, 0xA#32)], legalCount f.1) ∧
    (([(5#8, 0x15#32), (4#8, 0xA#32)] : List (BitVec 8 × Word)).map fun f => f.1.toNat).sum ≤ 8 * fresh.cfg.wcap ∧
    ((List.replicate 4 (32#8, 0xDEADBEEF#32)).map fun f => f.1.toNat).sum ≤ 8 * fresh.cfg.wcap ∧
    (snapshot (writer [(0, 0x55), (1, 0x01)] 9)).length ≤ fresh.cfg.rcap := 
  ⟨rfl, by decide, rfl, by decide, by decide, by simp [legalCount], by decide, by decide, by decide⟩

end Sys2Proof.Tests
end

section
/-! The writer over one command (10_state.md R39, R40): it is emptied by WCLR or INIT, or extended at its end. -/

namespace Sys2Proof.Machine

open Sys2Proof.Safety

/-- The writer is empty: WPOS is 0 and no byte of WMEM is listed. -/
def WriterEmpty (t : State) : Prop := t.wmem = [] ∧ t.wpos = 0

/-- The writer of t is that of s with some bits, perhaps none, appended. -/
def WriterExtends (s t : State) : Prop :=
  ∃ bs : List Bool, t.wmem = (appendList bs s).wmem ∧ t.wpos = s.wpos + bs.length

theorem Memory.bit_nil (p : Nat) : Memory.bit [] p = false := by
  simp [Memory.bit, Memory.read_nil, Memory.background_eq]

theorem WriterEmpty.wpos_and_bits {t : State} (e : WriterEmpty t) : t.wpos = 0 ∧ ∀ p, t.wmem.bit p = false :=
  ⟨e.2, fun p => by rw [e.1, Memory.bit_nil]⟩

theorem startCall_writerEmpty (s : State) : WriterEmpty (startCall s) := ⟨rfl, rfl⟩

theorem clearWriter_writerEmpty (s : State) : WriterEmpty (clearWriter s) := ⟨rfl, rfl⟩

theorem WriterExtends.of_eq {s t : State} (hmem : t.wmem = s.wmem) (hpos : t.wpos = s.wpos) : WriterExtends s t :=
  ⟨[], hmem, hpos⟩

theorem WriterExtends.wpos_le {s t : State} (e : WriterExtends s t) : s.wpos ≤ t.wpos := by
  obtain ⟨bs, -, hpos⟩ := e
  omega

theorem WriterExtends.bit_below {s t : State} (e : WriterExtends s t) (hs : s.wmem.wf) {p : Nat} (hp : p < s.wpos) :
    t.wmem.bit p = s.wmem.bit p := by
  obtain ⟨bs, hmem, -⟩ := e
  rw [hmem, appendList_bit bs s hs, if_neg (by omega)]

/-- A command that completes empties the writer, and is then WCLR or INIT, or extends it. -/
theorem Effect.writer {i : Instr} {s t : State} (e : Effect i s t) :
    ((i = .wclr ∨ i = .init) ∧ WriterEmpty t) ∨ WriterExtends s t := by
  cases e with
  | started hi => exact .inl ⟨.inr hi, startCall_writerEmpty s⟩
  | cleared hi => exact .inl ⟨.inl hi, clearWriter_writerEmpty s⟩
  | appended bs => exact .inr ⟨bs, rfl, congrArg State.wpos (appendList_frame bs s)⟩
  | same | reported | bound | loaded | consumed | selecting | offered | finished => exact .inr (.of_eq rfl rfl)

/-- The same in every state: a fault, or a command dropped while faulted, leaves the writer as it was. -/
theorem exec_writer {i : Instr} {s t : State} (h : exec i s = .next t) :
    ((i = .wclr ∨ i = .init) ∧ WriterEmpty t) ∨ WriterExtends s t := by
  rcases exec_all_cases h with ⟨-, ⟨c, -, rfl⟩ | e⟩ | ⟨-, ⟨hi, rfl⟩ | ⟨r, w, -, rfl⟩ | ⟨-, rfl⟩⟩
  · exact .inr (.of_eq rfl rfl)
  · exact e.writer
  · exact .inl ⟨.inr hi, startCall_writerEmpty s⟩
  · exact .inr (.of_eq rfl rfl)
  · exact .inr (.of_eq rfl rfl)

theorem exec_init (s : State) : exec .init s = .next (startCall s) := rfl

theorem exec_wclr {s : State} (hl : live s) : exec .wclr s = .next (clearWriter s) := runCommand_ok hl

theorem writerEmpty_of_exec {i : Instr} {s t : State} (hi : i = .init ∨ (i = .wclr ∧ live s))
    (h : exec i s = .next t) : WriterEmpty t := by
  rcases hi with rfl | ⟨rfl, hl⟩
  · rw [exec_init] at h
    injection h with h
    exact h ▸ startCall_writerEmpty s
  · rw [exec_wclr hl] at h
    injection h with h
    exact h ▸ clearWriter_writerEmpty s

/-- Settles O17: every command empties the writer or extends it, and an extension neither lowers WPOS nor changes a bit
below it. -/
theorem onlyWclrAndInitShrinkTheWriter : Obligations.OnlyWclrAndInitShrinkTheWriter := by
  intro i s t hs h
  refine ⟨fun hlt => ?_, fun hi => (writerEmpty_of_exec hi h).wpos_and_bits, fun hw hi p hp => ?_⟩
  · rcases exec_writer h with ⟨hi, -⟩ | e
    · exact hi
    · exact absurd e.wpos_le (Nat.not_le_of_lt hlt)
  · rcases exec_writer h with ⟨rfl | rfl, -⟩ | e
    · exact absurd rfl hw
    · exact absurd rfl hi
    · exact e.bit_below hs hp

end Sys2Proof.Machine
end

section
/-! The power-on state, register by register (10_state.md R51). -/

namespace Sys2Proof.Machine

theorem statusWord_powerOn (cfg : Config) (rmem : Memory) : statusWord (State.powerOn cfg rmem) = 0 := by
  simp [statusWord, State.powerOn, causeCode]

theorem powerOn_wmem_read (cfg : Config) (rmem : Memory) (k : Nat) : (State.powerOn cfg rmem).wmem.read k = 0 :=
  (Memory.read_nil k).trans Memory.background_eq

/-- Settles O1: STATUS and the bytes of WMEM by the lemmas above, every other register as `State.powerOn` states it; the
state after reset is the power-on state of the test configuration with no byte of RMEM listed. -/
theorem powerOnStateIsAsSpecified : Obligations.PowerOnStateIsAsSpecified := by
  refine ⟨fun cfg rmem => ?_, Config.test, [], rfl⟩
  exact ⟨statusWord_powerOn cfg rmem, rfl, rfl, powerOn_wmem_read cfg rmem, rfl, rfl, fun _ => rfl,
    rfl, rfl, rfl, rfl, rfl, rfl, rfl, rfl, rfl⟩

end Sys2Proof.Machine
end

section
/-! The illegal command words (30_encoding.md R106): what the decoder answers for each group of opcodes. -/

namespace Sys2Proof.Machine

open Sys2Proof.Safety

/-- An opcode of format Z leaves the check of ARG to `formatZ`, with an instruction that is well-formed. -/
theorem decode_of_mem_formatZOpcodes {c : Command} (h : c.op.toNat ∈ formatZOpcodes) :
    ∃ i : Instr, decode c = formatZ c i ∧ i.wf = true := by
  generalize hop : c.op.toNat = op at h
  fin_cases h <;> exact ⟨_, by simp only [decode, hop]; rfl, rfl⟩

/-- An opcode of format N or M is decoded with every ARG. -/
theorem decode_of_mem_countOrMethodOpcodes {c : Command} (h : c.op.toNat ∈ countOrMethodOpcodes) :
    ∃ i : Instr, decode c = .ok i ∧ i.wf = true := by
  simp only [countOrMethodOpcodes, List.mem_cons, List.not_mem_nil, or_false] at h
  obtain hop | hop | hop := h
  · exact ⟨.wbits c.arg c.din, by simp only [decode, hop], rfl⟩
  · exact ⟨.rbits c.arg, by simp only [decode, hop], rfl⟩
  · exact ⟨.soffer c.arg c.din, by simp only [decode, hop], rfl⟩

theorem decode_of_rdreg {c : Command} (h : c.op.toNat = 0x02) : decode c = formatR c (.rdreg c.arg) := by
  simp only [decode, h]

/-- An opcode of no format is not in the map. -/
theorem decode_of_unknownOpcode {c : Command} (hz : c.op.toNat ∉ formatZOpcodes)
    (hnm : c.op.toNat ∉ countOrMethodOpcodes) (hr : c.op.toNat ≠ 0x02) : decode c = .error .unknownOpcode := by
  unfold decode
  split
  case h_32 => rfl
  -- every other branch has OP equal to a number of one of the three groups
  all_goals simp_all [formatZOpcodes, countOrMethodOpcodes]

/-- R106 by the fields of the command word. -/
theorem illegalCmd_iff (c : Command) : illegalCmd c.cmd ↔
    (c.op.toNat ∉ formatZOpcodes ∧ c.op.toNat ∉ countOrMethodOpcodes ∧ c.op.toNat ≠ 0x02) ∨
    (c.op.toNat ∈ formatZOpcodes ∧ c.arg ≠ 0) ∨
    (c.op.toNat = 0x02 ∧ 0x09 ≤ c.arg.toNat) := by
  simp only [illegalCmd, op_toNat, arg_toNat, ne_eq, arg_eq_zero]

theorem decode_error_of_illegalCmd {c : Command} (h : illegalCmd c.cmd) : ∃ e, decode c = .error e := by
  obtain ⟨hz, hnm, hr⟩ | ⟨hz, harg⟩ | ⟨hr, harg⟩ := (illegalCmd_iff c).mp h
  · exact ⟨_, decode_of_unknownOpcode hz hnm hr⟩
  · obtain ⟨i, hdec, -⟩ := decode_of_mem_formatZOpcodes hz
    exact ⟨.nonzeroArg, by rw [hdec, formatZ, if_neg harg]⟩
  · exact ⟨.reservedRegister, by rw [decode_of_rdreg hr, formatR, if_neg (Nat.not_le_of_lt harg)]⟩

theorem decode_wf_of_not_illegalCmd {c : Command} (h : ¬ illegalCmd c.cmd) :
    ∃ i : Instr, decode c = .ok i ∧ i.wf = true := by
  rw [illegalCmd_iff] at h
  by_cases hz : c.op.toNat ∈ formatZOpcodes
  · have harg : c.arg = 0 := by_contra fun harg => h (.inr (.inl ⟨hz, harg⟩))
    obtain ⟨i, hdec, hwf⟩ := decode_of_mem_formatZOpcodes hz
    exact ⟨i, by rw [hdec, formatZ, if_pos harg], hwf⟩
  by_cases hnm : c.op.toNat ∈ countOrMethodOpcodes
  · exact decode_of_mem_countOrMethodOpcodes hnm
  by_cases hr : c.op.toNat = 0x02
  · have harg : c.arg.toNat ≤ 8 := Nat.not_lt.mp fun harg => h (.inr (.inr ⟨hr, harg⟩))
    exact ⟨.rdreg c.arg, by rw [decode_of_rdreg hr, formatR, if_pos harg], decide_eq_true harg⟩
  · exact absurd (.inl ⟨hz, hnm, hr⟩) h

/-- Settles O6: an illegal word does not decode, so the step raises ILLEGAL_COMMAND; every other word decodes to a
well-formed instruction. -/
theorem illegalWordRaisesIllegalCommand : Obligations.IllegalWordRaisesIllegalCommand := by
  intro s c rest hl hp
  refine ⟨fun hill => ?_, decode_wf_of_not_illegalCmd⟩
  obtain ⟨e, he⟩ := decode_error_of_illegalCmd hill
  exact step_of_decode_error hl hp he

end Sys2Proof.Machine
end

section
/-! The control commands (40_control.md R130 to R132): NOP, INIT, and RDREG over the register map of 10_state.md R50. -/

namespace Sys2Proof.Machine

open Sys2Proof.Safety

/-! ### The register map -/

/-- STATUS by the weights of its fields (10_state.md R35). -/
theorem statusWord_toNat (s : State) : (statusWord s).toNat = s.fault.toNat + 256 * (causeCode s.cause).toNat := by
  simp only [statusWord, toNat_append, toNat_ofBool, BitVec.toNat_zero]
  omega

/-- PREV by the weights of its fields (10_state.md R50). -/
theorem prevWord_toNat (s : State) : (prevWord s).toNat = s.prevCp.toNat + 2 ^ 31 * s.prevValid.toNat := by
  simp only [prevWord, toNat_append, toNat_ofBool, BitVec.toNat_zero]
  omega

/-- SELCTRL by the weights of its fields (10_state.md R50). -/
theorem selctrlWord_toNat (s : State) : (selctrlWord s).toNat =
    (methodTag s.bestMethod).toNat + 16 * s.selValid.toNat + 256 * (methodTag s.resMethod).toNat +
      4096 * s.resSuccess.toNat + 8192 * s.resValid.toNat := by
  simp only [selctrlWord, toNat_append, toNat_ofBool, BitVec.toNat_zero]
  omega

/-- A register number is read as its literal is. -/
theorem readRegister_of_toNat_eq {r : BitVec 8} {n : Nat} (h : r.toNat = n) (s : State) :
    readRegister r s = readRegister (BitVec.ofNat 8 n) s := by
  rw [← h, BitVec.ofNat_toNat, BitVec.setWidth_eq]

/-- What register r shows, found from the map's entry for its number. -/
theorem readRegister_value_unique {r : BitVec 8} {n : Nat} {s : State} {w v : Word} (hw : readRegister r s = some w)
    (hr : r.toNat = n) (hv : readRegister (BitVec.ofNat 8 n) s = some v) : w = v :=
  Option.some.inj (hw.symm.trans ((readRegister_of_toNat_eq hr s).trans hv))

/-- The register numbers 0x09 and above are reserved (30_encoding.md R104). -/
theorem readRegister_of_reserved {r : BitVec 8} (h : 9 ≤ r.toNat) (s : State) : readRegister r s = none := by
  unfold readRegister
  split
  case h_10 => rfl
  -- every other branch has r equal to a number below 9
  all_goals omega

/-! ### RDREG -/

theorem exec_rdreg_of_some {r : BitVec 8} {s : State} {w : Word} (h : readRegister r s = some w) :
    exec (.rdreg r) s = .next (setDout w s) := by
  simp only [exec, execRdreg, h]

theorem exec_rdreg_of_reserved {r : BitVec 8} (h : 9 ≤ r.toNat) (s : State) :
    exec (.rdreg r) s = .next (raise .illegalCommand s) := by
  simp only [exec, execRdreg, readRegister_of_reserved h, illegalWord]

theorem decode_command_rdreg {r : BitVec 8} (h : r.toNat ≤ 8) (din : Word) :
    decode (command 0x02 r din) = .ok (.rdreg r) := by
  rw [decode_of_rdreg (congrArg BitVec.toNat (command_op 0x02 r din)), formatR, command_arg, if_pos h]

/-- Settles O24: RDREG writes what the register map shows, read off entry by entry with the packed registers as sums of
their fields; a reserved number shows nothing, so it raises ILLEGAL_COMMAND or is dropped. -/
theorem rdregReadsTheRegisterMap : Obligations.RdregReadsTheRegisterMap := by
  refine ⟨fun s r hr => ?_, fun s r hr => ⟨fun hl => ?_, fun hf => ?_⟩, fun r din hr => decode_command_rdreg hr din⟩
  · obtain ⟨w, hw⟩ := readRegister_of_le r s hr
    refine ⟨w, exec_rdreg_of_some hw, fun h => ?status, fun h => readRegister_value_unique hw h rfl,
      fun h => readRegister_value_unique hw h rfl, fun h => readRegister_value_unique hw h rfl, fun h => ?prev,
      fun h => readRegister_value_unique hw h rfl, fun h => ?selctrl, fun h => readRegister_value_unique hw h rfl,
      fun h => readRegister_value_unique hw h rfl⟩
    case status => rw [readRegister_value_unique hw h rfl, statusWord_toNat]
    case prev => rw [readRegister_value_unique hw h rfl, prevWord_toNat]
    case selctrl => rw [readRegister_value_unique hw h rfl, selctrlWord_toNat]
  · rw [exec_rdreg_of_reserved hr, raise_of_live _ _ hl]
  · rw [exec_rdreg_of_reserved hr, raise_of_faulted _ _ hf]

/-! ### NOP and INIT -/

theorem exec_nop (s : State) : exec .nop s = .next s := rfl

theorem decode_of_nop {c : Command} (h : c.op.toNat = 0x00) : decode c = formatZ c .nop := by
  simp only [decode, h]

theorem decode_of_init {c : Command} (h : c.op.toNat = 0x01) : decode c = formatZ c .init := by
  simp only [decode, h]

/-- Settles O21: NOP answers the state it is given, and its row of the opcode map has format Z. -/
theorem nopChangesNothing : Obligations.NopChangesNothing :=
  ⟨exec_nop, zCommand_of_formatZ 0x00 (fun _ => .nop) fun din arg =>
    decode_of_nop (congrArg BitVec.toNat (command_op 0x00 arg din))⟩

theorem statusWord_startCall (s : State) : statusWord (startCall s) = 0 := statusWord_powerOn s.cfg s.rmem

theorem startCall_wmem_read (s : State) (k : Nat) : (startCall s).wmem.read k = 0 := powerOn_wmem_read s.cfg s.rmem k

/-- Settles O22: INIT answers `startCall s`, whose STATUS and bytes of WMEM are those of the power-on state and whose other
fields are as `startCall` states them; its row of the opcode map has format Z. -/
theorem initStartsAFreshCall : Obligations.InitStartsAFreshCall := by
  refine ⟨fun s => ⟨startCall s, exec_init s, ?_⟩, zCommand_of_formatZ 0x01 (fun _ => .init) fun din arg =>
    decode_of_init (congrArg BitVec.toNat (command_op 0x01 arg din))⟩
  exact ⟨statusWord_startCall s, rfl, rfl, rfl, rfl, startCall_wmem_read s, rfl, rfl, rfl, rfl, rfl, rfl, rfl, rfl, rfl, rfl,
    rfl, rfl, rfl⟩

end Sys2Proof.Machine
end

section
/-! The rows of the bit writer in the opcode map (30_encoding.md R108): all but WBITS have format Z. -/

namespace Sys2Proof.Machine

open Sys2Proof.Safety

/-- A row of the decoder that leaves ARG to `formatZ` makes its command one of format Z. -/
theorem zCommand_of_decode_row {op : BitVec 8} {i : Word → Instr}
    (h : ∀ c : Command, c.op.toNat = op.toNat → decode c = formatZ c (i c.din)) : zCommand op i :=
  zCommand_of_formatZ op i fun din arg => h _ (congrArg BitVec.toNat (command_op op arg din))

theorem zCommand_wclr : zCommand 0x10 (fun _ => .wclr) :=
  zCommand_of_decode_row fun c h => by simp only [decode, h]; rfl

theorem zCommand_wbit : zCommand 0x11 (fun din => .wbit (din.getLsbD 0)) :=
  zCommand_of_decode_row fun c h => by simp only [decode, h]; rfl

theorem argCommand_wbits : argCommand 0x12 .wbits := fun arg din => by
  simp only [decode, command_op, command_arg, command_din]; rfl

theorem zCommand_wbyte : zCommand 0x13 (fun din => .wbyte (din.extractLsb' 0 8)) :=
  zCommand_of_decode_row fun c h => by simp only [decode, h]; rfl

theorem zCommand_wlen : zCommand 0x14 (fun _ => .wlen) :=
  zCommand_of_decode_row fun c h => by simp only [decode, h]; rfl

theorem zCommand_wpad : zCommand 0x15 (fun _ => .wpad) :=
  zCommand_of_decode_row fun c h => by simp only [decode, h]; rfl

theorem zCommand_wblen : zCommand 0x16 (fun _ => .wblen) :=
  zCommand_of_decode_row fun c h => by simp only [decode, h]; rfl

theorem zCommand_wrdb : zCommand 0x17 .wrdb :=
  zCommand_of_decode_row fun c h => by simp only [decode, h]; rfl

end Sys2Proof.Machine
end

section
/-! The commands that append (41_bitwriter.md R141 to R143). -/

namespace Sys2Proof.Machine

open Sys2Proof.Safety

/-- The bits of the byte at address a (00_scope.md R12). -/
theorem Memory.bit_of_byte (m : Memory) (a : Nat) {i : Nat} (hi : i < 8) : m.bit (8 * a + i) = (m.read a).getLsbD i := by
  have hdiv : (8 * a + i) / 8 = a := by omega
  have hmod : (8 * a + i) % 8 = i := by omega
  rw [Memory.bit, hdiv, hmod]

theorem lowBits_bool (b : Bool) : lowBits b.toNat 1 = [b] := by cases b <;> rfl

/-- Eight bits appended at a byte boundary are that byte. -/
theorem read_of_appended_byte {s t : State} {v : Byte} (h : Appended s t (lowBits v.toNat 8)) (hp : s.wpos % 8 = 0) :
    t.wmem.read (s.wpos / 8) = v := by
  obtain ⟨-, hbit, -⟩ := h
  refine BitVec.eq_of_getLsbD_eq fun i hi => ?_
  have hpos : 8 * (s.wpos / 8) + i = s.wpos + i := by omega
  calc (t.wmem.read (s.wpos / 8)).getLsbD i
      = t.wmem.bit (s.wpos + i) := by rw [← Memory.bit_of_byte _ _ hi, hpos]
    _ = (lowBits v.toNat 8).getD i false := by
        rw [hbit, lowBits_length, if_pos (by omega), Nat.add_sub_cancel_left]
    _ = v.getLsbD i := by rw [lowBits_getD _ _ _ hi, BitVec.testBit_toNat]

/-- Settles O26: the append of a field of one bit, whose stream bits are that bit. -/
theorem wbitAppendsOneBit : Obligations.WbitAppendsOneBit :=
  ⟨fun _ b hl hw => runCommand_append [⟨b.toNat, 1⟩] hl hw [b] (by rw [fieldBits, lowBits_bool]; rfl), zCommand_wbit⟩

theorem exec_wbits_of_legal {n : BitVec 8} (h : legalCount n) (v : Word) (s : State) :
    exec (.wbits n v) s = runCommand s (append [⟨v.toNat, n.toNat⟩] s) :=
  congrArg (runCommand s) (if_pos h)

theorem exec_wbits_of_illegal {n : BitVec 8} (h : ¬ legalCount n) (v : Word) {s : State} (hl : live s) :
    exec (.wbits n v) s = .next (faulted .invalidArgument s) :=
  (congrArg (runCommand s) (if_neg h)).trans (runCommand_error hl)

/-- Settles O27: an illegal count faults before the room is looked at, and a legal one appends one field. -/
theorem wbitsAppendsTheLowBits : Obligations.WbitsAppendsTheLowBits := by
  refine ⟨fun s n v hl hw => ?_, argCommand_wbits⟩
  have happ := runCommand_append [⟨v.toNat, n.toNat⟩] hl hw (lowBits v.toNat n.toNat) (List.append_nil _)
  rw [lowBits_length] at happ
  obtain ⟨hroom, hfull⟩ := happ
  refine ⟨fun h => exec_wbits_of_illegal (by omega) v hl, fun h1 h2 h => ?_, fun h1 h2 h => ?_⟩
  · rw [exec_wbits_of_legal ⟨h1, h2⟩]
    exact hroom h
  · rw [exec_wbits_of_legal ⟨h1, h2⟩]
    exact hfull h

/-- Settles O28: the append of a field of eight bits, which at a byte boundary are one whole byte. -/
theorem wbyteAppendsAByte : Obligations.WbyteAppendsAByte := by
  refine ⟨fun s v hl hw => ?_, zCommand_wbyte⟩
  obtain ⟨hroom, hfull⟩ := runCommand_append [⟨v.toNat, 8⟩] hl hw (lowBits v.toNat 8) (List.append_nil _)
  refine ⟨fun h => ?_, hfull⟩
  obtain ⟨t, hexec, happ⟩ := hroom h
  exact ⟨t, hexec, happ, read_of_appended_byte happ⟩

end Sys2Proof.Machine
end

section
/-! Clearing the writer, its lengths, and its bytes read back (41_bitwriter.md R140, R144 to R147). -/

namespace Sys2Proof.Machine

open Sys2Proof.Safety

/-- Settles O25: WCLR leaves no byte of WMEM listed, and an unlisted byte reads as 0. -/
theorem wclrEmptiesTheWriter : Obligations.WclrEmptiesTheWriter :=
  ⟨fun _ hl => ⟨[], exec_wclr hl, fun k => (Memory.read_nil k).trans Memory.background_eq⟩, zCommand_wclr⟩

/-! ### The lengths -/

theorem padding_le (s : State) : padding s ≤ 7 := by
  unfold padding
  omega

theorem wpos_add_padding (s : State) : (s.wpos + padding s) % 8 = 0 := by
  unfold padding
  omega

/-- The byte length is the least number of bytes that hold all bits written (10_state.md R38). -/
theorem byteLength_le_iff (s : State) (k : Nat) : byteLength s ≤ k ↔ s.wpos ≤ 8 * k := by
  unfold byteLength
  omega

theorem byteLength_bounds (s : State) : s.wpos ≤ 8 * byteLength s ∧ 8 * byteLength s ≤ s.wpos + 7 := by
  unfold byteLength
  omega

theorem exec_wlen {s : State} (hl : live s) : exec .wlen s = .next (setDout (BitVec.ofNat 32 s.wpos) s) :=
  runCommand_ok hl

theorem exec_wpad {s : State} (hl : live s) : exec .wpad s = .next (setDout (BitVec.ofNat 32 (padding s)) s) :=
  runCommand_ok hl

theorem exec_wblen {s : State} (hl : live s) : exec .wblen s = .next (setDout (BitVec.ofNat 32 (byteLength s)) s) :=
  runCommand_ok hl

/-- Settles O29: the three commands report WPOS, `padding` and `byteLength`, with the bounds above. -/
theorem writerReportsItsLengths : Obligations.WriterReportsItsLengths :=
  ⟨fun _ hl => exec_wlen hl,
    fun s hl => ⟨padding s, exec_wpad hl, padding_le s, wpos_add_padding s⟩,
    fun s hl => ⟨byteLength s, exec_wblen hl, byteLength_bounds s⟩,
    zCommand_wlen, zCommand_wpad, zCommand_wblen⟩

/-! ### The snapshot -/

theorem snapshot_length (s : State) : (snapshot s).length = byteLength s := by simp [snapshot]

theorem snapshot_getElem?_of_lt {s : State} {k : Nat} (h : k < byteLength s) :
    (snapshot s)[k]? = some (s.wmem.read k) := by
  rw [snapshot, List.getElem?_map, List.getElem?_range h, Option.map_some]

/-- When the last byte is partly used, it is the byte that WPOS points into. -/
theorem snapshot_getLast?_of_padded {s : State} (h : s.wpos % 8 ≠ 0) :
    (snapshot s).getLast? = some (s.wmem.read (s.wpos / 8)) := by
  have hlast : byteLength s - 1 = s.wpos / 8 := by
    unfold byteLength
    omega
  have hlt : s.wpos / 8 < byteLength s := by
    unfold byteLength
    omega
  rw [List.getLast?_eq_getElem?, snapshot_length, hlast, snapshot_getElem?_of_lt hlt]

/-- The padding bits of the writer's last byte are 0 (10_state.md R39). -/
theorem padding_bit_eq_false {s : State} (hs : MachineInv s) {i : Nat} (h : s.wpos % 8 ≤ i) :
    (s.wmem.read (s.wpos / 8)).getLsbD i = false := by
  by_cases hi : i < 8
  · rw [← Memory.bit_of_byte _ _ hi]
    exact hs.writerZeros _ (by omega)
  · exact BitVec.getLsbD_of_ge _ _ (by omega)

theorem exec_wrdb_of_used {k : Word} {s : State} (hl : live s) (h : k.toNat < byteLength s) :
    exec (.wrdb k) s = .next (setDout (BitVec.ofNat 32 (s.wmem.read k.toNat).toNat) s) := by
  rw [BitVec.ofNat_toNat]
  exact (congrArg (runCommand s) (if_neg (Nat.not_le_of_lt h))).trans (runCommand_ok hl)

theorem exec_wrdb_of_unused {k : Word} {s : State} (hl : live s) (h : byteLength s ≤ k.toNat) :
    exec (.wrdb k) s = .next (faulted .invalidArgument s) :=
  (congrArg (runCommand s) (if_pos h)).trans (runCommand_error hl)

/-- Settles O30: WRDB and the snapshot both end at the byte length, and the bits of the last byte from WPOS up are those
the invariant keeps 0. -/
theorem wrdbReadsTheSnapshot : Obligations.WrdbReadsTheSnapshot := by
  refine ⟨fun s k hl => ⟨fun hlt => ?_, fun hle => ?_⟩, fun s hs b hb hpad i hi => ?_, zCommand_wrdb⟩
  · have hk : k.toNat < byteLength s := by
      rw [← Nat.not_le, byteLength_le_iff]
      exact Nat.not_le_of_lt hlt
    exact ⟨exec_wrdb_of_used hl hk, snapshot_getElem?_of_lt hk⟩
  · have hk : byteLength s ≤ k.toNat := (byteLength_le_iff s k.toNat).mpr hle
    exact ⟨exec_wrdb_of_unused hl hk, List.getElem?_eq_none ((snapshot_length s).trans_le hk)⟩
  · obtain rfl : s.wmem.read (s.wpos / 8) = b := Option.some.inj ((snapshot_getLast?_of_padded hpad).symm.trans hb)
    exact padding_bit_eq_false hs hi

end Sys2Proof.Machine
end

section
/-! The rows of the bit reader in the opcode map (30_encoding.md R108): all but RBITS have format Z. -/

namespace Sys2Proof.Machine

open Sys2Proof.Safety

theorem zCommand_rbind : zCommand 0x20 .rbind :=
  zCommand_of_decode_row fun c h => by simp only [decode, h]; rfl

theorem zCommand_rldb : zCommand 0x21 (fun din => .rldb (din.extractLsb' 8 24) (din.extractLsb' 0 8)) :=
  zCommand_of_decode_row fun c h => by simp only [decode, h]; rfl

theorem zCommand_rbit : zCommand 0x22 (fun _ => .rbit) :=
  zCommand_of_decode_row fun c h => by simp only [decode, h]; rfl

theorem argCommand_rbits : argCommand 0x23 (fun n _ => .rbits n) := fun arg din => by
  simp only [decode, command_op, command_arg]; rfl

theorem zCommand_rbyte : zCommand 0x24 (fun _ => .rbyte) :=
  zCommand_of_decode_row fun c h => by simp only [decode, h]; rfl

theorem zCommand_rrem : zCommand 0x25 (fun _ => .rrem) :=
  zCommand_of_decode_row fun c h => by simp only [decode, h]; rfl

end Sys2Proof.Machine
end

section
/-! The bit reader (42_bitreader.md R160 to R165): loading and binding the view, reading fields of it, and the bits that
remain. -/

namespace Sys2Proof.Machine

open Sys2Proof.Safety

/-! ### Loading and binding -/

theorem exec_rbind_of_le {l : Word} {s : State} (hl : live s) (h : l.toNat ≤ s.cfg.rcap) :
    exec (.rbind l) s = .next { s with rlen := l.toNat, rpos := 0 } :=
  (congrArg (runCommand s) (if_neg (Nat.not_lt_of_le h))).trans (runCommand_ok hl)

theorem exec_rbind_of_gt {l : Word} {s : State} (hl : live s) (h : s.cfg.rcap < l.toNat) :
    exec (.rbind l) s = .next (faulted .invalidArgument s) :=
  (congrArg (runCommand s) (if_pos h)).trans (runCommand_error hl)

/-- Settles O31: RBIND checks its length against P_RCAP and sets RLEN and RPOS. -/
theorem rbindBindsTheView : Obligations.RbindBindsTheView :=
  ⟨fun _ _ hl => ⟨exec_rbind_of_le hl, exec_rbind_of_gt hl⟩, zCommand_rbind⟩

theorem exec_rldb_of_lt {k : BitVec 24} {s : State} (b : Byte) (hl : live s) (h : k.toNat < s.cfg.rcap) :
    exec (.rldb k b) s = .next { s with rmem := s.rmem.write k.toNat b } :=
  (congrArg (runCommand s) (if_neg (Nat.not_le_of_lt h))).trans (runCommand_ok hl)

theorem exec_rldb_of_ge {k : BitVec 24} {s : State} (b : Byte) (hl : live s) (h : s.cfg.rcap ≤ k.toNat) :
    exec (.rldb k b) s = .next (faulted .invalidArgument s) :=
  (congrArg (runCommand s) (if_pos h)).trans (runCommand_error hl)

/-- Settles O32: the new RMEM is the old one with one byte written, which keeps the canonical form and every other byte. -/
theorem rldbLoadsOneByte : Obligations.RldbLoadsOneByte := by
  refine ⟨fun s k b hl hm => ⟨fun h => ?_, exec_rldb_of_ge b hl⟩, zCommand_rldb⟩
  exact ⟨s.rmem.write k.toNat b, exec_rldb_of_lt b hl h, Memory.write_wf _ hm _ _, Memory.read_write _ hm _ b⟩

/-! ### Reading fields -/

/-- A word that holds n bits of the view, bit by bit: zero-extended (20_memory.md R78). -/
theorem ofNat_viewBits_getLsbD (s : State) (p n : Nat) {j : Nat} (hj : j < 32) :
    (BitVec.ofNat 32 (viewBits s p n)).getLsbD j = (decide (j < n) && viewBit s (p + j)) := by
  rw [BitVec.getLsbD_ofNat, decide_eq_true hj, Bool.true_and, viewBits_testBit]

/-- A command whose body is `readBits n` reads a field of n bits. -/
theorem readsField_of_exec {i : Instr} {n : Nat} (h : ∀ s, exec i s = runCommand s (readBits n s)) : readsField i n := by
  intro s hl
  obtain ⟨hroom, hover⟩ := runCommand_readBits n hl
  refine ⟨fun hle => ?_, fun hlt => (h s).trans (hover hlt)⟩
  exact ⟨_, (h s).trans (hroom hle), fun j hj => ofNat_viewBits_getLsbD s s.rpos n hj⟩

theorem readsField_rbit : readsField .rbit 1 := readsField_of_exec fun _ => rfl

theorem readsField_rbyte : readsField .rbyte 8 := readsField_of_exec fun _ => rfl

/-- Settles O33: RBIT and RBYTE are reads of fields of 1 and 8 bits, and their rows of the opcode map have format Z. -/
theorem rbitAndRbyteReadFields : Obligations.RbitAndRbyteReadFields :=
  ⟨readsField_rbit, readsField_rbyte, zCommand_rbit, zCommand_rbyte⟩

theorem exec_rbits_of_legal {n : BitVec 8} (h : legalCount n) (s : State) :
    exec (.rbits n) s = runCommand s (readBits n.toNat s) :=
  congrArg (runCommand s) (if_pos h)

theorem exec_rbits_of_illegal {n : BitVec 8} (h : ¬ legalCount n) {s : State} (hl : live s) :
    exec (.rbits n) s = .next (faulted .invalidArgument s) :=
  (congrArg (runCommand s) (if_neg h)).trans (runCommand_error hl)

/-- Settles O34: a legal count reads a field of that many bits, and an illegal one faults before the view's end is looked
at. -/
theorem rbitsReadsAField : Obligations.RbitsReadsAField :=
  ⟨fun _ h1 h2 => readsField_of_exec (exec_rbits_of_legal ⟨h1, h2⟩),
    fun _ _ hl h => exec_rbits_of_illegal (by omega) hl, argCommand_rbits⟩

/-! ### The remaining bits -/

theorem exec_rrem {s : State} (hl : live s) : exec .rrem s = .next (setDout (BitVec.ofNat 32 (remaining s)) s) :=
  runCommand_ok hl

/-- Inside the view the remaining bits are those from RPOS to its end (10_state.md R43). -/
theorem rpos_add_remaining {s : State} (h : s.rpos ≤ 8 * s.rlen) : s.rpos + remaining s = 8 * s.rlen :=
  Nat.add_sub_of_le h

/-- Settles O35: RREM reports `remaining`, which with RPOS makes up the view. -/
theorem rremReportsTheRemainingBits : Obligations.RremReportsTheRemainingBits :=
  ⟨fun s hl h => ⟨remaining s, exec_rrem hl, rpos_add_remaining h⟩, zCommand_rrem⟩

end Sys2Proof.Machine
end

section
/-! The rows of the prefix-code commands in the opcode map (30_encoding.md R108): all four have format Z. -/

namespace Sys2Proof.Machine

open Sys2Proof.Safety

theorem zCommand_penc28 : zCommand 0x30 .penc28 :=
  zCommand_of_decode_row fun c h => by simp only [decode, h]; rfl

theorem zCommand_penc5 : zCommand 0x31 .penc5 :=
  zCommand_of_decode_row fun c h => by simp only [decode, h]; rfl

theorem zCommand_pdec28 : zCommand 0x32 (fun _ => .pdec28) :=
  zCommand_of_decode_row fun c h => by simp only [decode, h]; rfl

theorem zCommand_pdec5 : zCommand 0x33 (fun _ => .pdec5) :=
  zCommand_of_decode_row fun c h => by simp only [decode, h]; rfl

end Sys2Proof.Machine
end

section
/-! Encoding and decoding a symbol, for every table (43_prefix_code.md R180, R183, R185). -/

namespace Sys2Proof.Machine

open Sys2Proof.Safety

/-! ### Encoding -/

theorem prefixEncode_of_lt {N : Nat} (T : Vector PrefixEntry N) {sym : Word} (h : sym.toNat < N) (s : State) :
    prefixEncode T sym s = append [⟨T[sym.toNat].code, T[sym.toNat].len⟩] s := by
  have hget : T.toList[sym.toNat]? = some T[sym.toNat] := by simp [h]
  simp only [prefixEncode, hget]

theorem prefixEncode_of_ge {N : Nat} (T : Vector PrefixEntry N) {sym : Word} (h : N ≤ sym.toNat) (s : State) :
    prefixEncode T sym s = .error .invalidState := by
  have hget : T.toList[sym.toNat]? = none := by simp [h]
  simp only [prefixEncode, hget]

/-! ### The bits left to read against a codeword -/

variable {N L : Nat} {T : Vector PrefixEntry N} {s : State}

theorem viewRest_eq_lowBits (s : State) : viewRest s = lowBits (viewBits s s.rpos (remaining s)) (remaining s) := by
  rw [← viewRest_take s (remaining s) (Nat.le_refl _), List.take_of_length_le]
  exact (viewRest_length s).le

/-- The first k bits left begin a codeword exactly when the k-bit read agrees with the low bits of its code. -/
theorem viewBits_prefix_codeword (s : State) (sym : Fin N) (k : Nat) :
    lowBits (viewBits s s.rpos k) k <+: codeword T sym ↔ k ≤ T[sym].len ∧ T[sym].code % 2 ^ k = viewBits s s.rpos k := by
  rw [codeword, lowBits_prefix, viewBits_mod s s.rpos k k (Nat.le_refl k), eq_comm (a := viewBits s s.rpos k)]

/-- The first k bits left begin with a codeword exactly when a read of its length gives its code. -/
theorem codeword_prefix_viewBits (hT : prefixTableWf T L) (s : State) (sym : Fin N) (k : Nat) :
    codeword T sym <+: lowBits (viewBits s s.rpos k) k ↔ T[sym].len ≤ k ∧ viewBits s s.rpos T[sym].len = T[sym].code := by
  obtain ⟨hcode, -, -⟩ := hT
  rw [codeword, lowBits_prefix, Nat.mod_eq_of_lt (hcode sym).2.2]
  exact and_congr_right fun hle => by rw [viewBits_mod _ _ _ _ hle, eq_comm]

/-! ### Decoding -/

theorem prefixDecode_of_walk_ok {sym p : Nat} (h : prefixWalk T s (remaining s) s.rpos 0 0 = .ok (sym, p)) :
    prefixDecode T s = .ok { s with rpos := p, dout := BitVec.ofNat 32 sym } := by
  simp only [prefixDecode, h]

theorem prefixDecode_of_walk_error {c : Cause} (h : prefixWalk T s (remaining s) s.rpos 0 0 = .error c) :
    prefixDecode T s = .error c := by
  simp only [prefixDecode, h]

/-- The view holds a codeword: the walk ends at its symbol, however many bits are left after it. -/
theorem prefixDecode_of_viewHolds (hT : prefixTableWf T L) {sym : Fin N} (hv : viewHolds s s.rpos (codeword T sym)) :
    prefixDecode T s = .ok { s with rpos := s.rpos + T[sym].len, dout := BitVec.ofNat 32 sym } := by
  obtain ⟨hpos, -, -⟩ := hT.1 sym
  have hroom : T[sym].len ≤ 0 + remaining s := by
    obtain ⟨hend, -⟩ := hv
    rw [codeword, lowBits_length] at hend
    unfold remaining
    omega
  exact prefixDecode_of_walk_ok (prefixWalk_of_viewHolds hT s sym hv (remaining s) 0 hpos hroom)

/-- The view ends inside a codeword: the walk uses up the bits left. -/
theorem prefixDecode_of_short (hT : prefixTableWf T L) {sym : Fin N} (hpre : viewRest s <+: codeword T sym)
    (hne : viewRest s ≠ codeword T sym) : prefixDecode T s = .error .readOverrun := by
  have hlt : remaining s < T[sym].len := by
    have hlen := lt_of_le_of_ne hpre.length_le fun he => hne (hpre.eq_of_length he)
    rwa [viewRest_length, codeword, lowBits_length] at hlen
  rw [viewRest_eq_lowBits, viewBits_prefix_codeword] at hpre
  exact prefixDecode_of_walk_error
    (prefixWalk_of_short hT s sym (remaining s) hlt hpre.2 (remaining s) 0 (Nat.zero_add _))

/-- The first k bits left lead out of the tree (R183): the walk stops at the first bit that does. -/
theorem prefixDecode_of_noCodeword (hT : prefixTableWf T L) {k : Nat} (hk : 1 ≤ k) (hlen : k ≤ (viewRest s).length)
    (hno : ∀ sym : Fin N, ¬ (viewRest s).take k <+: codeword T sym ∧ ¬ codeword T sym <+: (viewRest s).take k) :
    prefixDecode T s = .error .badCode := by
  rw [viewRest_length] at hlen
  simp only [viewRest_take s k hlen, viewBits_prefix_codeword, codeword_prefix_viewBits hT] at hno
  exact prefixDecode_of_walk_error
    (prefixWalk_of_bad s k hno (remaining s) 0 hk (hlen.trans_eq (Nat.zero_add _).symm))

end Sys2Proof.Machine
end

section
/-! The prefix-code commands (43_prefix_code.md R181, R182, R186, R187), each over its own table. -/

namespace Sys2Proof.Machine

open Sys2Proof.Safety

/-- A command whose body is `prefixEncode`: a symbol of the table is an append of one field, whose stream bits are the
codeword, and any other faults before the room is looked at. -/
theorem encodesSymbols_of_exec {N : Nat} {T : Config → Vector PrefixEntry N} {i : Word → Instr}
    (h : ∀ sym s, exec (i sym) s = runCommand s (prefixEncode (T s.cfg) sym s)) : encodesSymbols T i := by
  intro s sym hl hw
  refine ⟨fun hlt => ?_, fun hge => ?_⟩
  · rw [h, prefixEncode_of_lt _ hlt]
    exact runCommand_append _ hl hw _ (List.append_nil _)
  · rw [h, prefixEncode_of_ge _ hge, runCommand_error hl]

/-- Settles O36: both commands are `prefixEncode` over their table, and their rows of the opcode map have format Z. -/
theorem pencAppendsTheCodeword : Obligations.PencAppendsTheCodeword :=
  ⟨encodesSymbols_of_exec fun _ _ => rfl, encodesSymbols_of_exec fun _ _ => rfl, zCommand_penc28, zCommand_penc5⟩

/-- A command whose body is `prefixDecode` decodes one symbol of its table, by the three outcomes above. -/
theorem decodesSymbols_of_exec {N L : Nat} {T : Config → Vector PrefixEntry N} {i : Instr}
    (h : ∀ s, exec i s = runCommand s (prefixDecode (T s.cfg) s)) : decodesSymbols T L i := by
  intro s hl hT
  refine ⟨fun sym hv => ?_, fun sym hpre hne => ?_, fun k hk hlen hno => ?_⟩
  · rw [h, prefixDecode_of_viewHolds hT hv, runCommand_ok hl]
  · rw [h, prefixDecode_of_short hT hpre hne, runCommand_error hl]
  · rw [h, prefixDecode_of_noCodeword hT hk hlen hno, runCommand_error hl]

/-- Settles O37: both commands are `prefixDecode` over their table, and their rows of the opcode map have format Z. -/
theorem pdecDecodesTheCodeword : Obligations.PdecDecodesTheCodeword :=
  ⟨decodesSymbols_of_exec fun _ => rfl, decodesSymbols_of_exec fun _ => rfl, zCommand_pdec28, zCommand_pdec5⟩

end Sys2Proof.Machine
end

section
/-! The rows of the codepoint commands in the opcode map (30_encoding.md R108): all six have format Z. -/

namespace Sys2Proof.Machine

open Sys2Proof.Safety

theorem zCommand_caenc : zCommand 0x40 .caenc :=
  zCommand_of_decode_row fun c h => by simp only [decode, h]; rfl

theorem zCommand_cadec : zCommand 0x41 (fun _ => .cadec) :=
  zCommand_of_decode_row fun c h => by simp only [decode, h]; rfl

theorem zCommand_cdenc : zCommand 0x42 .cdenc :=
  zCommand_of_decode_row fun c h => by simp only [decode, h]; rfl

theorem zCommand_cdlit : zCommand 0x43 .cdlit :=
  zCommand_of_decode_row fun c h => by simp only [decode, h]; rfl

theorem zCommand_cdleave : zCommand 0x44 (fun _ => .cdleave) :=
  zCommand_of_decode_row fun c h => by simp only [decode, h]; rfl

theorem zCommand_cddec : zCommand 0x45 (fun _ => .cddec) :=
  zCommand_of_decode_row fun c h => by simp only [decode, h]; rfl

end Sys2Proof.Machine
end

section
/-! The codepoint commands that append (44_codepoint.md R200, R201, R203 to R208). -/

namespace Sys2Proof.Machine

open Sys2Proof.Safety

/-- An append as part of a command: its bits are in place, or WRITE_OVERFLOW (20_memory.md R74, R75). -/
theorem append_of_room {fs : List Field} {s : State} (hw : s.wmem.wf)
    (h : s.wpos + (fieldBits fs).length ≤ 8 * s.cfg.wcap) : ∃ t, append fs s = .ok t ∧ Appended s t (fieldBits fs) := by
  rw [fieldBits_length] at h
  exact ⟨appendFields fs s, if_neg (Nat.not_lt_of_le h), appendFields_appended fs s hw⟩

theorem append_of_full {fs : List Field} {s : State} (h : 8 * s.cfg.wcap < s.wpos + (fieldBits fs).length) :
    append fs s = .error .writeOverflow := by
  rw [fieldBits_length] at h
  exact if_pos h

/-! ### CAENC -/

theorem absEncode_of_not_scalar {c : Nat} (hc : ¬ scalar c) (s : State) : absEncode c s = .error .invalidState :=
  if_neg hc

theorem absEncode_of_append_ok {c : Nat} {s t : State} (hc : scalar c) (h : append (absFields s.cfg c) s = .ok t) :
    absEncode c s = .ok (setPrev c t) := by
  rw [absEncode, if_pos hc, h]

theorem absEncode_of_append_error {c : Nat} {s : State} {e : Cause} (hc : scalar c)
    (h : append (absFields s.cfg c) s = .error e) : absEncode c s = .error e := by
  rw [absEncode, if_pos hc, h]

theorem exec_caenc (c : Word) (s : State) : exec (.caenc c) s = runCommand s (absEncode c.toNat s) := rfl

/-- Settles O40: a scalar c is an append of the fields of its first tier, whose stream bits are its absolute code, and then
the new PREV. -/
theorem caencAppendsTheTierCode : Obligations.CaencAppendsTheTierCode := by
  refine ⟨fun s c hl hw => ⟨fun hc => ?_, fun hc => ?_⟩, zCommand_caenc⟩
  · rw [exec_caenc, absEncode_of_not_scalar hc, runCommand_error hl]
  · refine ⟨fieldBits (absFields s.cfg c.toNat), absFields_absCode _ _, fun hroom => ?_, fun hfull => ?_⟩
    · obtain ⟨t, happend, happ⟩ := append_of_room hw hroom
      refine ⟨t, happ, ?_⟩
      rw [exec_caenc, absEncode_of_append_ok hc happend, runCommand_ok hl, setPrev]
    · rw [exec_caenc, absEncode_of_append_error hc (append_of_full hfull), runCommand_error hl]

/-! ### CDENC -/

theorem deltaEncode_of_not_scalar {c : Nat} (hc : ¬ scalar c) (s : State) : deltaEncode c s = .error .invalidState :=
  if_neg hc

theorem deltaEncode_of_noPrev {c : Nat} {s : State} (hc : scalar c) (hv : s.prevValid = false) :
    deltaEncode c s = .error .noPrev := by
  rw [deltaEncode, if_pos hc, if_neg (by rw [hv]; decide)]

theorem deltaEncode_of_append_ok {c : Nat} {s t : State} (hc : scalar c) (hv : s.prevValid = true)
    (h : append (deltaFields s.prevCp.toNat c) s = .ok t) : deltaEncode c s = .ok { t with prevCp := BitVec.ofNat 21 c } := by
  rw [deltaEncode, if_pos hc, if_pos hv, h]

theorem deltaEncode_of_append_error {c : Nat} {s : State} {e : Cause} (hc : scalar c) (hv : s.prevValid = true)
    (h : append (deltaFields s.prevCp.toNat c) s = .error e) : deltaEncode c s = .error e := by
  rw [deltaEncode, if_pos hc, if_pos hv, h]

theorem exec_cdenc (c : Word) (s : State) : exec (.cdenc c) s = runCommand s (deltaEncode c.toNat s) := rfl

/-- Settles O42: the two checks come before the append; the fields appended are the descriptor and the payload of the
smallest form, whose stream bits are the delta code. -/
theorem cdencAppendsTheDeltaCode : Obligations.CdencAppendsTheDeltaCode := by
  refine ⟨fun s c hl hw => ⟨fun hc => ?_, fun hc hv => ?_, fun hc hv => ?_⟩, zCommand_cdenc⟩
  · rw [exec_cdenc, deltaEncode_of_not_scalar hc, runCommand_error hl]
  · rw [exec_cdenc, deltaEncode_of_noPrev hc hv, runCommand_error hl]
  · refine ⟨fieldBits (deltaFields s.prevCp.toNat c.toNat), deltaFields_deltaCode _ _, fun hroom => ?_, fun hfull => ?_⟩
    · obtain ⟨t, happend, happ⟩ := append_of_room hw hroom
      refine ⟨t, happ, ?_⟩
      rw [exec_cdenc, deltaEncode_of_append_ok hc hv happend, runCommand_ok hl]
    · rw [exec_cdenc, deltaEncode_of_append_error hc hv (append_of_full hfull), runCommand_error hl]

/-! ### CDLIT and CDLEAVE -/

theorem exec_cdlit_of_ge {j : Word} {s : State} (hl : live s) (h : 4 ≤ j.toNat) :
    exec (.cdlit j) s = .next (faulted .invalidArgument s) :=
  (congrArg (runCommand s) (if_pos h)).trans (runCommand_error hl)

theorem exec_cdlit_of_lt {j : Word} (h : j.toNat < 4) (s : State) :
    exec (.cdlit j) s = runCommand s (append [⟨7, 3⟩, ⟨j.toNat, 2⟩] s) :=
  congrArg (runCommand s) (if_neg (Nat.not_le_of_lt h))

/-- Descriptor 7 and a literal index in stream order (44_codepoint.md R203, R207). -/
theorem fieldBits_literal (j : Nat) : fieldBits [⟨7, 3⟩, ⟨j, 2⟩] = [true, true, true] ++ lowBits j 2 := rfl

/-- Descriptor 6 in stream order (44_codepoint.md R203, R208). -/
theorem fieldBits_leave : fieldBits [⟨6, 3⟩] = [false, true, true] := by decide

/-- Settles O43: CDLIT checks its index and then appends two fields, CDLEAVE appends one. -/
theorem cdlitAndCdleaveAppendDescriptors : Obligations.CdlitAndCdleaveAppendDescriptors := by
  refine ⟨fun s j hl hw => ?_, fun s hl hw => runCommand_append _ hl hw _ fieldBits_leave, zCommand_cdlit, zCommand_cdleave⟩
  obtain ⟨hroom, hfull⟩ := runCommand_append _ hl hw _ (fieldBits_literal j.toNat)
  refine ⟨exec_cdlit_of_ge hl, fun hj h => ?_, fun hj h => ?_⟩
  · rw [exec_cdlit_of_lt hj]
    exact hroom h
  · rw [exec_cdlit_of_lt hj]
    exact hfull h

end Sys2Proof.Machine
end

section
/-! Decoding an absolute code (44_codepoint.md R202): the flag bits select the tier, and its field is then read. -/

namespace Sys2Proof.Machine

open Sys2Proof.Safety

variable {s : State} {bs : List Bool}

/-! ### The tiers -/

theorem absRead_of_flagA (h : viewHolds s s.rpos (true :: bs)) :
    absRead s = (withBits s (s.rpos + 1) 8 fun i p =>
      (s.cfg.lowcp.toList[i]?).elim (.error .badCodepoint) fun c => .ok (c.toNat, p)) ∧
    viewHolds s (s.rpos + 1) bs := by
  obtain ⟨hflag, hrest⟩ := withBits_of_viewHolds_cons h
  refine ⟨?_, hrest⟩
  rw [absRead, hflag, if_pos Bool.toNat_true]
  congr 1
  funext i p
  cases s.cfg.lowcp.toList[i]? <;> rfl

theorem absRead_of_flagsB (h : viewHolds s s.rpos (false :: true :: bs)) :
    absRead s = (withBits s (s.rpos + 2) 14 fun o p => .ok (baseB s.cfg + o, p)) ∧ viewHolds s (s.rpos + 2) bs := by
  obtain ⟨hflag, hrest⟩ := withBits_of_viewHolds_cons h
  obtain ⟨hflag', hrest'⟩ := withBits_of_viewHolds_cons hrest
  refine ⟨?_, hrest'⟩
  rw [absRead, hflag, if_neg (by decide), hflag', if_pos Bool.toNat_true]

theorem absRead_of_flagsC (h : viewHolds s s.rpos (false :: false :: bs)) :
    absRead s = (withBits s (s.rpos + 2) 21 fun c p => .ok (c, p)) ∧ viewHolds s (s.rpos + 2) bs := by
  obtain ⟨hflag, hrest⟩ := withBits_of_viewHolds_cons h
  obtain ⟨hflag', hrest'⟩ := withBits_of_viewHolds_cons hrest
  refine ⟨?_, hrest'⟩
  rw [absRead, hflag, if_neg (by decide), hflag', if_neg (by decide)]

/-! ### Whole codes -/

theorem absRead_of_tierA (i : Fin 32) (h : viewHolds s s.rpos (true :: lowBits i 8)) :
    absRead s = .ok (s.cfg.lowcp[i].toNat, s.rpos + 9) := by
  obtain ⟨hread, hindex⟩ := absRead_of_flagA h
  rw [hread, withBits_of_viewHolds hindex (by omega)]
  simp

theorem absRead_of_tierA_of_ge {i : Nat} (hi : 32 ≤ i) (hlt : i < 256) (h : viewHolds s s.rpos (true :: lowBits i 8)) :
    absRead s = .error .badCodepoint := by
  obtain ⟨hread, hindex⟩ := absRead_of_flagA h
  rw [hread, withBits_of_viewHolds hindex hlt, List.getElem?_eq_none (by simpa using hi), Option.elim_none]

theorem absRead_of_tierB {o : Nat} (ho : o < 2 ^ 14) (h : viewHolds s s.rpos (false :: true :: lowBits o 14)) :
    absRead s = .ok (baseB s.cfg + o, s.rpos + 16) := by
  obtain ⟨hread, hoffset⟩ := absRead_of_flagsB h
  rw [hread, withBits_of_viewHolds hoffset ho]

theorem absRead_of_tierC {c : Nat} (hc : c < 2 ^ 21) (h : viewHolds s s.rpos (false :: false :: lowBits c 21)) :
    absRead s = .ok (c, s.rpos + 23) := by
  obtain ⟨hread, hvalue⟩ := absRead_of_flagsC h
  rw [hread, withBits_of_viewHolds hvalue hc]

/-! ### Codes the view ends inside -/

theorem viewBit_of_viewRest {i : Nat} {b : Bool} (h : (viewRest s)[i]? = some b) :
    s.rpos + i < 8 * s.rlen ∧ viewBit s (s.rpos + i) = b := by
  have hlt := (List.getElem?_eq_some_iff.mp h).1
  rw [viewRest_getElem?, if_pos hlt] at h
  rw [viewRest_length] at hlt
  exact ⟨by omega, Option.some.inj h⟩

theorem viewHolds_singleton_of_viewRest {a : Bool} (ha : (viewRest s)[0]? = some a) : viewHolds s s.rpos [a] := by
  obtain ⟨hend, hbit⟩ := viewBit_of_viewRest ha
  refine ⟨hend, fun i hi => ?_⟩
  obtain rfl : i = 0 := Nat.lt_one_iff.mp hi
  exact hbit

theorem viewHolds_pair_of_viewRest {a b : Bool} (ha : (viewRest s)[0]? = some a) (hb : (viewRest s)[1]? = some b) :
    viewHolds s s.rpos [a, b] := by
  obtain ⟨-, hbit⟩ := viewBit_of_viewRest ha
  obtain ⟨hend, hbit'⟩ := viewBit_of_viewRest hb
  refine ⟨hend, fun i hi => ?_⟩
  obtain rfl | rfl : i = 0 ∨ i = 1 := Nat.le_one_iff_eq_zero_or_eq_one.mp (Nat.le_of_lt_succ hi)
  · exact hbit
  · exact hbit'

theorem absRead_of_empty (h : viewRest s = []) : absRead s = .error .readOverrun := by
  have hlen := viewRest_length s
  rw [h, List.length_nil] at hlen
  exact withBits_of_overrun (by omega)

theorem absRead_of_single_false (h : viewRest s = [false]) : absRead s = .error .readOverrun := by
  have hlen := viewRest_length s
  rw [h, List.length_singleton] at hlen
  have hflag : viewHolds s s.rpos [false] := viewHolds_singleton_of_viewRest (by rw [h]; rfl)
  rw [absRead, (withBits_of_viewHolds_cons hflag).1, if_neg (by decide), withBits_of_overrun (by omega)]

theorem absRead_of_short_tierA (h : (viewRest s)[0]? = some true) (hshort : (viewRest s).length < 9) :
    absRead s = .error .readOverrun := by
  rw [viewRest_length] at hshort
  obtain ⟨hread, -⟩ := absRead_of_flagA (viewHolds_singleton_of_viewRest h)
  rw [hread, withBits_of_overrun (by omega)]

theorem absRead_of_short_tierB (h0 : (viewRest s)[0]? = some false) (h1 : (viewRest s)[1]? = some true)
    (hshort : (viewRest s).length < 16) : absRead s = .error .readOverrun := by
  rw [viewRest_length] at hshort
  obtain ⟨hread, -⟩ := absRead_of_flagsB (viewHolds_pair_of_viewRest h0 h1)
  rw [hread, withBits_of_overrun (by omega)]

theorem absRead_of_short_tierC (h0 : (viewRest s)[0]? = some false) (h1 : (viewRest s)[1]? = some false)
    (hshort : (viewRest s).length < 23) : absRead s = .error .readOverrun := by
  rw [viewRest_length] at hshort
  obtain ⟨hread, -⟩ := absRead_of_flagsC (viewHolds_pair_of_viewRest h0 h1)
  rw [hread, withBits_of_overrun (by omega)]

/-! ### CADEC -/

theorem absDecode_of_read_error {e : Cause} (h : absRead s = .error e) : absDecode s = .error e := by
  rw [absDecode, h]

theorem absDecode_of_read_ok {c p : Nat} (h : absRead s = .ok (c, p)) : absDecode s =
    if scalar c then .ok (setPrev c { s with rpos := p, dout := BitVec.ofNat 32 c }) else .error .badCodepoint := by
  rw [absDecode, h]

theorem exec_cadec (s : State) : exec .cadec s = runCommand s (absDecode s) := rfl

theorem exec_cadec_of_read_error {e : Cause} (hl : live s) (h : absRead s = .error e) :
    exec .cadec s = .next (faulted e s) := by
  rw [exec_cadec, absDecode_of_read_error h, runCommand_error hl]

/-- A whole code is consumed, with its value in DOUT and PREV, when that is a scalar value. -/
theorem exec_cadec_of_read_ok {c p : Nat} (hl : live s) (h : absRead s = .ok (c, p)) :
    if scalar c then
      exec .cadec s = .next { s with rpos := p, dout := BitVec.ofNat 32 c, prevCp := BitVec.ofNat 21 c, prevValid := true }
    else exec .cadec s = .next (faulted .badCodepoint s) := by
  rw [exec_cadec, absDecode_of_read_ok h]
  split
  · rw [runCommand_ok hl, setPrev]
  · rw [runCommand_error hl]

/-- Settles O41: the flag bits the view holds, or ends inside, decide what `absRead` answers; CADEC then checks the value
it read. -/
theorem cadecDecodesTheTierCode : Obligations.CadecDecodesTheTierCode := by
  refine ⟨fun s hl => ?_, zCommand_cadec⟩
  refine ⟨fun i h => exec_cadec_of_read_ok hl (absRead_of_tierA i h),
    fun i hi hlt h => exec_cadec_of_read_error hl (absRead_of_tierA_of_ge hi hlt h),
    fun o ho h => ⟨exec_cadec_of_read_ok hl (absRead_of_tierB ho h), fun hcfg => scalar_tierB s.cfg hcfg o ho⟩,
    fun c hc h => exec_cadec_of_read_ok hl (absRead_of_tierC hc h), fun hshort => exec_cadec_of_read_error hl ?_⟩
  rcases hshort with h | h | ⟨h, hlen⟩ | ⟨h0, h1, hlen⟩ | ⟨h0, h1, hlen⟩
  · exact absRead_of_empty h
  · exact absRead_of_single_false h
  · exact absRead_of_short_tierA h hlen
  · exact absRead_of_short_tierB h0 h1 hlen
  · exact absRead_of_short_tierC h0 h1 hlen

end Sys2Proof.Machine
end

section
/-! Decoding a delta-mode symbol (44_codepoint.md R203, R209, R210). -/

namespace Sys2Proof.Machine

open Sys2Proof.Safety

variable {s : State}

/-! ### The descriptors -/

theorem deltaRead_of_leave (h : viewHolds s s.rpos (lowBits 6 3)) : deltaRead s = .ok (.leave, 0, s.rpos + 3) := by
  rw [deltaRead_of_descriptor (by decide) h, if_pos rfl]

theorem deltaRead_of_literal (j : Fin 4) (h : viewHolds s s.rpos (lowBits 7 3 ++ lowBits j 2)) :
    deltaRead s = .ok (.literal, s.cfg.lit4[j].toNat, s.rpos + 5) := by
  obtain ⟨hdescriptor, hindex⟩ := (viewHolds_append _ _ _ _).mp h
  rw [lowBits_length] at hindex
  rw [deltaRead_of_descriptor (by decide) hdescriptor, if_neg (by decide), if_pos rfl, withBits_of_viewHolds hindex j.isLt]
  simp [Nat.mod_eq_of_lt j.isLt]

theorem deltaRead_of_noPrev {d : Nat} (hd : d < 6) (hv : s.prevValid = false) (h : viewHolds s s.rpos (lowBits d 3)) :
    deltaRead s = .error .noPrev := by
  rw [deltaRead_of_descriptor (by omega) h, if_neg (by omega), if_neg (by omega), if_neg (by rw [hv]; decide)]

/-- A payload added to the previous codepoint, or taken from it, is checked for a scalar value. -/
theorem deltaRead_of_delta {d f w off : Nat} (hd : d < 6) (hform : deltaPayload (d % 3) = (w, off)) (hf : f < 2 ^ w)
    (hv : s.prevValid = true) (h : viewHolds s s.rpos (lowBits d 3 ++ lowBits f w)) {c : Int}
    (hc : c = if d < 3 then (s.prevCp.toNat : Int) + (f + off : Nat) else (s.prevCp.toNat : Int) - (f + off : Nat)) :
    deltaRead s =
      if 0 ≤ c ∧ scalar c.toNat then .ok (.delta, c.toNat, s.rpos + (3 + w)) else .error .badCodepoint := by
  obtain ⟨hdescriptor, hpayload⟩ := (viewHolds_append _ _ _ _).mp h
  rw [lowBits_length] at hpayload
  rw [deltaRead_of_descriptor (by omega) hdescriptor, if_neg (by omega), if_neg (by omega), if_pos hv, hform,
    withBits_of_viewHolds hpayload hf, Nat.add_assoc]
  have hsign : (if 3 ≤ d then (s.prevCp.toNat : Int) - (f + off : Nat) else (s.prevCp.toNat : Int) + (f + off : Nat)) = c := by
    rw [hc]
    split <;> split <;> omega
  simp only [hsign]

/-! ### Symbols the view ends inside -/

theorem deltaRead_of_short_descriptor (h : (viewRest s).length < 3) : deltaRead s = .error .readOverrun := by
  rw [viewRest_length] at h
  exact withBits_of_overrun (by omega)

theorem deltaRead_of_short_literal (h : viewHolds s s.rpos (lowBits 7 3)) (hshort : (viewRest s).length < 3 + 2) :
    deltaRead s = .error .readOverrun := by
  rw [viewRest_length] at hshort
  rw [deltaRead_of_descriptor (by decide) h, if_neg (by decide), if_pos rfl, withBits_of_overrun (by omega)]

theorem deltaRead_of_short_delta {d : Nat} (hd : d < 6) (hv : s.prevValid = true) (h : viewHolds s s.rpos (lowBits d 3))
    (hshort : (viewRest s).length < 3 + (deltaPayload (d % 3)).1) : deltaRead s = .error .readOverrun := by
  rw [viewRest_length] at hshort
  rw [deltaRead_of_descriptor (by omega) h, if_neg (by omega), if_neg (by omega), if_pos hv,
    withBits_of_overrun (by omega)]

/-! ### CDDEC -/

theorem exec_cddec (s : State) : exec .cddec s = runCommand s (deltaDecode s) := rfl

theorem exec_cddec_of_read_error {e : Cause} (hl : live s) (h : deltaRead s = .error e) :
    exec .cddec s = .next (faulted e s) := by
  rw [exec_cddec, deltaDecode, h, runCommand_error hl]

theorem exec_cddec_of_read_ok {k : Kind} {c p : Nat} (hl : live s) (h : deltaRead s = .ok (k, c, p)) :
    exec .cddec s = .next { s with
      rpos := p
      dout := deltaWord k (BitVec.ofNat 21 c)
      prevCp := if k = .delta then BitVec.ofNat 21 c else s.prevCp } := by
  rw [exec_cddec, deltaDecode, h, runCommand_ok hl]

theorem deltaWord_leave : deltaWord .leave (BitVec.ofNat 21 0) = 0x02000000 := by decide

/-- The result word of a literal: kind 1 above the entry of LIT4 (20_memory.md R88). -/
theorem deltaWord_literal : ∀ j : Fin 4, deltaWord .literal (BitVec.ofNat 21 lit4Table[j].toNat) =
    0x01000000#32 + #v[0x20#32, 0x2C#32, 0x2E#32, 0x0A#32][j] := by decide

/-- The payload width and the offset of every delta descriptor (44_codepoint.md R203). -/
theorem deltaPayload_of_mem {d w off : Nat}
    (h : (d, w, off) ∈ [(0, 7, 0), (1, 14, 128), (2, 21, 0), (3, 7, 0), (4, 14, 128), (5, 21, 0)]) :
    d < 6 ∧ deltaPayload (d % 3) = (w, off) := by
  have table : ∀ x ∈ [(0, 7, 0), (1, 14, 128), (2, 21, 0), (3, 7, 0), (4, 14, 128), (5, 21, 0)],
      x.1 < 6 ∧ deltaPayload (x.1 % 3) = x.2 := by decide
  exact table _ h

/-- What follows each descriptor but 6: the index of a literal or the payload of a delta (44_codepoint.md R203). -/
theorem width_after_descriptor {d w : Nat}
    (h : (d, w) ∈ [(0, 7), (1, 14), (2, 21), (3, 7), (4, 14), (5, 21), (7, 2)]) :
    (d = 7 ∧ w = 2) ∨ (d < 6 ∧ w = (deltaPayload (d % 3)).1) := by
  have table : ∀ x ∈ [(0, 7), (1, 14), (2, 21), (3, 7), (4, 14), (5, 21), (7, 2)],
      (x.1 = 7 ∧ x.2 = 2) ∨ (x.1 < 6 ∧ x.2 = (deltaPayload (x.1 % 3)).1) := by decide
  exact table _ h

theorem exec_cddec_of_leave (hl : live s) (h : viewHolds s s.rpos (lowBits 6 3)) :
    exec .cddec s = .next { s with rpos := s.rpos + 3, dout := 0x02000000 } := by
  rw [exec_cddec_of_read_ok hl (deltaRead_of_leave h), deltaWord_leave, if_neg (by decide)]

theorem exec_cddec_of_literal (hl : live s) (hlit : s.cfg.lit4 = lit4Table) (j : Fin 4)
    (h : viewHolds s s.rpos (lowBits 7 3 ++ lowBits j 2)) : exec .cddec s =
      .next { s with rpos := s.rpos + 5, dout := 0x01000000#32 + #v[0x20#32, 0x2C#32, 0x2E#32, 0x0A#32][j] } := by
  rw [exec_cddec_of_read_ok hl (deltaRead_of_literal j h), hlit, deltaWord_literal, if_neg (by decide)]

theorem exec_cddec_of_delta {c p : Nat} (hl : live s) (hc : scalar c) (h : deltaRead s = .ok (.delta, c, p)) :
    exec .cddec s = .next { s with rpos := p, dout := BitVec.ofNat 32 c, prevCp := BitVec.ofNat 21 c } := by
  have hlt : c < 2 ^ 21 := lt_of_le_of_lt hc.1 (by decide)
  rw [exec_cddec_of_read_ok hl h, deltaWord_delta c hlt, if_pos rfl]

/-- Settles O44: the descriptor the view holds decides what `deltaRead` answers, NO_PREV before any payload; CDDEC then
writes the result, and PREV_CP for a delta alone. -/
theorem cddecDecodesTheDeltaSymbol : Obligations.CddecDecodesTheDeltaSymbol := by
  refine ⟨fun s hl hcfg => ?_, zCommand_cddec⟩
  obtain ⟨-, -, -, -, -, hlit, -⟩ := hcfg
  refine ⟨exec_cddec_of_leave hl, exec_cddec_of_literal hl hlit,
    fun d hd hv h => exec_cddec_of_read_error hl (deltaRead_of_noPrev hd hv h),
    fun d f w off hmem hf hv h c hc => ?delta,
    fun h => exec_cddec_of_read_error hl (deltaRead_of_short_descriptor h),
    fun d w hmem hv h hshort => exec_cddec_of_read_error hl ?short⟩
  case delta =>
    obtain ⟨hd, hform⟩ := deltaPayload_of_mem hmem
    have hread := deltaRead_of_delta hd hform hf hv h hc
    refine ⟨fun hok => ?_, fun hbad => ?_⟩
    · rw [if_pos hok] at hread
      exact exec_cddec_of_delta hl hok.2 hread
    · rw [if_neg hbad] at hread
      exact exec_cddec_of_read_error hl hread
  case short =>
    obtain ⟨rfl, rfl⟩ | ⟨hd, rfl⟩ := width_after_descriptor hmem
    · exact deltaRead_of_short_literal h hshort
    · exact deltaRead_of_short_delta hd (hv.resolve_left (by omega)) h hshort

end Sys2Proof.Machine
end

section
/-! The rows of the selector in the opcode map (30_encoding.md R108): all but SOFFER have format Z. -/

namespace Sys2Proof.Machine

open Sys2Proof.Safety

theorem zCommand_sinit : zCommand 0x50 .sinit :=
  zCommand_of_decode_row fun c h => by simp only [decode, h]; rfl

theorem argCommand_soffer : argCommand 0x51 .soffer := fun arg din => by
  simp only [decode, command_op, command_arg]; rfl

theorem zCommand_sfinal : zCommand 0x52 .sfinal :=
  zCommand_of_decode_row fun c h => by simp only [decode, h]; rfl

theorem zCommand_hclass : zCommand 0x53 (fun din => .hclass (din.extractLsb' 8 24) (din.extractLsb' 0 8)) :=
  zCommand_of_decode_row fun c h => by simp only [decode, h]; rfl

end Sys2Proof.Machine
end

section
/-! The header classes of HCLASS (45_selector.md R240), by length and first byte. -/

namespace Sys2Proof.Machine

open Sys2Proof.Safety

variable {l : BitVec 24} {b : Byte}

/-! ### The length rules -/

theorem classify_of_length_zero (h : l.toNat = 0) : classify l b = (.empty, 0, .none) := by
  rw [classify, if_pos h]

theorem classify_of_length_one (h : l.toNat = 1) : classify l b = (.rawUtf8, 0, .none) := by
  rw [classify, if_neg (by omega), if_pos h]

/-! ### The ranges of the first byte -/

theorem classify_of_ascii (h : 2 ≤ l.toNat) (hb : b.toNat ≤ 0x7F) : classify l b = (.rawUtf8, 0, .none) := by
  simp (disch := omega) only [classify, if_neg]

theorem classify_of_packed (h : 2 ≤ l.toNat) (hlo : 0x80 ≤ b.toNat) (hhi : b.toNat ≤ 0xBF) :
    classify l b = (.packed, b.extractLsb' 0 6, .treeSquash) := by
  simp (disch := omega) only [classify, if_neg, if_pos]

theorem classify_of_sequence (h : 2 ≤ l.toNat) (hb : b.toNat = 0xC0) : classify l b = (.sequence, 0, .treeSquash) := by
  simp (disch := omega) only [classify, if_neg, if_pos]

theorem classify_of_unicode (h : 2 ≤ l.toNat) (hb : b.toNat = 0xC1) : classify l b = (.unicode, 0, .treeSquash) := by
  simp (disch := omega) only [classify, if_neg, if_pos]

theorem classify_of_utf8_lead (h : 2 ≤ l.toNat) (hlo : 0xC2 ≤ b.toNat) (hhi : b.toNat ≤ 0xF4) :
    classify l b = (.rawUtf8, 0, .none) := by
  simp (disch := omega) only [classify, if_neg]

theorem classify_of_fixed6 (h : 2 ≤ l.toNat) (hlo : 0xF5 ≤ b.toNat) (hhi : b.toNat ≤ 0xF8) :
    classify l b = (.fixed6, BitVec.ofNat 6 (b.toNat - 0xF5), .fixed6) := by
  simp (disch := omega) only [classify, if_neg, if_pos]

theorem classify_of_fixed6Alt (h : 2 ≤ l.toNat) (hlo : 0xF9 ≤ b.toNat) (hhi : b.toNat ≤ 0xFC) :
    classify l b = (.fixed6Alt, BitVec.ofNat 6 (b.toNat - 0xF9), .fixed6) := by
  simp (disch := omega) only [classify, if_neg, if_pos]

theorem classify_of_fixed5Lower (h : 2 ≤ l.toNat) (hb : b.toNat = 0xFD) :
    classify l b = (.fixed5Lower, 0, .fixed5) := by
  simp (disch := omega) only [classify, if_neg, if_pos]

theorem classify_of_fixed5Upper (h : 2 ≤ l.toNat) (hb : b.toNat = 0xFE) :
    classify l b = (.fixed5Upper, 0, .fixed5) := by
  simp (disch := omega) only [classify, if_neg, if_pos]

theorem classify_of_fixed4 (h : 2 ≤ l.toNat) (hb : b.toNat = 0xFF) : classify l b = (.fixed4, 0, .fixed4) := by
  simp (disch := omega) only [classify, if_neg, if_pos]

/-! ### HCLASS -/

/-- The class, the argument and the method of a header as numbers. -/
def headerFields (x : HeaderClass × BitVec 6 × Method) : Nat × Nat × Nat :=
  ((classCode x.1).toNat, x.2.1.toNat, (methodTag x.2.2).toNat)

theorem exec_hclass {s : State} (hl : live s) (l : BitVec 24) (b : Byte) : exec (.hclass l b) s = .next { s with
    dout := BitVec.ofNat 32 ((headerFields (classify l b)).1 + 256 * (headerFields (classify l b)).2.1 +
      65536 * (headerFields (classify l b)).2.2) } := by
  rw [exec, execHclass, runCommand_ok hl, headerWord_ofNat, setDout, headerFields]

theorem extractLsb'_low6_toNat (hlo : 0x80 ≤ b.toNat) (hhi : b.toNat ≤ 0xBF) :
    (b.extractLsb' 0 6).toNat = b.toNat - 0x80 := by
  rw [BitVec.extractLsb'_toNat, Nat.shiftRight_zero]
  omega

theorem headerFields_of_packed (h : 2 ≤ l.toNat) (hlo : 0x80 ≤ b.toNat) (hhi : b.toNat ≤ 0xBF) :
    headerFields (classify l b) = (2, b.toNat - 0x80, 1) := by
  rw [classify_of_packed h hlo hhi, headerFields, extractLsb'_low6_toNat hlo hhi]
  rfl

theorem headerFields_of_fixed6 (h : 2 ≤ l.toNat) (hlo : 0xF5 ≤ b.toNat) (hhi : b.toNat ≤ 0xF8) :
    headerFields (classify l b) = (5, b.toNat - 0xF5, 4) := by
  rw [classify_of_fixed6 h hlo hhi, headerFields, BitVec.toNat_ofNat, Nat.mod_eq_of_lt (by omega)]
  rfl

theorem headerFields_of_fixed6Alt (h : 2 ≤ l.toNat) (hlo : 0xF9 ≤ b.toNat) (hhi : b.toNat ≤ 0xFC) :
    headerFields (classify l b) = (6, b.toNat - 0xF9, 4) := by
  rw [classify_of_fixed6Alt h hlo hhi, headerFields, BitVec.toNat_ofNat, Nat.mod_eq_of_lt (by omega)]
  rfl

/-- Settles O52: HCLASS reports the fields of `classify`, whose length rules come first and whose ranges of the first byte
are taken one by one above. -/
theorem hclassClassifiesTheHeader : Obligations.HclassClassifiesTheHeader := by
  refine ⟨fun s l b hl => ⟨_, _, _, exec_hclass hl l b, fun h => ?_, fun h => ?_, fun h => ?_⟩, zCommand_hclass⟩
  · exact congrArg headerFields (classify_of_length_zero h)
  · exact congrArg headerFields (classify_of_length_one h)
  · exact ⟨fun hb => congrArg headerFields (classify_of_ascii h hb), headerFields_of_packed h,
      fun hb => congrArg headerFields (classify_of_sequence h hb),
      fun hb => congrArg headerFields (classify_of_unicode h hb),
      fun hlo hhi => congrArg headerFields (classify_of_utf8_lead h hlo hhi),
      headerFields_of_fixed6 h, headerFields_of_fixed6Alt h,
      fun hb => congrArg headerFields (classify_of_fixed5Lower h hb),
      fun hb => congrArg headerFields (classify_of_fixed5Upper h hb),
      fun hb => congrArg headerFields (classify_of_fixed4 h hb)⟩

end Sys2Proof.Machine
end

section
/-! A selection (45_selector.md R231 to R233): SINIT starts it, SOFFER offers a candidate, SFINAL compares with UTF-8. -/

namespace Sys2Proof.Machine

open Sys2Proof.Safety

variable {s : State}

/-! ### SINIT -/

theorem exec_sinit (hl : live s) (t : Word) : exec (.sinit t) s = .next (startSelection t s) := runCommand_ok hl

/-- Settles O47: SINIT answers `startSelection t s`, whose best method has tag 1 and whose result method has tag 0. -/
theorem sinitStartsASelection : Obligations.SinitStartsASelection :=
  ⟨fun s t hl => ⟨startSelection t s, exec_sinit hl t, rfl, rfl, rfl⟩, zCommand_sinit⟩

/-! ### SOFFER -/

theorem offer_of_lt {l : Word} (h : l.toNat < s.bestLen.toNat) (m : Method) :
    offer m l s = { s with bestLen := l, bestMethod := m } := if_pos h

theorem offer_of_ge {l : Word} (h : s.bestLen.toNat ≤ l.toNat) (m : Method) : offer m l s = s :=
  if_neg (Nat.not_lt_of_le h)

theorem exec_soffer_of_illegalTag {m : BitVec 8} (hl : live s) (h : candidateMethod m = none) (l : Word) :
    exec (.soffer m l) s = .next (faulted .invalidArgument s) := by
  simp only [exec, execSoffer, h, runCommand_error hl]

theorem exec_soffer_of_noSelection {m : BitVec 8} {method : Method} (hl : live s) (h : candidateMethod m = some method)
    (hv : s.selValid = false) (l : Word) : exec (.soffer m l) s = .next (faulted .invalidState s) := by
  simp only [exec, execSoffer, h, hv, Bool.false_eq_true, if_false, runCommand_error hl]

theorem exec_soffer_of_selection {m : BitVec 8} {method : Method} (hl : live s) (h : candidateMethod m = some method)
    (hv : s.selValid = true) (l : Word) : exec (.soffer m l) s = .next (offer method l s) := by
  simp only [exec, execSoffer, h, hv, if_true, runCommand_ok hl]

/-- Settles O48: the tag is looked up before SEL_VALID, and `offer` keeps a candidate below BEST_LEN alone. -/
theorem sofferKeepsOnlyAStrictlySmaller : Obligations.SofferKeepsOnlyAStrictlySmaller := by
  refine ⟨fun s m l hl => ⟨fun h => exec_soffer_of_illegalTag hl (candidateMethod_none h) l, fun h2 h4 hv => ?_,
    fun h2 h4 hv hlt => ?_, fun h2 h4 hv hge => ?_⟩, argCommand_soffer⟩
  · obtain ⟨method, hm, -⟩ := candidateMethod_some h2 h4
    exact exec_soffer_of_noSelection hl hm hv l
  · obtain ⟨method, hm, htag⟩ := candidateMethod_some h2 h4
    exact ⟨method, htag, by rw [exec_soffer_of_selection hl hm hv, offer_of_lt hlt]⟩
  · obtain ⟨method, hm, -⟩ := candidateMethod_some h2 h4
    rw [exec_soffer_of_selection hl hm hv, offer_of_ge hge]

/-! ### SFINAL -/

theorem finishSelection_of_lt {u : Word} (h : s.bestLen.toNat < u.toNat) :
    finishSelection u s = { s with
      resSuccess := true, resMethod := s.bestMethod, resValid := true,
      dout := BitVec.ofNat 32 (256 + (methodTag s.bestMethod).toNat) } := by
  simp only [finishSelection, h, decide_true, if_true, finalWord_of_success]

theorem finishSelection_of_le {u : Word} (h : u.toNat ≤ s.bestLen.toNat) :
    finishSelection u s = { s with resSuccess := false, resMethod := .none, resValid := true, dout := 0 } := by
  simp only [finishSelection, Nat.not_lt_of_le h, decide_false, Bool.false_eq_true, if_false, finalWord_of_passthrough]

theorem exec_sfinal_of_noSelection (hl : live s) (hv : s.selValid = false) (u : Word) :
    exec (.sfinal u) s = .next (faulted .invalidState s) := by
  simp only [exec, execSfinal, hv, Bool.false_eq_true, if_false, runCommand_error hl]

theorem exec_sfinal_of_selection (hl : live s) (hv : s.selValid = true) (u : Word) :
    exec (.sfinal u) s = .next (finishSelection u s) := by
  simp only [exec, execSfinal, hv, if_true, runCommand_ok hl]

/-- Settles O49: with a selection SFINAL answers `finishSelection u s`, whose success is BEST_LEN strictly below u. -/
theorem sfinalComparesWithUtf8 : Obligations.SfinalComparesWithUtf8 := by
  refine ⟨fun s u hl => ⟨fun hv => exec_sfinal_of_noSelection hl hv u, fun hv hlt => ?_, fun hv hle => ?_⟩,
    zCommand_sfinal⟩
  · rw [exec_sfinal_of_selection hl hv, finishSelection_of_lt hlt]
  · rw [exec_sfinal_of_selection hl hv, finishSelection_of_le hle]

end Sys2Proof.Machine
end

section
/-! What a step does with the command presented next (30_encoding.md R109), and the command word of a decoded instruction. -/

namespace Sys2Proof.Machine

open Sys2Proof.Safety

/-! ### From the instruction back to the command word -/

theorem cmd_of_formatZ_ok {c : Command} {i j : Instr} {op : Nat} (hop : c.op.toNat = op) (h : formatZ c j = .ok i)
    (hj : (encode j).cmd = BitVec.ofNat 8 op ++ 0#8) : (encode i).cmd = c.cmd := by
  obtain ⟨harg, rfl⟩ := formatZ_ok h
  rw [hj, cmd_of_op c op hop, harg]
  rfl

/-- The encoding of a decoded instruction has the command word it was decoded from (30_encoding.md R108). -/
theorem cmd_of_decode_ok {c : Command} {i : Instr} (h : decode c = .ok i) : (encode i).cmd = c.cmd := by
  unfold decode at h
  split at h <;> rename_i hop
  case h_3 => -- RDREG, the one row of format R
    obtain ⟨-, rfl⟩ := formatR_ok h
    exact (cmd_of_op c 0x02 hop).symm
  case h_6 | h_15 | h_29 => -- WBITS, RBITS and SOFFER, the rows of the formats N and M
    injection h with h
    subst h
    exact (cmd_of_op c _ hop).symm
  case h_32 => cases h
  all_goals exact cmd_of_formatZ_ok hop h rfl

theorem wf_of_decode_ok {c : Command} {i : Instr} (h : decode c = .ok i) : i.wf = true := by
  have hlegal : ¬ illegalCmd c.cmd := fun hill => by
    obtain ⟨e, he⟩ := decode_error_of_illegalCmd hill
    cases h.symm.trans he
  obtain ⟨j, hj, hwf⟩ := decode_wf_of_not_illegalCmd hlegal
  cases h.symm.trans hj
  exact hwf

/-- The words of RDREG are 0x0200 to 0x0208 (30_encoding.md R104). -/
theorem cmd_range_of_decode_rdreg {c : Command} {r : BitVec 8} (h : decode c = .ok (.rdreg r)) :
    0x0200 ≤ c.cmd.toNat ∧ c.cmd.toNat ≤ 0x0208 := by
  have hr : r.toNat ≤ 8 := of_decide_eq_true (wf_of_decode_ok h)
  have hcmd : c.cmd.toNat = 0x02 * 2 ^ 8 + r.toNat := by
    rw [← cmd_of_decode_ok h]
    exact toNat_append 0x02#8 r
  omega

/-! ### The step of a command -/

theorem eq_command_of_cmd {c : Command} {op arg : BitVec 8} (h : c.cmd = op ++ arg) : c = command op arg c.din := by
  rw [command, ← h]

theorem step_of_no_command {s : State} (hp : s.pending = []) : step s = .next s := by
  simp only [step, acceptCommand, hp, idle]

theorem step_of_decode_ok {s : State} {c : Command} {rest : List Command} {i : Instr} (hp : s.pending = c :: rest)
    (h : decode c = .ok i) : step s = exec i { s with pending := rest } := by
  simp only [step, acceptCommand, hp, h]

/-- The step of a command given by its word, whatever its DIN. -/
theorem step_of_cmd {s : State} {c : Command} {rest : List Command} {op arg : BitVec 8} {i : Instr}
    (hp : s.pending = c :: rest) (hc : c.cmd = op ++ arg) (h : ∀ din, decode (command op arg din) = .ok i) :
    step s = exec i { s with pending := rest } :=
  step_of_decode_ok hp (by rw [eq_command_of_cmd hc, h])

/-- The inversion lemma of `step`: the SSBC waits, refuses an illegal word, or executes the decoded instruction. -/
theorem step_cases {s t : State} (h : step s = .next t) :
    (s.pending = [] ∧ t = s) ∨
    ∃ c rest, s.pending = c :: rest ∧
      ((∃ e, decode c = .error e ∧ t = illegalWord { s with pending := rest }) ∨
       ∃ i, decode c = .ok i ∧ exec i { s with pending := rest } = .next t) := by
  cases hp : s.pending with
  | nil =>
    rw [step_of_no_command hp] at h
    injection h with h
    exact .inl ⟨rfl, h.symm⟩
  | cons c rest =>
    refine .inr ⟨c, rest, rfl, ?_⟩
    cases hd : decode c with
    | error e =>
      simp only [step, acceptCommand, hp, hd] at h
      injection h with h
      exact .inl ⟨e, rfl, h.symm⟩
    | ok i => exact .inr ⟨i, rfl, step_of_decode_ok hp hd ▸ h⟩

end Sys2Proof.Machine
end

section
/-! The rules of a fault (60_exceptions.md R252 to R254): what a command that raises one changes, and what a faulted SSBC
still executes. -/

namespace Sys2Proof.Machine

open Sys2Proof.Safety

/-- Settles O13: a live command that completes leaves the SSBC live, and one that faults answers `faulted c` of the state
before it, with a cause c that is not NONE. -/
theorem faultChangesOnlyStatus : Obligations.FaultChangesOnlyStatus := by
  intro i s t hl h hf
  obtain ⟨c, hc, rfl⟩ | e := exec_cases hl h
  · exact ⟨mayRaise_ne_none hc, rfl⟩
  · exact absurd hf (ne_true_of_eq_false (e.live hl))

/-- While faulted, every command but INIT keeps FAULT and CAUSE. -/
theorem exec_keeps_cause_or_init {i : Instr} {s t : State} (hf : s.fault = true) (h : exec i s = .next t) :
    (t.fault = true ∧ t.cause = s.cause) ∨ (i = .init ∧ t = startCall s) := by
  rcases exec_all_cases h with ⟨hl, -⟩ | ⟨-, hinit | ⟨r, w, -, rfl⟩ | ⟨-, rfl⟩⟩
  · exact absurd hf (ne_true_of_eq_false hl)
  · exact .inr hinit
  · exact .inl ⟨hf, rfl⟩
  · exact .inl ⟨hf, rfl⟩

theorem illegalWord_of_faulted {s : State} (hf : s.fault = true) : illegalWord s = s := raise_of_faulted _ s hf

/-- Settles O14: waiting and dropping an illegal word keep FAULT and CAUSE, and so does every instruction but INIT, whose
one command word is 0x0100. -/
theorem firstCauseIsKeptUntilInit : Obligations.FirstCauseIsKeptUntilInit := by
  intro s t hf h
  obtain ⟨-, rfl⟩ | ⟨c, rest, hp, ⟨e, -, rfl⟩ | ⟨i, hd, he⟩⟩ := step_cases h
  · exact .inl ⟨hf, rfl⟩
  · rw [illegalWord_of_faulted (s := { s with pending := rest }) hf]
    exact .inl ⟨hf, rfl⟩
  · obtain hkeep | ⟨rfl, rfl⟩ := exec_keeps_cause_or_init (s := { s with pending := rest }) hf he
    · exact .inl hkeep
    · exact .inr ⟨c, rest, hp, (cmd_of_decode_ok hd).symm, rfl, rfl⟩

/-- No register shows the host's commands. -/
theorem readRegister_pending (r : BitVec 8) (s : State) (rest : List Command) :
    readRegister r { s with pending := rest } = readRegister r s := rfl

/-- Settles O12: the words of NOP, INIT and RDREG decode to their instructions, which execute while faulted; any other word
is illegal, or decodes to an instruction that is neither INIT nor RDREG, and is dropped either way. -/
theorem faultedSsbcExecutesOnlyThreeCommands : Obligations.FaultedSsbcExecutesOnlyThreeCommands := by
  intro s c rest hf hp
  refine ⟨fun hc => ?nop, fun hc => ?init, fun r hr hc => ?rdreg, fun _ hinit hrdreg => ?dropped⟩
  case nop => exact step_of_cmd (op := 0x00) (arg := 0) hp hc nopChangesNothing.2.1
  case init => exact step_of_cmd (op := 0x01) (arg := 0) hp hc initStartsAFreshCall.2.1
  case rdreg =>
    obtain ⟨w, hw⟩ := readRegister_of_le r s hr
    refine ⟨w, hw, ?_⟩
    rw [step_of_cmd hp hc (decode_command_rdreg hr), exec_rdreg_of_some ((readRegister_pending r s rest).trans hw)]
    rfl
  case dropped =>
    cases hd : decode c with
    | error e => exact step_of_decode_error_faulted hf hp hd
    | ok i =>
      rw [step_of_decode_ok hp hd]
      refine exec_of_faulted hf ?_ fun r hi => ?_
      · rintro rfl
        exact hinit (cmd_of_decode_ok hd).symm
      · subst hi
        exact hrdreg (cmd_range_of_decode_rdreg hd)

end Sys2Proof.Machine
end

section
/-! The machine invariant at power-on (10_state.md R51). -/

namespace Sys2Proof.Machine

open Sys2Proof.Safety

/-- In the state after power-on reset nothing is written, bound or selected yet. -/
theorem machineInv_powerOn {cfg : Config} {rmem : Memory} (hcfg : configWf cfg) (hform : rmem.wf)
    (hwithin : rmem.within cfg.rcap) : MachineInv (State.powerOn cfg rmem) where
  config := hcfg
  writerForm := ⟨.nil, nofun⟩
  writerWithin := nofun
  viewForm := hform
  viewWithin := hwithin
  writerRange := Nat.zero_le _
  writerZeros := fun p _ => Memory.bit_nil p
  viewLength := Nat.zero_le _
  viewRange := Nat.zero_le _
  prevScalar := nofun
  causeWithFault := ⟨fun _ => rfl, fun _ => rfl⟩
  resultValid := nofun
  selectionMethod := nofun

/-- Settles O2: the power-on state of a well-formed configuration meets the invariant, and the test configuration is
well-formed, with no byte of RMEM listed. -/
theorem powerOnSatisfiesTheInvariant : Obligations.PowerOnSatisfiesTheInvariant :=
  ⟨fun _ _ => machineInv_powerOn, machineInv_powerOn (by decide) ⟨.nil, nofun⟩ nofun⟩

end Sys2Proof.Machine
end

section
/-! The machine invariant over an update of one part of the state (10_state.md R35 to R46). -/

namespace Sys2Proof.Safety

open Sys2Proof.Machine

variable {s : State}

/-- The invariant does not speak of the host's commands. -/
theorem MachineInv.withPending (h : MachineInv s) (rest : List Command) : MachineInv { s with pending := rest } :=
  { h with }

/-- The invariant does not speak of DOUT. -/
theorem MachineInv.setDout (h : MachineInv s) (w : Word) : MachineInv (setDout w s) := { h with }

theorem MachineInv.faulted (h : MachineInv s) {c : Cause} (hc : c ≠ .none) : MachineInv (faulted c s) :=
  { h with causeWithFault := ⟨fun e => absurd e hc, nofun⟩ }

theorem MachineInv.illegalWord (h : MachineInv s) : MachineInv (illegalWord s) := by
  cases hf : s.fault with
  | true => rwa [illegalWord_of_faulted hf]
  | false =>
    rw [Machine.illegalWord, raise_of_live _ s hf]
    exact h.faulted nofun

theorem MachineInv.startCall (h : MachineInv s) : MachineInv (startCall s) :=
  (machineInv_powerOn h.config h.viewForm h.viewWithin).withPending s.pending

theorem MachineInv.clearWriter (h : MachineInv s) : MachineInv (clearWriter s) :=
  { h with
    writerForm := ⟨.nil, nofun⟩
    writerWithin := nofun
    writerRange := Nat.zero_le _
    writerZeros := fun p _ => Memory.bit_nil p }

/-- Bits with room for them go to the end of the writer, and no bit past its new end is touched. -/
theorem MachineInv.appendList (h : MachineInv s) {bs : List Bool} (room : s.wpos + bs.length ≤ 8 * s.cfg.wcap) :
    MachineInv (appendList bs s) := by
  rw [appendList_frame]
  exact { h with
    writerForm := appendList_wf bs s h.writerForm
    writerWithin := appendList_within bs s _ h.writerWithin room
    writerRange := room
    writerZeros := fun p hp => by
      dsimp only at hp ⊢
      rw [appendList_bit bs s h.writerForm, if_neg (by omega)]
      exact h.writerZeros p (by omega) }

theorem MachineInv.withPrev (h : MachineInv s) {cp : Codepoint} {v : Bool} (hc : v = true → scalar cp.toNat) :
    MachineInv { s with prevCp := cp, prevValid := v } :=
  { h with prevScalar := hc }

theorem MachineInv.bound (h : MachineInv s) {l : Nat} (range : l ≤ s.cfg.rcap) :
    MachineInv { s with rlen := l, rpos := 0 } :=
  { h with
    viewLength := range
    viewRange := Nat.zero_le _ }

theorem MachineInv.loaded (h : MachineInv s) {k : Nat} (range : k < s.cfg.rcap) (b : Byte) :
    MachineInv { s with rmem := s.rmem.write k b } :=
  { h with
    viewForm := Memory.write_wf _ h.viewForm k b
    viewWithin := Memory.within_write _ _ h.viewWithin k b range }

theorem MachineInv.withRpos (h : MachineInv s) {p : Nat} (range : p ≤ 8 * s.rlen) : MachineInv { s with rpos := p } :=
  { h with viewRange := range }

theorem MachineInv.startSelection (h : MachineInv s) (t : Word) : MachineInv (startSelection t s) :=
  { h with
    resultValid := nofun
    selectionMethod := fun _ => nofun }

theorem MachineInv.withBest (h : MachineInv s) {m : Method} (hm : m ≠ .none) (l : Word) :
    MachineInv { s with bestLen := l, bestMethod := m } :=
  { h with selectionMethod := fun _ => hm }

/-- A success is reported together with the best method, which a running selection has. -/
theorem MachineInv.finishSelection (h : MachineInv s) (hv : s.selValid = true) (u : Word) :
    MachineInv (finishSelection u s) := by
  by_cases hlt : s.bestLen.toNat < u.toNat
  · rw [finishSelection_of_lt hlt]
    exact { h with resultValid := fun _ => ⟨rfl, h.selectionMethod hv⟩ }
  · rw [finishSelection_of_le (Nat.le_of_not_lt hlt)]
    exact { h with resultValid := nofun }

end Sys2Proof.Safety
end

section
/-! The machine invariant over every command and every step (70_reset_and_hazards.md R282). -/

namespace Sys2Proof.Machine

open Sys2Proof.Safety

variable {s : State}

/-- A tag that SOFFER takes names a method (45_selector.md R232). -/
theorem candidateMethod_ne_none {m : BitVec 8} {method : Method} (h : candidateMethod m = some method) :
    method ≠ .none := by
  rintro rfl
  unfold candidateMethod at h
  split_ifs at h <;> cases h

/-- The PREV that an effect leaves is the old one or a scalar value. -/
theorem scalar_of_prev (h : MachineInv s) {i : Instr} {cp : Codepoint} {v : Bool}
    (prev : (cp = s.prevCp ∧ v = s.prevValid) ∨ (writesPrev i = true ∧ v = true ∧ scalar cp.toNat)) :
    v = true → scalar cp.toNat := by
  obtain ⟨rfl, rfl⟩ | ⟨-, -, hc⟩ := prev
  · exact h.prevScalar
  · exact fun _ => hc

theorem Effect.machineInv {i : Instr} {t : State} (h : MachineInv s) (e : Effect i s t) : MachineInv t := by
  cases e with
  | same => exact h
  | started => exact h.startCall
  | reported w => exact h.setDout w
  | cleared => exact h.clearWriter
  | appended bs cp v hi room prev => exact (h.appendList room).withPrev (scalar_of_prev h prev)
  | bound l hi range => exact h.bound range
  | loaded k b hi range => exact h.loaded range b
  | consumed p w cp v hi range prev => exact ((h.withRpos range.2).setDout w).withPrev (scalar_of_prev h prev)
  | selecting t => exact h.startSelection t
  | offered m l method hi hm => exact h.withBest (candidateMethod_ne_none hm) l
  | finished u hi hv => exact h.finishSelection hv u

theorem exec_keeps_machineInv {i : Instr} {t : State} (hs : MachineInv s) (h : exec i s = .next t) : MachineInv t := by
  obtain ⟨-, ⟨c, hc, rfl⟩ | e⟩ | ⟨-, ⟨-, rfl⟩ | ⟨r, w, -, rfl⟩ | ⟨-, rfl⟩⟩ := exec_all_cases h
  · exact hs.faulted (mayRaise_ne_none hc)
  · exact e.machineInv hs
  · exact hs.startCall
  · exact hs.setDout w
  · exact hs

/-- Settles O3: waiting changes nothing, an illegal word raises one fault, and an instruction faults, is dropped, or has one
of the effects above, each of which keeps the invariant. -/
theorem stepKeepsTheInvariant : Obligations.StepKeepsTheInvariant := by
  intro s t hs h
  obtain ⟨-, rfl⟩ | ⟨c, rest, -, ⟨e, -, rfl⟩ | ⟨i, -, he⟩⟩ := step_cases h
  · exact hs
  · exact (hs.withPending rest).illegalWord
  · exact exec_keeps_machineInv (hs.withPending rest) he

end Sys2Proof.Machine
end

section
/-! The decoder and the encoder (30_encoding.md R106 to R113): each is the inverse of the other, and both follow the rows of
the opcode table. -/

namespace Sys2Proof.Machine

open Sys2Proof.Safety

/-! ### Decoding an encoded instruction -/

theorem ofBool_low (b : Bool) : (BitVec.zeroExtend 32 (BitVec.ofBool b) : Word).getLsbD 0 = b := by cases b <;> rfl

/-- Settles O8: the row of each instruction decodes its word, and an operand that shares DIN, or fills only a part of it, is
read back from its own bits. -/
theorem decodeOfEncodeIsTheInstruction : Obligations.DecodeOfEncodeIsTheInstruction := by
  intro i hwf
  cases i with
  | nop => exact nopChangesNothing.2.1 0
  | init => exact initStartsAFreshCall.2.1 0
  | rdreg r => exact decode_command_rdreg (of_decide_eq_true hwf) 0
  | wclr => exact zCommand_wclr.1 0
  | wbit b => simp only [encode, zCommand_wbit.1, ofBool_low]
  | wbits n v => exact argCommand_wbits n v
  | wbyte v => simp only [encode, zCommand_wbyte.1, byte_low]
  | wlen => exact zCommand_wlen.1 0
  | wpad => exact zCommand_wpad.1 0
  | wblen => exact zCommand_wblen.1 0
  | wrdb k => exact zCommand_wrdb.1 k
  | rbind l => exact zCommand_rbind.1 l
  | rldb k b => simp only [encode, zCommand_rldb.1, highLow_high, highLow_low]
  | rbit => exact zCommand_rbit.1 0
  | rbits n => exact argCommand_rbits n 0
  | rbyte => exact zCommand_rbyte.1 0
  | rrem => exact zCommand_rrem.1 0
  | penc28 sym => exact zCommand_penc28.1 sym
  | penc5 sym => exact zCommand_penc5.1 sym
  | pdec28 => exact zCommand_pdec28.1 0
  | pdec5 => exact zCommand_pdec5.1 0
  | caenc c => exact zCommand_caenc.1 c
  | cadec => exact zCommand_cadec.1 0
  | cdenc c => exact zCommand_cdenc.1 c
  | cdlit j => exact zCommand_cdlit.1 j
  | cdleave => exact zCommand_cdleave.1 0
  | cddec => exact zCommand_cddec.1 0
  | sinit t => exact zCommand_sinit.1 t
  | soffer m l => exact argCommand_soffer m l
  | sfinal u => exact zCommand_sfinal.1 u
  | hclass l b => simp only [encode, zCommand_hclass.1, highLow_high, highLow_low]

/-- Settles O11: the words with their fields written out; the decoder computes on them. -/
theorem sampleWordsDecode : Obligations.SampleWordsDecode :=
  ⟨rfl, rfl, rfl, rfl, rfl, rfl, rfl, rfl, rfl⟩

/-! ### Encoding a decoded command -/

/-- The operand of a decoded instruction is the DIN of its command without the bits it does not use (30_encoding.md R107). -/
theorem din_of_decode_ok {c : Command} {i : Instr} (h : decode c = .ok i) : (encode i).din = c.din &&& dinMask i := by
  have hnone : (0 : Word) = c.din &&& 0 := BitVec.and_zero.symm
  have hwhole : c.din = c.din &&& 0xFFFFFFFF := (din_whole c.din).symm
  have hpair : (c.high24 ++ c.low8 : Word) = c.din &&& 0xFFFFFFFF := (din_highLow c.din).trans hwhole
  have hbit : (BitVec.zeroExtend 32 (BitVec.ofBool (c.din.getLsbD 0)) : Word) = c.din &&& 1 := din_bit c.din
  have hbyte : (BitVec.zeroExtend 32 c.low8 : Word) = c.din &&& 0xFF := din_byte c.din
  unfold decode at h
  split at h
  case h_3 => -- RDREG, the one row of format R
    obtain ⟨-, rfl⟩ := formatR_ok h
    exact hnone
  case h_6 | h_15 | h_29 => -- WBITS, RBITS and SOFFER, the rows of the formats N and M
    injection h with h
    subst h
    assumption
  case h_32 => cases h
  all_goals
    obtain ⟨-, rfl⟩ := formatZ_ok h
    assumption

/-- Settles O9: the three parts of a command that decodes, each from the row that decoded it. -/
theorem decodedCommandIsTheEncodedCommand : Obligations.DecodedCommandIsTheEncodedCommand :=
  fun _ _ h => ⟨wf_of_decode_ok h, cmd_of_decode_ok h, din_of_decode_ok h⟩

/-! ### The reserved space -/

theorem op_lt_of_cmd (cmd : BitVec 16) : cmd.toNat / 256 < 256 := by
  have := cmd.isLt
  omega

/-- The reserved space is the set of illegal words (30_encoding.md R106, R111): the opcodes of no format are those of the
listed ranges. -/
theorem reservedCmd_iff_illegalCmd (cmd : BitVec 16) : reservedCmd cmd ↔ illegalCmd cmd := by
  have hop := op_lt_of_cmd cmd
  simp only [reservedCmd, illegalCmd]
  generalize cmd.toNat / 256 = op at hop
  have hranges : (op ∉ formatZOpcodes ∧ op ∉ countOrMethodOpcodes ∧ op ≠ 0x02) ↔
      (0x03 ≤ op ∧ op ≤ 0x0F) ∨ (0x18 ≤ op ∧ op ≤ 0x1F) ∨ (0x26 ≤ op ∧ op ≤ 0x2F) ∨ (0x34 ≤ op ∧ op ≤ 0x3F) ∨
        (0x46 ≤ op ∧ op ≤ 0x4F) ∨ 0x54 ≤ op := by
    simp only [formatZOpcodes, countOrMethodOpcodes, List.mem_cons, List.not_mem_nil, or_false]
    omega
  rw [hranges]
  simp only [or_assoc]

/-- Settles O7: the reserved space is the set of illegal words, each of which raises ILLEGAL_COMMAND while every other word
decodes. -/
theorem reservedSpaceIsIllegal : Obligations.ReservedSpaceIsIllegal := by
  intro s c rest hl hp
  obtain ⟨hillegal, hlegal⟩ := illegalWordRaisesIllegalCommand s c rest hl hp
  rw [reservedCmd_iff_illegalCmd]
  refine ⟨hillegal, fun h => ?_⟩
  obtain ⟨i, hi, -⟩ := hlegal h
  exact ⟨i, hi⟩

/-! ### The opcode table -/

/-- Every instruction meets the statement of its row, by its own lemma. -/
theorem tableRow_statement (i : Instr) : Laws.TableRow.Statement i := by
  cases i with
  | nop => exact Laws.TableRow.nop
  | init => exact Laws.TableRow.init
  | rdreg r => exact Laws.TableRow.rdreg r
  | wclr => exact Laws.TableRow.wclr
  | wbit b => exact Laws.TableRow.wbit b
  | wbits n v => exact Laws.TableRow.wbits n v
  | wbyte v => exact Laws.TableRow.wbyte v
  | wlen => exact Laws.TableRow.wlen
  | wpad => exact Laws.TableRow.wpad
  | wblen => exact Laws.TableRow.wblen
  | wrdb k => exact Laws.TableRow.wrdb k
  | rbind l => exact Laws.TableRow.rbind l
  | rldb k b => exact Laws.TableRow.rldb k b
  | rbit => exact Laws.TableRow.rbit
  | rbits n => exact Laws.TableRow.rbits n
  | rbyte => exact Laws.TableRow.rbyte
  | rrem => exact Laws.TableRow.rrem
  | penc28 sym => exact Laws.TableRow.penc28 sym
  | penc5 sym => exact Laws.TableRow.penc5 sym
  | pdec28 => exact Laws.TableRow.pdec28
  | pdec5 => exact Laws.TableRow.pdec5
  | caenc c => exact Laws.TableRow.caenc c
  | cadec => exact Laws.TableRow.cadec
  | cdenc c => exact Laws.TableRow.cdenc c
  | cdlit j => exact Laws.TableRow.cdlit j
  | cdleave => exact Laws.TableRow.cdleave
  | cddec => exact Laws.TableRow.cddec
  | sinit t => exact Laws.TableRow.sinit t
  | soffer m l => exact Laws.TableRow.soffer m l
  | sfinal u => exact Laws.TableRow.sfinal u
  | hclass l b => exact Laws.TableRow.hclass l b

/-- OP as a row of the opcode table fixes it (30_encoding.md R109). -/
def rowOp (r : OpcodeRow) : BitVec 8 := r.pattern.extractLsb' 8 8

/-- A command matches a row of the opcode table (30_encoding.md R109). -/
def matchesRow (c : Command) (r : OpcodeRow) : Prop := c.cmd &&& r.mask = r.pattern

/-- What a row of the opcode table is, by the group of its opcode: the whole word is fixed for format Z, OP alone for the
others. -/
theorem opcodeTable_rows : ∀ r ∈ opcodeTable, r.pattern = rowOp r ++ 0#8 ∧
    ((r.mask = 0xFFFF ∧ (rowOp r).toNat ∈ formatZOpcodes) ∨
     (r.mask = 0xFF00 ∧ (rowOp r).toNat ∈ countOrMethodOpcodes) ∨
     (r.mask = 0xFF00 ∧ r.format = .r ∧ (rowOp r).toNat = 0x02)) := by decide

/-- No two rows share an opcode. -/
theorem opcodeTable_rowOp_nodup : (opcodeTable.map rowOp).Nodup := by decide

/-- A match fixes OP, and for format Z the whole word. -/
theorem matchesRow_cases {c : Command} {r : OpcodeRow} (hr : r ∈ opcodeTable) (h : matchesRow c r) : c.op = rowOp r ∧
    ((c.op.toNat ∈ formatZOpcodes ∧ c.arg = 0) ∨ c.op.toNat ∈ countOrMethodOpcodes ∨
      (c.op.toNat = 0x02 ∧ r.format = .r)) := by
  obtain ⟨hpattern, hgroup⟩ := opcodeTable_rows r hr
  rw [matchesRow, hpattern] at h
  obtain ⟨hmask, hz⟩ | ⟨hmask, hnm⟩ | ⟨hmask, hformat, hrd⟩ := hgroup <;> rw [hmask] at h
  · obtain ⟨hop, harg⟩ := (match_rowZ c _).mp h
    exact ⟨hop, .inl ⟨hop ▸ hz, harg⟩⟩
  · have hop := (match_rowArg c _).mp h
    exact ⟨hop, .inr (.inl (hop ▸ hnm))⟩
  · have hop := (match_rowArg c _).mp h
    exact ⟨hop, .inr (.inr ⟨hop ▸ hrd, hformat⟩)⟩

theorem matchesRow_unique {c : Command} {r r' : OpcodeRow} (hr : r ∈ opcodeTable) (hr' : r' ∈ opcodeTable)
    (h : matchesRow c r) (h' : matchesRow c r') : r = r' :=
  List.inj_on_of_nodup_map opcodeTable_rowOp_nodup hr hr'
    ((matchesRow_cases hr h).1.symm.trans (matchesRow_cases hr' h').1)

theorem matchesRow_of_decode_ok {c : Command} {i : Instr} (h : decode c = .ok i) : matchesRow c (opcodeRow i) := by
  obtain ⟨-, hrow, -⟩ := tableRow_statement i
  rwa [cmd_of_decode_ok h] at hrow

/-- A word that matches a row is legal, unless it names a reserved register. -/
theorem not_illegalCmd_of_matchesRow {c : Command} {r : OpcodeRow} (hr : r ∈ opcodeTable) (h : matchesRow c r)
    (hreg : r.format = .r → c.cmd.toNat % 256 ≤ 8) : ¬ illegalCmd c.cmd := by
  have hdisjoint : (∀ n ∈ formatZOpcodes, n ≠ 0x02) ∧ ∀ n ∈ countOrMethodOpcodes, n ∉ formatZOpcodes ∧ n ≠ 0x02 := by
    decide
  obtain ⟨hz2, hnm2⟩ := hdisjoint
  rw [illegalCmd_iff]
  obtain ⟨-, ⟨hz, harg⟩ | hnm | ⟨hrd, hformat⟩⟩ := matchesRow_cases hr h
  · rintro (⟨hz', -, -⟩ | ⟨-, harg'⟩ | ⟨hrd', -⟩)
    · exact hz' hz
    · exact harg' harg
    · exact hz2 _ hz hrd'
  · rintro (⟨-, hnm', -⟩ | ⟨hz', -⟩ | ⟨hrd', -⟩)
    · exact hnm' hnm
    · exact (hnm2 _ hnm).1 hz'
    · exact (hnm2 _ hnm).2 hrd'
  · have harg := hreg hformat
    rw [← arg_toNat] at harg
    rintro (⟨-, -, hrd'⟩ | ⟨hz', -⟩ | ⟨-, harg'⟩)
    · exact hrd' hrd
    · exact hz2 _ hz' hrd
    · omega

/-- Settles O10: a decoded word is the word of its row, and rows that match one word share its opcode, so they are one row;
a word that matches a row is legal, so it decodes, to an instruction of that one row. -/
theorem decodeFollowsTheOpcodeTable : Obligations.DecodeFollowsTheOpcodeTable := by
  refine ⟨fun c i h => ?_, fun c r hr hmatch hreg => ?_⟩
  · have hrow := matchesRow_of_decode_ok h
    exact ⟨Laws.TableRow.opcodeRow_mem i, hrow,
      fun r hr hmatch => matchesRow_unique hr (Laws.TableRow.opcodeRow_mem i) hmatch hrow⟩
  · obtain ⟨i, hi, -⟩ := decode_wf_of_not_illegalCmd (not_illegalCmd_of_matchesRow hr hmatch hreg)
    exact ⟨i, hi, matchesRow_unique (Laws.TableRow.opcodeRow_mem i) hr (matchesRow_of_decode_ok hi) hmatch⟩

end Sys2Proof.Machine
end

section
/-! What a step answers (30_encoding.md R109, 60_exceptions.md R251, 70_reset_and_hazards.md R280). -/

namespace Sys2Proof.Machine

open Sys2Proof.Safety

/-- NOP, INIT and RDREG answer a next state themselves; every other command is a `runCommand`. -/
theorem exec_next (i : Instr) (s : State) : ∃ t, exec i s = .next t := by
  cases i with
  | nop => exact ⟨_, exec_nop s⟩
  | init => exact ⟨_, exec_init s⟩
  | rdreg r =>
    cases h : readRegister r s with
    | some w => exact ⟨_, exec_rdreg_of_some h⟩
    | none => exact ⟨illegalWord s, by simp only [exec, execRdreg, h]⟩
  | wclr | wlen | wpad | wblen | rrem | sinit | hclass => exact runCommand_next s (.ok _)
  | wbit | wbits | wbyte | wrdb | rbind | rldb | rbit | rbits | rbyte | penc28 | penc5 | pdec28 | pdec5 | caenc | cadec
  | cdenc | cdlit | cdleave | cddec | soffer | sfinal => exact runCommand_next s _

/-- The step of a command that does not decode. -/
theorem step_of_illegal {s : State} {c : Command} {rest : List Command} {e : DecodeError} (hp : s.pending = c :: rest)
    (h : decode c = .error e) : step s = .next (illegalWord { s with pending := rest }) := by
  simp only [step, acceptCommand, hp, h]

/-- Settles O4: waiting, an illegal word and every instruction answer a next state. -/
theorem everyStepAnswersANextState : Obligations.EveryStepAnswersANextState := by
  intro s
  cases hp : s.pending with
  | nil => exact ⟨s, step_of_no_command hp⟩
  | cons c rest =>
    cases hd : decode c with
    | error e => exact ⟨_, step_of_illegal hp hd⟩
    | ok i =>
      rw [step_of_decode_ok hp hd]
      exact exec_next i _

theorem decode_of_decodeTableWord {nbits w : Nat} {i : Instr} (h : decodeTableWord nbits w = some i) :
    decode (tableCommand nbits w) = .ok i := by
  unfold decodeTableWord at h
  split at h
  · rename_i j hj
    injection h with h
    rw [hj, h]
  · cases h

/-- Settles O5: the three forms of `step`; a placed word is the first pending command. -/
theorem stepExecutesTheDecodedCommand : Obligations.StepExecutesTheDecodedCommand :=
  ⟨fun _ _ _ _ hp hd => step_of_decode_ok hp hd, fun _ hp => step_of_no_command hp,
    fun s nbits w _ h =>
      step_of_decode_ok (s := s.withFetchWord nbits w) (present_pending _ s) (decode_of_decodeTableWord h)⟩

/-- Settles O23: `startCall s` and the power-on state with RMEM and the host's commands of s have the same fields. -/
theorem initEqualsPowerOnButForRmem : Obligations.InitEqualsPowerOnButForRmem := exec_init

end Sys2Proof.Machine
end

section
/-! Who writes what (10_state.md R34, §4 to §8), and which fault a command raises (60_exceptions.md R250): read off the effects
of a command. -/

namespace Sys2Proof.Machine

open Sys2Proof.Safety

theorem causeCode_range {c : Cause} (h : c ≠ .none) : 1 ≤ (causeCode c).toNat ∧ (causeCode c).toNat ≤ 8 := by
  revert h
  cases c <;> decide

/-- Settles O15: an effect leaves the SSBC live, so a command after which it is faulted has raised a fault of its own
list. -/
theorem commandsRaiseOnlyTheirCauses : Obligations.CommandsRaiseOnlyTheirCauses := by
  intro i s t hl h hf
  obtain ⟨c, hc, rfl⟩ | e := exec_cases hl h
  · exact ⟨c, hc, rfl, causeCode_range (mayRaise_ne_none hc)⟩
  · exact absurd hf (ne_true_of_eq_false (e.live hl))

variable {i : Instr} {s t : State}

/-- What holds after a fault, after a command that is dropped and after every effect holds after every command. -/
theorem exec_induction {P : State → Prop} (h : exec i s = .next t) (hfault : ∀ c, P (faulted c s)) (hsame : P s)
    (heffect : ∀ u, Effect i s u → P u) : P t := by
  obtain ⟨-, ⟨c, -, rfl⟩ | e⟩ | ⟨-, ⟨rfl, rfl⟩ | ⟨r, w, rfl, rfl⟩ | ⟨-, rfl⟩⟩ := exec_all_cases h
  · exact hfault c
  · exact heffect t e
  · exact heffect _ (.started rfl)
  · exact heffect _ (.reported w rfl rfl rfl)
  · exact hsame

/-- A command that reads the view has a result. -/
theorem writesDout_of_readsView (h : readsView i = true) : writesDout i = true := by
  cases i <;> simp_all [readsView, writesDout]

theorem Effect.dout_eq (e : Effect i s t) (hi : i ≠ .init) (hw : writesDout i = false) : t.dout = s.dout := by
  cases e with
  | same | cleared | bound | loaded | selecting | offered => rfl
  | started h => exact absurd h hi
  | reported w h => exact absurd h (ne_true_of_eq_false hw)
  | appended bs => rw [appendList_frame]
  | consumed p w cp v h => exact absurd (writesDout_of_readsView h) (ne_true_of_eq_false hw)
  | finished u h => exact absurd (h ▸ rfl) (ne_true_of_eq_false hw)

/-- Settles O16: every effect that writes DOUT is INIT's or one of a result command. -/
theorem doutIsWrittenOnlyByResultCommands : Obligations.DoutIsWrittenOnlyByResultCommands :=
  fun _ s _ h hi hw => exec_induction (P := fun u => u.dout = s.dout) h (fun _ => rfl) rfl fun _ e => e.dout_eq hi hw

theorem Effect.writer_eq (e : Effect i s t) (hi : i ≠ .init) (hw : i ≠ .wclr) (ha : appends i = false) :
    t.wmem = s.wmem ∧ t.wpos = s.wpos := by
  cases e with
  | same | reported | bound | loaded | consumed | selecting | offered | finished => exact ⟨rfl, rfl⟩
  | started h => exact absurd h hi
  | cleared h => exact absurd h hw
  | appended bs cp v h => exact absurd h (ne_true_of_eq_false ha)

theorem Effect.view_eq (e : Effect i s t) (hi : i ≠ .init) (hb : ∀ l, i ≠ .rbind l) :
    t.rlen = s.rlen ∧ (readsView i = false → t.rpos = s.rpos) := by
  cases e with
  | same | reported | cleared | loaded | selecting | offered | finished => exact ⟨rfl, fun _ => rfl⟩
  | started h => exact absurd h hi
  | appended bs => rw [appendList_frame]; exact ⟨rfl, fun _ => rfl⟩
  | bound l h => exact absurd h (hb l)
  | consumed p w cp v h => exact ⟨rfl, fun hr => absurd h (ne_true_of_eq_false hr)⟩

theorem Effect.rmem_eq (e : Effect i s t) (hi : ∀ k b, i ≠ .rldb k b) : t.rmem = s.rmem := by
  cases e with
  | same | started | reported | cleared | bound | consumed | selecting | offered | finished => rfl
  | appended bs => rw [appendList_frame]
  | loaded k b h => exact absurd h (hi k b)

theorem Effect.prev_eq (e : Effect i s t) (hi : i ≠ .init) (hw : writesPrev i = false) :
    t.prevCp = s.prevCp ∧ t.prevValid = s.prevValid := by
  cases e with
  | same | reported | cleared | bound | loaded | selecting | offered | finished => exact ⟨rfl, rfl⟩
  | started h => exact absurd h hi
  | appended bs cp v h room prev => exact prev.resolve_right fun ⟨h, _⟩ => ne_true_of_eq_false hw h
  | consumed p w cp v h range prev => exact prev.resolve_right fun ⟨h, _⟩ => ne_true_of_eq_false hw h

theorem Effect.selector_eq (e : Effect i s t) (hi : i ≠ .init) (hs : selects i = false) :
    t.bestLen = s.bestLen ∧ t.bestMethod = s.bestMethod ∧ t.selValid = s.selValid ∧
      t.resMethod = s.resMethod ∧ t.resSuccess = s.resSuccess ∧ t.resValid = s.resValid := by
  cases e with
  | same | reported | cleared | bound | loaded | consumed => exact ⟨rfl, rfl, rfl, rfl, rfl, rfl⟩
  | started h => exact absurd h hi
  | appended bs => rw [appendList_frame]; exact ⟨rfl, rfl, rfl, rfl, rfl, rfl⟩
  | selecting t h => exact absurd (h ▸ rfl) (ne_true_of_eq_false hs)
  | offered m l method h => exact absurd (h ▸ rfl) (ne_true_of_eq_false hs)
  | finished u h => exact absurd (h ▸ rfl) (ne_true_of_eq_false hs)

theorem Effect.host_eq (e : Effect i s t) : t.pending = s.pending ∧ t.cfg = s.cfg := by
  cases e with
  | same | started | reported | cleared | bound | loaded | consumed | selecting | offered | finished => exact ⟨rfl, rfl⟩
  | appended bs => rw [appendList_frame]; exact ⟨rfl, rfl⟩

theorem exec_pending (h : exec i s = .next t) : t.pending = s.pending :=
  exec_induction (P := fun u => u.pending = s.pending) h (fun _ => rfl) rfl fun _ e => e.host_eq.1

theorem exec_cfg (h : exec i s = .next t) : t.cfg = s.cfg :=
  exec_induction (P := fun u => u.cfg = s.cfg) h (fun _ => rfl) rfl fun _ e => e.host_eq.2

/-- Settles O19: unit by unit, the effects that write its state. -/
theorem unitsWriteOnlyTheirOwnState : Obligations.UnitsWriteOnlyTheirOwnState := by
  intro i s t h
  refine ⟨fun hi hw ha => ?writer, fun hi hb => ?view, fun hi => ?rmem, fun hi hw => ?prev, fun hi hs => ?selector,
    exec_pending h⟩
  case writer => exact exec_induction h (fun _ => ⟨rfl, rfl⟩) ⟨rfl, rfl⟩ fun _ e => e.writer_eq hi hw ha
  case view => exact exec_induction h (fun _ => ⟨rfl, fun _ => rfl⟩) ⟨rfl, fun _ => rfl⟩ fun _ e => e.view_eq hi hb
  case rmem => exact exec_induction (P := fun u => u.rmem = s.rmem) h (fun _ => rfl) rfl fun _ e => e.rmem_eq hi
  case prev => exact exec_induction h (fun _ => ⟨rfl, rfl⟩) ⟨rfl, rfl⟩ fun _ e => e.prev_eq hi hw
  case selector =>
    exact exec_induction h (fun _ => ⟨rfl, rfl, rfl, rfl, rfl, rfl⟩) ⟨rfl, rfl, rfl, rfl, rfl, rfl⟩
      fun _ e => e.selector_eq hi hs

theorem raise_cfg (c : Cause) (s : State) : (raise c s).cfg = s.cfg := by
  unfold raise
  split <;> rfl

/-- Settles O18: an illegal word raises at most a fault, and no instruction changes the configuration. -/
theorem tablesAndParametersNeverChange : Obligations.TablesAndParametersNeverChange := by
  refine ⟨fun s t h => ?_, fun _ _ => rfl⟩
  obtain ⟨-, rfl⟩ | ⟨c, rest, -, ⟨e, -, rfl⟩ | ⟨i, -, he⟩⟩ := step_cases h
  · rfl
  · exact raise_cfg .illegalCommand { s with pending := rest }
  · exact exec_cfg (s := { s with pending := rest }) he

end Sys2Proof.Machine
end

section
/-! Nothing past the view is read (20_memory.md §2, 93_implementation_defined.md U1): with other bytes there, every command
body answers the same state but for RMEM. -/

namespace Sys2Proof.Machine

open Sys2Proof.Safety

variable {s : State} (m : Memory)

/-! Another content of RMEM changes RMEM alone. -/

@[simp] theorem withRmem_fault (s : State) : (withRmem m s).fault = s.fault := rfl
@[simp] theorem withRmem_wpos (s : State) : (withRmem m s).wpos = s.wpos := rfl
@[simp] theorem withRmem_rlen (s : State) : (withRmem m s).rlen = s.rlen := rfl
@[simp] theorem withRmem_rpos (s : State) : (withRmem m s).rpos = s.rpos := rfl
@[simp] theorem withRmem_prevCp (s : State) : (withRmem m s).prevCp = s.prevCp := rfl
@[simp] theorem withRmem_prevValid (s : State) : (withRmem m s).prevValid = s.prevValid := rfl
@[simp] theorem withRmem_cfg (s : State) : (withRmem m s).cfg = s.cfg := rfl

/-- A check that does not look at RMEM. -/
theorem ite_withRmem {p : Prop} [Decidable p] {a a' b b' : Except Cause State} (ha : a' = a.map (withRmem m))
    (hb : b' = b.map (withRmem m)) : (if p then a' else b') = (if p then a else b).map (withRmem m) := by
  rw [ha, hb, apply_ite (Except.map (withRmem m))]

/-! ### Appends -/

theorem appendList_withRmem (bs : List Bool) (s : State) :
    appendList bs (withRmem m s) = withRmem m (appendList bs s) := by
  induction bs generalizing s with
  | nil => rfl
  | cons b bs ih => exact ih (appendBit b s)

theorem append_withRmem (fs : List Field) (s : State) : append fs (withRmem m s) = (append fs s).map (withRmem m) := by
  have hok : Except.ok (ε := Cause) (appendFields fs (withRmem m s)) = (Except.ok (appendFields fs s)).map (withRmem m) := by
    rw [appendFields_eq, appendFields_eq, appendList_withRmem]
    rfl
  exact ite_withRmem m rfl hok

theorem prefixEncode_withRmem {N : Nat} (T : Vector PrefixEntry N) (sym : Word) (s : State) :
    prefixEncode T sym (withRmem m s) = (prefixEncode T sym s).map (withRmem m) := by
  by_cases h : sym.toNat < N
  · rw [prefixEncode_of_lt T h, prefixEncode_of_lt T h, append_withRmem]
  · rw [prefixEncode_of_ge T (Nat.le_of_not_lt h), prefixEncode_of_ge T (Nat.le_of_not_lt h)]
    rfl

theorem absEncode_withRmem (c : Nat) (s : State) : absEncode c (withRmem m s) = (absEncode c s).map (withRmem m) := by
  refine ite_withRmem m ?_ rfl
  rw [append_withRmem, withRmem_cfg]
  cases append (absFields s.cfg c) s <;> rfl

theorem deltaEncode_withRmem (c : Nat) (s : State) :
    deltaEncode c (withRmem m s) = (deltaEncode c s).map (withRmem m) := by
  refine ite_withRmem m (ite_withRmem m ?_ rfl) rfl
  rw [append_withRmem, withRmem_prevCp]
  cases append (deltaFields s.prevCp.toNat c) s <;> rfl

/-! ### Reads -/

section
variable {m} (hm : ∀ p, p < 8 * s.rlen → m.bit p = s.rmem.bit p)
include hm

theorem readBits_withRmem (n : Nat) : readBits n (withRmem m s) = (readBits n s).map (withRmem m) := by
  by_cases h : s.rpos + n ≤ 8 * s.rlen
  · rw [readBits, withBits_of_room (by exact h), readBits, withBits_of_room h, withRmem_rpos, viewBits_withRmem hm s.rpos n h]
    rfl
  · rw [readBits, withBits_of_overrun (by exact Nat.lt_of_not_le h), readBits, withBits_of_overrun (Nat.lt_of_not_le h)]
    rfl

/-- The walk has the bits left in the view, and with RPOS past its end none at all. -/
theorem prefixDecode_withRmem {N : Nat} (T : Vector PrefixEntry N) :
    prefixDecode T (withRmem m s) = (prefixDecode T s).map (withRmem m) := by
  have hwalk : prefixWalk T (withRmem m s) (remaining (withRmem m s)) (withRmem m s).rpos 0 0 =
      prefixWalk T s (remaining s) s.rpos 0 0 := by
    by_cases h : s.rpos ≤ 8 * s.rlen
    · exact prefixWalk_withRmem hm T _ _ 0 0 (rpos_add_remaining h).le
    · have hzero : remaining s = 0 := Nat.sub_eq_zero_of_le (Nat.le_of_not_le h)
      rw [show remaining (withRmem m s) = 0 from hzero, hzero]
      rfl
  cases h : prefixWalk T s (remaining s) s.rpos 0 0 with
  | ok x =>
    rw [prefixDecode_of_walk_ok (hwalk.trans h), prefixDecode_of_walk_ok h]
    rfl
  | error c =>
    rw [prefixDecode_of_walk_error (hwalk.trans h), prefixDecode_of_walk_error h]
    rfl

theorem absDecode_withRmem : absDecode (withRmem m s) = (absDecode s).map (withRmem m) := by
  cases h : absRead s with
  | ok x =>
    rw [absDecode_of_read_ok ((absRead_withRmem hm).trans h), absDecode_of_read_ok h]
    split <;> rfl
  | error c =>
    rw [absDecode_of_read_error ((absRead_withRmem hm).trans h), absDecode_of_read_error h]
    rfl

theorem deltaDecode_withRmem : deltaDecode (withRmem m s) = (deltaDecode s).map (withRmem m) := by
  rw [deltaDecode, deltaDecode, deltaRead_withRmem hm]
  cases deltaRead s <;> rfl

end

/-! ### Whole commands -/

/-- A command whose body answers the same with another RMEM does so as a whole, whether it is dropped, completes or
faults. -/
theorem runCommand_withRmem {body body' : Except Cause State} {t : State} (hbody : body' = body.map (withRmem m))
    (h : runCommand s body = .next t) : runCommand (withRmem m s) body' = .next (withRmem m t) := by
  subst hbody
  cases hf : s.fault with
  | true =>
    rw [runCommand_of_faulted s body hf] at h
    injection h with h
    rw [runCommand_of_faulted (withRmem m s) _ hf, h]
  | false =>
    obtain rfl | ⟨c, rfl, rfl⟩ := runCommand_cases hf h
    · exact runCommand_ok (s := withRmem m s) hf
    · exact runCommand_error (s := withRmem m s) hf

/-- RLDB writes its byte to whatever RMEM there is. -/
theorem exec_rldb_withRmem {k : BitVec 24} {b : Byte} {t : State} (h : exec (.rldb k b) s = .next t) :
    ∃ m', exec (.rldb k b) (withRmem m s) = .next (withRmem m' t) := by
  cases hf : s.fault with
  | true =>
    rw [exec_of_faulted (i := .rldb k b) hf nofun nofun] at h
    injection h with h
    exact ⟨m, by rw [exec_of_faulted (i := .rldb k b) (s := withRmem m s) hf nofun nofun, h]⟩
  | false =>
    by_cases hk : k.toNat < s.cfg.rcap
    · rw [exec_rldb_of_lt b hf hk] at h
      injection h with h
      exact ⟨m.write k.toNat b, by rw [exec_rldb_of_lt (s := withRmem m s) b hf hk, ← h]; rfl⟩
    · rw [exec_rldb_of_ge b hf (Nat.le_of_not_lt hk)] at h
      injection h with h
      exact ⟨m, by rw [exec_rldb_of_ge (s := withRmem m s) b hf (Nat.le_of_not_lt hk), ← h]; rfl⟩

theorem offer_withRmem (method : Method) (l : Word) (s : State) :
    offer method l (withRmem m s) = withRmem m (offer method l s) := by
  by_cases h : l.toNat < s.bestLen.toNat
  · rw [offer_of_lt h, offer_of_lt (s := withRmem m s) h]
    rfl
  · rw [offer_of_ge (Nat.le_of_not_lt h), offer_of_ge (s := withRmem m s) (Nat.le_of_not_lt h)]

theorem illegalWord_withRmem (s : State) : illegalWord (withRmem m s) = withRmem m (illegalWord s) := by
  cases hf : s.fault with
  | true => rw [illegalWord_of_faulted hf, illegalWord_of_faulted (s := withRmem m s) hf]
  | false =>
    rw [illegalWord, illegalWord, raise_of_live _ s hf, raise_of_live _ (withRmem m s) hf]
    rfl

theorem exec_rdreg_withRmem {r : BitVec 8} {t : State} (h : exec (.rdreg r) s = .next t) :
    exec (.rdreg r) (withRmem m s) = .next (withRmem m t) := by
  have hread : readRegister r (withRmem m s) = readRegister r s := rfl
  cases hw : readRegister r s with
  | some w =>
    rw [exec_rdreg_of_some hw] at h
    injection h with h
    rw [exec_rdreg_of_some (hread.trans hw), ← h]
    rfl
  | none =>
    simp only [exec, execRdreg, hw] at h
    injection h with h
    simp only [exec, execRdreg, hread, hw, ← h, illegalWord_withRmem]

variable {m}

/-- Every command but RLDB answers the same with another RMEM, and keeps it. -/
theorem exec_withRmem (hm : ∀ p, p < 8 * s.rlen → m.bit p = s.rmem.bit p) {i : Instr} {t : State}
    (hi : ∀ k b, i ≠ .rldb k b) (h : exec i s = .next t) : exec i (withRmem m s) = .next (withRmem m t) := by
  cases i with
  | nop | init => injection h with h; subst h; rfl
  | rdreg r => exact exec_rdreg_withRmem m h
  | rldb k b => exact absurd rfl (hi k b)
  | wclr | wlen | wpad | wblen | rrem | sinit | hclass => exact runCommand_withRmem m (body := .ok _) rfl h
  | wbit | wbyte | cdleave => exact runCommand_withRmem m (append_withRmem m _ s) h
  | wbits n v => exact runCommand_withRmem m (ite_withRmem m (append_withRmem m _ s) rfl) h
  | wrdb k | rbind k => exact runCommand_withRmem m (ite_withRmem m rfl rfl) h
  | rbit | rbyte => exact runCommand_withRmem m (readBits_withRmem hm _) h
  | rbits n => exact runCommand_withRmem m (ite_withRmem m (readBits_withRmem hm _) rfl) h
  | penc28 sym | penc5 sym => exact runCommand_withRmem m (prefixEncode_withRmem m _ sym s) h
  | pdec28 | pdec5 => exact runCommand_withRmem m (prefixDecode_withRmem hm _) h
  | caenc c => exact runCommand_withRmem m (absEncode_withRmem m c.toNat s) h
  | cadec => exact runCommand_withRmem m (absDecode_withRmem hm) h
  | cdenc c => exact runCommand_withRmem m (deltaEncode_withRmem m c.toNat s) h
  | cdlit j => exact runCommand_withRmem m (ite_withRmem m rfl (append_withRmem m _ s)) h
  | cddec => exact runCommand_withRmem m (deltaDecode_withRmem hm) h
  | soffer tag l =>
    refine runCommand_withRmem m ?_ h
    cases candidateMethod tag with
    | none => rfl
    | some method => exact ite_withRmem m (congrArg Except.ok (offer_withRmem m method l s)) rfl
  | sfinal u => exact runCommand_withRmem m (ite_withRmem m rfl rfl) h

/-- Settles O20: RLDB alone writes RMEM, and every other command keeps the RMEM it is given. -/
theorem nothingPastTheViewIsRead : Obligations.NothingPastTheViewIsRead := by
  intro i s t m hm h
  by_cases hi : ∃ k b, i = .rldb k b
  · obtain ⟨k, b, rfl⟩ := hi
    obtain ⟨m', hm'⟩ := exec_rldb_withRmem m h
    exact ⟨m', hm', fun hne => absurd rfl (hne k b)⟩
  · have hne : ∀ k b, i ≠ .rldb k b := fun k b e => hi ⟨k, b, e⟩
    exact ⟨m, exec_withRmem hm hne h, fun _ => rfl⟩

end Sys2Proof.Machine
end

section
/-! The decode tree of a well-formed table (43_prefix_code.md R184): its depth, and the walk on it against the table walk. -/

namespace Sys2Proof.Machine

open Sys2Proof.Safety

/-! ### Depth -/

/-- No node of the tree lies at depth L or below it, so no path is longer than L. -/
theorem treeDepth_le {t : CodeTree} {L : Nat} (h : ∀ q l r, treeAt t q = .node l r → q.length < L) : treeDepth t ≤ L := by
  induction t generalizing L with
  | empty | leaf => exact Nat.zero_le L
  | node l r ihl ihr =>
    have hroot : 0 < L := h [] l r rfl
    have hl : treeDepth l ≤ L - 1 := ihl fun q l' r' hq => by
      have := h (false :: q) l' r' hq
      rw [List.length_cons] at this
      omega
    have hr : treeDepth r ≤ L - 1 := ihr fun q l' r' hq => by
      have := h (true :: q) l' r' hq
      rw [List.length_cons] at this
      omega
    rw [treeDepth]
    omega

/-- A path that stays on the tree is no longer than its depth. -/
theorem length_le_treeDepth {t : CodeTree} {q : List Bool} (h : treeAt t q ≠ .empty) : q.length ≤ treeDepth t := by
  induction q generalizing t with
  | nil => exact Nat.zero_le _
  | cons b q ih =>
    cases t with
    | empty | leaf => exact absurd rfl h
    | node l r =>
      have hq := ih h
      have hchild : treeDepth (if b then r else l) ≤ max (treeDepth l) (treeDepth r) := by
        cases b
        · exact Nat.le_max_left _ _
        · exact Nat.le_max_right _ _
      rw [treeDepth, List.length_cons]
      omega

/-! ### The tree of a table -/

variable {N L : Nat} {T : Vector PrefixEntry N}

/-- The leaves are the symbols, each at the end of its codeword. -/
theorem codeTree_leaf (hT : prefixTableWf T L) {q : List Bool} {sym : Nat} :
    treeAt (codeTree T) q = .leaf sym ↔ ∃ h : sym < N, q = codePath T[sym] :=
  ((treeHolds_codeTree hT).leaf q sym).trans (mem_codes q sym)

/-- The nodes are the proper beginnings of codewords. -/
theorem codeTree_node (hT : prefixTableWf T L) {q : List Bool} :
    (∃ l r, treeAt (codeTree T) q = .node l r) ↔ ∃ sym : Fin N, q <+: codePath T[sym] ∧ q ≠ codePath T[sym] := by
  rw [(treeHolds_codeTree hT).node q]
  constructor
  · rintro ⟨⟨q', sym⟩, hmem, hpre, hne⟩
    obtain ⟨hsym, rfl⟩ := (mem_codes q' sym).mp hmem
    exact ⟨⟨sym, hsym⟩, hpre, hne⟩
  · rintro ⟨sym, hpre, hne⟩
    exact ⟨(codePath T[sym], sym.1), (mem_codes _ _).mpr ⟨sym.2, rfl⟩, hpre, hne⟩

theorem length_codePath (e : PrefixEntry) : (codePath e).length = e.len := lowBits_length e.code e.len

theorem treeDepth_codeTree (hT : prefixTableWf T L) : treeDepth (codeTree T) = L := by
  have ⟨hentry, ⟨deepest, hdeepest⟩, _⟩ := hT
  refine Nat.le_antisymm (treeDepth_le fun q l r hq => ?_) ?_
  · obtain ⟨sym, hpre, hne⟩ := (codeTree_node hT).mp ⟨l, r, hq⟩
    have hlt : q.length < (codePath T[sym]).length :=
      lt_of_le_of_ne hpre.length_le fun e => hne (hpre.eq_of_length e)
    rw [length_codePath] at hlt
    exact lt_of_lt_of_le hlt (hentry sym).2.1
  · have hleaf : treeAt (codeTree T) (codePath T[deepest]) = .leaf deepest := (codeTree_leaf hT).mpr ⟨deepest.2, rfl⟩
    have hle := length_le_treeDepth (t := codeTree T) (q := codePath T[deepest]) (by rw [hleaf]; exact nofun)
    rwa [length_codePath, hdeepest] at hle

/-! ### The tree at the end of k bits -/

/-- After k bits that are a whole codeword the tree is at the leaf of its symbol. -/
theorem codeTree_of_leafAt (hT : prefixTableWf T L) {k v sym : Nat} (h : leafAt T k v = some sym) :
    treeAt (codeTree T) (lowBits v k) = .leaf sym := by
  obtain ⟨hsym, rfl, rfl⟩ := leafAt_some h
  exact (codeTree_leaf hT).mpr ⟨hsym, rfl⟩

theorem lowBits_prefix_codePath {k v : Nat} (hv : v < 2 ^ k) (e : PrefixEntry) :
    lowBits v k <+: codePath e ↔ k ≤ e.len ∧ e.code % 2 ^ k = v := by
  rw [codePath_eq, lowBits_prefix, Nat.mod_eq_of_lt hv, eq_comm (a := v)]

/-- After k bits that only begin a codeword the tree is at a node. -/
theorem codeTree_node_iff_extendsAt (hT : prefixTableWf T L) {k v : Nat} (hv : v < 2 ^ k) :
    (∃ l r, treeAt (codeTree T) (lowBits v k) = .node l r) ↔ extendsAt T k v = true := by
  rw [codeTree_node hT, extendsAt_iff]
  refine exists_congr fun sym => ?_
  rw [lowBits_prefix_codePath hv]
  constructor
  · rintro ⟨⟨hle, hcode⟩, hne⟩
    refine ⟨lt_of_le_of_ne hle fun e => hne ?_, hcode⟩
    subst e
    exact lowBits_congr (by rw [← hcode, Nat.mod_mod])
  · rintro ⟨hlt, hcode⟩
    refine ⟨⟨hlt.le, hcode⟩, fun e => ?_⟩
    have hlen := congrArg List.length e
    rw [lowBits_length, length_codePath] at hlen
    omega

/-- After k bits that neither are nor begin a codeword the walk has left the tree. -/
theorem codeTree_of_noCodeword (hT : prefixTableWf T L) {k v : Nat} (hv : v < 2 ^ k) (hleaf : leafAt T k v = none)
    (hext : extendsAt T k v = false) : treeAt (codeTree T) (lowBits v k) = .empty := by
  cases h : treeAt (codeTree T) (lowBits v k) with
  | empty => rfl
  | leaf sym =>
    obtain ⟨hsym, hpath⟩ := (codeTree_leaf hT).mp h
    obtain ⟨hle, hcode⟩ := (lowBits_prefix_codePath hv T[sym]).mp (by rw [hpath])
    have hlen := congrArg List.length hpath
    rw [lowBits_length, length_codePath] at hlen
    subst hlen
    have hlt : T[sym].code < 2 ^ T[sym].len := (hT.1 ⟨sym, hsym⟩).2.2
    rw [Nat.mod_eq_of_lt hlt] at hcode
    exact absurd ⟨rfl, hcode⟩ (leafAt_none hleaf ⟨sym, hsym⟩)
  | node l r => exact absurd ((codeTree_node_iff_extendsAt hT hv).mp ⟨l, r, h⟩) (ne_true_of_eq_false hext)

/-! ### The walk -/

/-- The child that a bit of the view selects is the tree one bit further on. -/
theorem treeAt_viewBits_succ {t : CodeTree} {s : State} {p0 k : Nat} {l r : CodeTree}
    (h : treeAt t (lowBits (viewBits s p0 k) k) = .node l r) :
    treeAt t (lowBits (viewBits s p0 (k + 1)) (k + 1)) = if viewBit s (p0 + k) then r else l := by
  have hlow : lowBits (viewBits s p0 (k + 1)) k = lowBits (viewBits s p0 k) k :=
    lowBits_congr (by rw [viewBits_mod _ _ _ _ (Nat.le_succ k), viewBits_mod _ _ _ _ (Nat.le_refl k)])
  have hbit : (viewBits s p0 (k + 1)).testBit k = viewBit s (p0 + k) := by
    rw [viewBits_testBit, decide_eq_true (Nat.lt_succ_self k), Bool.true_and]
  rw [lowBits_succ, hlow, hbit, treeAt_append, h, treeAt_node]
  rfl

theorem treeWalk_node {s : State} {l r : CodeTree} {p : Nat} (h : p < 8 * s.rlen) :
    treeWalk s (.node l r) p = treeWalk s (if viewBit s p then r else l) (p + 1) := by
  rw [treeWalk, if_neg (Nat.not_le_of_lt h)]
  split <;> rfl

/-- At a node k bits after p0, with n bits of the view left, both walks go on alike. -/
theorem treeWalk_eq_prefixWalk (hT : prefixTableWf T L) (s : State) (p0 n k : Nat)
    (hn : n = 8 * s.rlen - (p0 + k)) {l r : CodeTree}
    (hnode : treeAt (codeTree T) (lowBits (viewBits s p0 k) k) = .node l r) :
    treeWalk s (.node l r) (p0 + k) = prefixWalk T s n (p0 + k) (viewBits s p0 k) k := by
  induction n generalizing k l r with
  | zero =>
    rw [treeWalk, if_pos (by omega)]
    rfl
  | succ n ih =>
    have hv := viewBits_lt s p0 (k + 1)
    rw [prefixWalk_step, treeWalk_node (by omega), ← treeAt_viewBits_succ hnode]
    cases hleaf : leafAt T (k + 1) (viewBits s p0 (k + 1)) with
    | some sym =>
      rw [codeTree_of_leafAt hT hleaf]
      rfl
    | none =>
      cases hext : extendsAt T (k + 1) (viewBits s p0 (k + 1)) with
      | true =>
        obtain ⟨l', r', hnode'⟩ := (codeTree_node_iff_extendsAt hT hv).mpr hext
        rw [hnode']
        exact ih (k + 1) (by omega) hnode'
      | false =>
        rw [codeTree_of_noCodeword hT hv hleaf hext]
        rfl

/-- The root of the tree is a node: every codeword has at least one bit. -/
theorem codeTree_root (hT : prefixTableWf T L) : ∃ l r, codeTree T = .node l r := by
  have ⟨hentry, ⟨sym, _⟩, _⟩ := hT
  obtain ⟨hpos, -, -⟩ := hentry sym
  refine (codeTree_node hT (q := [])).mpr ⟨sym, List.nil_prefix, fun e => ?_⟩
  have hlen := congrArg List.length e
  rw [length_codePath, List.length_nil] at hlen
  omega

/-- Settles O38: the depth is the length of the longest codeword, and the walks agree from the root on. -/
theorem treeWalkIsTheTableWalk : Obligations.TreeWalkIsTheTableWalk := by
  intro N L T hT
  refine ⟨treeDepth_codeTree hT, fun s => ?_⟩
  obtain ⟨l, r, hroot⟩ := codeTree_root hT
  rw [hroot]
  exact treeWalk_eq_prefixWalk hT s s.rpos (remaining s) 0 rfl hroot

end Sys2Proof.Machine
end

section
/-! The bits of a completed append, read back (43_prefix_code.md §2, 44_codepoint.md §2): the view of the reader holds what the
writer appended. -/

namespace Sys2Proof.Machine

open Sys2Proof.Safety

variable {s t u r : State} {bits : List Bool}

/-- A command that leaves the SSBC live has completed. -/
theorem runCommand_ok_of_live {body : Except Cause State} (hl : live s) (ht : live t)
    (h : runCommand s body = .next t) : body = .ok t := by
  obtain hok | ⟨c, -, rfl⟩ := runCommand_cases hl h
  · exact hok
  · cases ht

theorem appended_of_append_ok {fs : List Field} (hw : s.wmem.wf) (h : append fs s = .ok t) :
    Appended s t (fieldBits fs) := by
  obtain ⟨-, rfl⟩ := append_ok h
  rw [← appendFields_eq]
  exact appendFields_appended fs s hw

theorem wpos_sub_of_appended (h : Appended s t bits) : t.wpos - s.wpos = bits.length := by
  rw [congrArg State.wpos h.1]
  exact Nat.add_sub_cancel_left _ _

theorem prevValid_of_appended (h : Appended s t bits) : t.prevValid = s.prevValid := by
  rw [h.1]

/-- A view that copies what was written between s and t holds the bits that were appended. -/
theorem viewHolds_of_viewCopies (happ : Appended s t bits) (h : viewCopies r s t) : viewHolds r r.rpos bits := by
  obtain ⟨hroom, hcopy⟩ := h
  rw [wpos_sub_of_appended happ] at hroom hcopy
  obtain ⟨-, hbit, -⟩ := happ
  refine ⟨hroom, fun i hi => ?_⟩
  rw [hcopy i hi, hbit, if_pos (by omega), Nat.add_sub_cancel_left]

/-! ### Prefix codes -/

/-- A symbol that was encoded is what the same table decodes. -/
theorem prefixDecode_of_prefixEncode {N L : Nat} {T : Vector PrefixEntry N} {sym : Word} (hT : prefixTableWf T L)
    (hw : s.wmem.wf) (h : prefixEncode T sym s = .ok t) (hv : viewCopies r s t) :
    prefixDecode T r = .ok { r with rpos := r.rpos + (t.wpos - s.wpos), dout := sym } := by
  by_cases hlt : sym.toNat < N
  · rw [prefixEncode_of_lt T hlt] at h
    have happ : Appended s t (codeword T ⟨sym.toNat, hlt⟩) := List.append_nil (codeword T ⟨sym.toNat, hlt⟩) ▸
      appended_of_append_ok hw h
    rw [prefixDecode_of_viewHolds hT (viewHolds_of_viewCopies happ hv), wpos_sub_of_appended happ, codeword,
      lowBits_length, BitVec.ofNat_toNat, BitVec.setWidth_eq]
  · rw [prefixEncode_of_ge T (Nat.le_of_not_lt hlt)] at h
    cases h

/-- A pair of commands whose bodies are `prefixEncode` and `prefixDecode` over one table: the second gives back the symbol
that the first wrote. -/
theorem exec_decoder_of_encoder {N L : Nat} {T : Config → Vector PrefixEntry N} {enc : Word → Instr} {dec : Instr}
    (henc : ∀ sym s, exec (enc sym) s = runCommand s (prefixEncode (T s.cfg) sym s))
    (hdec : ∀ s, exec dec s = runCommand s (prefixDecode (T s.cfg) s)) {sym : Word} (hs : live s) (ht : live t)
    (hr : live r) (hw : s.wmem.wf) (hcfg : r.cfg = s.cfg) (hT : prefixTableWf (T s.cfg) L) (hv : viewCopies r s t)
    (h : exec (enc sym) s = .next t) :
    exec dec r = .next { r with rpos := r.rpos + (t.wpos - s.wpos), dout := sym } := by
  rw [henc] at h
  rw [hdec, hcfg, prefixDecode_of_prefixEncode hT hw (runCommand_ok_of_live hs ht h) hv, runCommand_ok hr, ← hcfg]

/-- Settles O39: both pairs of commands work over one table of the configuration, which is well-formed. -/
theorem prefixCodeRoundTrip : Obligations.PrefixCodeRoundTrip := by
  intro s t r sym hs hr hw hcfg hwf hv ht
  obtain ⟨-, -, h28, h5, -⟩ := hwf
  exact ⟨exec_decoder_of_encoder (T := Config.pc28) (enc := .penc28) (fun _ _ => rfl) (fun _ => rfl) hs ht hr hw hcfg h28 hv,
    exec_decoder_of_encoder (T := Config.pc5) (enc := .penc5) (fun _ _ => rfl) (fun _ => rfl) hs ht hr hw hcfg h5 hv⟩

/-! ### Absolute codes -/

/-- The code of a scalar value, of whichever tier, reads back as that value and is consumed exactly. -/
theorem absRead_of_absCode {c : Nat} (hwf : configWf r.cfg) (hc : scalar c) (hcode : AbsCode r.cfg c bits)
    (h : viewHolds r r.rpos bits) : absRead r = .ok (c, r.rpos + bits.length) := by
  cases hcode with
  | tierA i hi hget least =>
    have hentry : (r.cfg.lowcp[i]).toNat = c := by simpa [hi] using hget
    rw [absRead_of_tierA ⟨i, hi⟩ h, List.length_cons, lowBits_length]
    exact congrArg (fun x => Except.ok (x, r.rpos + 9)) hentry
  | tierB hnotA lo hi =>
    obtain ⟨-, -, -, -, -, -, -, hsize⟩ := hwf
    rw [absRead_of_tierB (by omega) h, Nat.add_sub_cancel' lo]
    rfl
  | tierC hnotA hout =>
    rw [absRead_of_tierC (lt_of_le_of_lt hc.1 (by decide)) h]
    rfl

theorem absEncode_ok {c : Nat} (h : absEncode c s = .ok t) :
    scalar c ∧ ∃ u, append (absFields s.cfg c) s = .ok u ∧ t = setPrev c u := by
  by_cases hc : scalar c
  · refine ⟨hc, ?_⟩
    cases happ : append (absFields s.cfg c) s with
    | ok u =>
      rw [absEncode_of_append_ok hc happ] at h
      injection h with h
      exact ⟨u, rfl, h.symm⟩
    | error e =>
      rw [absEncode_of_append_error hc happ] at h
      cases h
  · rw [absEncode_of_not_scalar hc] at h
    cases h

/-- Settles O45: CAENC that completes has appended the absolute code of a scalar value, which CADEC reads back. -/
theorem absoluteCodeRoundTrip : Obligations.AbsoluteCodeRoundTrip := by
  intro s t r c hs ht hr hw hcfg hwf h hv
  obtain ⟨hc, u, happend, rfl⟩ := absEncode_ok (runCommand_ok_of_live hs ht h)
  have happ := appended_of_append_ok hw happend
  have hcode := absFields_absCode s.cfg c.toNat
  rw [← hcfg] at hwf hcode happ
  have hread := absRead_of_absCode hwf hc hcode (viewHolds_of_viewCopies happ hv)
  have hexec := exec_cadec_of_read_ok hr hread
  rw [if_pos hc] at hexec
  rw [hexec, setPrev_wpos, wpos_sub_of_appended happ, BitVec.ofNat_toNat, BitVec.setWidth_eq]
  rfl

/-! ### Delta codes -/

/-- A descriptor and its payload read back as the codepoint they make with the previous one. -/
theorem deltaRead_of_form {d f w off c : Nat} (hd : d < 6) (hform : deltaPayload (d % 3) = (w, off)) (hf : f < 2 ^ w)
    (hv : r.prevValid = true) (hc : scalar c)
    (hsum : (c : Int) = if d < 3 then (r.prevCp.toNat : Int) + (f + off : Nat) else (r.prevCp.toNat : Int) - (f + off : Nat))
    (h : viewHolds r r.rpos (lowBits d 3 ++ lowBits f w)) :
    deltaRead r = .ok (.delta, c, r.rpos + (lowBits d 3 ++ lowBits f w).length) := by
  rw [deltaRead_of_delta hd hform hf hv h hsum, Int.toNat_natCast, if_pos ⟨Int.natCast_nonneg c, hc⟩, List.length_append,
    lowBits_length, lowBits_length]

/-- The code of a scalar value, of whichever form, reads back as that value and is consumed exactly. -/
theorem deltaRead_of_deltaCode {c : Nat} (hv : r.prevValid = true) (hc : scalar c)
    (hcode : DeltaCode r.prevCp.toNat c bits) (h : viewHolds r r.rpos bits) :
    deltaRead r = .ok (.delta, c, r.rpos + bits.length) := by
  have hprev := r.prevCp.isLt
  have hlt : c < 2 ^ 21 := lt_of_le_of_lt hc.1 (by decide)
  cases hcode with
  | pos7 hle hm => exact deltaRead_of_form (by decide) rfl (by omega) hv hc (by rw [if_pos (by decide)]; omega) h
  | pos14 hle lo hi => exact deltaRead_of_form (by decide) rfl (by omega) hv hc (by rw [if_pos (by decide)]; omega) h
  | pos21 hle lo => exact deltaRead_of_form (by decide) rfl (by omega) hv hc (by rw [if_pos (by decide)]; omega) h
  | neg7 hlt' hm => exact deltaRead_of_form (by decide) rfl (by omega) hv hc (by rw [if_neg (by decide)]; omega) h
  | neg14 hlt' lo hi => exact deltaRead_of_form (by decide) rfl (by omega) hv hc (by rw [if_neg (by decide)]; omega) h
  | neg21 hlt' lo => exact deltaRead_of_form (by decide) rfl (by omega) hv hc (by rw [if_neg (by decide)]; omega) h

theorem deltaEncode_ok {c : Nat} (h : deltaEncode c s = .ok t) : scalar c ∧ s.prevValid = true ∧
    ∃ u, append (deltaFields s.prevCp.toNat c) s = .ok u ∧ t = { u with prevCp := BitVec.ofNat 21 c } := by
  by_cases hc : scalar c
  · cases hv : s.prevValid with
    | false =>
      rw [deltaEncode_of_noPrev hc hv] at h
      cases h
    | true =>
      refine ⟨hc, rfl, ?_⟩
      cases happ : append (deltaFields s.prevCp.toNat c) s with
      | ok u =>
        rw [deltaEncode_of_append_ok hc hv happ] at h
        injection h with h
        exact ⟨u, rfl, h.symm⟩
      | error e =>
        rw [deltaEncode_of_append_error hc hv happ] at h
        cases h
  · rw [deltaEncode_of_not_scalar hc] at h
    cases h

/-- CDENC, then CDDEC with the same PREV. -/
theorem exec_cddec_of_cdenc {c : Word} (hs : live s) (ht : live t) (hr : live r) (hw : s.wmem.wf)
    (hprev : r.prevCp = s.prevCp) (hvalid : r.prevValid = s.prevValid) (hv : viewCopies r s t)
    (h : exec (.cdenc c) s = .next t) : exec .cddec r =
      .next { r with rpos := r.rpos + (t.wpos - s.wpos), dout := c, prevCp := t.prevCp, prevValid := t.prevValid } := by
  obtain ⟨hc, hp, u, happend, rfl⟩ := deltaEncode_ok (runCommand_ok_of_live hs ht h)
  have happ := appended_of_append_ok hw happend
  have hcode := deltaFields_deltaCode s.prevCp.toNat c.toNat
  rw [← hprev] at hcode happ
  have hread := deltaRead_of_deltaCode (hvalid.trans hp) hc hcode (viewHolds_of_viewCopies happ hv)
  have hkeep : r.prevValid = u.prevValid := hvalid.trans (prevValid_of_appended happ).symm
  rw [exec_cddec_of_delta hr hc hread, BitVec.ofNat_toNat, BitVec.setWidth_eq, ← wpos_sub_of_appended happ, ← hkeep]

/-- CDLIT, then CDDEC. -/
theorem exec_cddec_of_cdlit {j : Word} (hs : live s) (ht : live t) (hr : live r) (hw : s.wmem.wf) (hv : viewCopies r s t)
    (h : exec (.cdlit j) s = .next t) : ∃ hj : j.toNat < 4, exec .cddec r =
      .next { r with rpos := r.rpos + (t.wpos - s.wpos), dout := deltaWord .literal r.cfg.lit4[j.toNat] } := by
  by_cases hj : j.toNat < 4
  · rw [exec_cdlit_of_lt hj] at h
    have happ := appended_of_append_ok hw (runCommand_ok_of_live hs ht h)
    have hread := deltaRead_of_literal ⟨j.toNat, hj⟩ (viewHolds_of_viewCopies happ hv)
    refine ⟨hj, ?_⟩
    rw [exec_cddec_of_read_ok hr hread, BitVec.ofNat_toNat, BitVec.setWidth_eq, if_neg (by decide),
      wpos_sub_of_appended happ]
    rfl
  · rw [exec_cdlit_of_ge hs (Nat.le_of_not_lt hj)] at h
    injection h with h
    subst h
    cases ht

/-- CDLEAVE, then CDDEC. -/
theorem exec_cddec_of_cdleave (hs : live s) (ht : live t) (hr : live r) (hw : s.wmem.wf) (hv : viewCopies r s t)
    (h : exec .cdleave s = .next t) :
    exec .cddec r = .next { r with rpos := r.rpos + (t.wpos - s.wpos), dout := deltaWord .leave 0 } := by
  have happ := appended_of_append_ok hw (runCommand_ok_of_live hs ht h)
  have hread := deltaRead_of_leave (viewHolds_of_viewCopies happ hv)
  rw [exec_cddec_of_read_ok hr hread, if_neg (by decide), wpos_sub_of_appended happ]
  rfl

/-- Settles O46: the three commands that append a delta-mode symbol, one by one. -/
theorem deltaCodeRoundTrip : Obligations.DeltaCodeRoundTrip := by
  intro s t r hs ht hr hw hcfg hwf hprev hvalid hv
  refine ⟨fun c h => exec_cddec_of_cdenc hs ht hr hw hprev hvalid hv h, fun j h => ?_,
    exec_cddec_of_cdleave hs ht hr hw hv⟩
  rw [← hcfg]
  exact exec_cddec_of_cdlit hs ht hr hw hv h

end Sys2Proof.Machine
end

section
/-! A whole selection (45_selector.md §1, R231 to R233): the best candidate so far, and the size contract. -/

namespace Sys2Proof.Machine

open Sys2Proof.Safety

/-! ### The size contract -/

/-- Settles O50: the two outcomes of SFINAL; BEST_LEN is never below a UTF-8 length of 0. -/
theorem selectionNeverExpands : Obligations.SelectionNeverExpands := by
  intro s t u hl hv h
  rw [exec_sfinal_of_selection hl hv] at h
  injection h with h
  subst h
  by_cases hlt : s.bestLen.toNat < u.toNat
  · rw [finishSelection_of_lt hlt]
    exact ⟨iff_of_true rfl hlt, hlt.le, nofun, fun hu => by subst hu; exact absurd hlt (Nat.not_lt_zero _)⟩
  · rw [finishSelection_of_le (Nat.le_of_not_lt hlt)]
    exact ⟨iff_of_false nofun hlt, Nat.le_refl _, fun _ => rfl, fun _ => ⟨rfl, rfl, rfl⟩⟩

/-! ### The first of minimal length -/

/-- The candidate best is the first of minimal length in a list of candidates (tag, length). -/
def FirstMinimum (candidates : List (BitVec 8 × Word)) (best : BitVec 8 × Word) : Prop :=
  ∃ k : Nat, candidates[k]? = some best ∧
    (∀ (j : Nat) (x : BitVec 8 × Word), candidates[j]? = some x → best.2.toNat ≤ x.2.toNat) ∧
    (∀ (j : Nat) (x : BitVec 8 × Word), j < k → candidates[j]? = some x → best.2.toNat < x.2.toNat)

theorem firstMinimum_singleton (x : BitVec 8 × Word) : FirstMinimum [x] x :=
  ⟨0, rfl, fun j y hy => by
    obtain rfl := List.mem_singleton.mp (List.mem_of_getElem? hy)
    exact Nat.le_refl _, fun j y hj => absurd hj (Nat.not_lt_zero j)⟩

variable {candidates : List (BitVec 8 × Word)} {best x : BitVec 8 × Word}

/-- An entry of a list with one more at its end is an old one or the new one. -/
theorem getElem?_concat_cases {j : Nat} {y : BitVec 8 × Word} (h : (candidates ++ [x])[j]? = some y) :
    candidates[j]? = some y ∨ (j = candidates.length ∧ y = x) := by
  obtain hlt | heq | hgt := Nat.lt_trichotomy j candidates.length
  · exact .inl (List.getElem?_append_left hlt ▸ h)
  · subst heq
    rw [List.getElem?_concat_length] at h
    exact .inr ⟨rfl, (Option.some.inj h).symm⟩
  · rw [List.getElem?_eq_none (by rw [List.length_append, List.length_singleton]; omega)] at h
    cases h

/-- A strictly smaller candidate is the new minimum, and none before it is as small. -/
theorem FirstMinimum.concat_of_lt (h : FirstMinimum candidates best) (hlt : x.2.toNat < best.2.toNat) :
    FirstMinimum (candidates ++ [x]) x := by
  obtain ⟨-, -, hmin, -⟩ := h
  refine ⟨candidates.length, List.getElem?_concat_length, fun j y hy => ?_, fun j y hj hy => ?_⟩
  · obtain hy | ⟨-, rfl⟩ := getElem?_concat_cases hy
    · exact hlt.le.trans (hmin j y hy)
    · exact Nat.le_refl _
  · obtain hy | ⟨rfl, -⟩ := getElem?_concat_cases hy
    · exact lt_of_lt_of_le hlt (hmin j y hy)
    · exact absurd hj (Nat.lt_irrefl _)

/-- Any other candidate leaves the minimum and its place. -/
theorem FirstMinimum.concat_of_le (h : FirstMinimum candidates best) (hle : best.2.toNat ≤ x.2.toNat) :
    FirstMinimum (candidates ++ [x]) best := by
  obtain ⟨k, hk, hmin, hfirst⟩ := h
  have hlen : k < candidates.length := (List.getElem?_eq_some_iff.mp hk).1
  refine ⟨k, (List.getElem?_append_left hlen).trans hk, fun j y hy => ?_, fun j y hj hy => ?_⟩
  · obtain hy | ⟨-, rfl⟩ := getElem?_concat_cases hy
    · exact hmin j y hy
    · exact hle
  · obtain hy | ⟨rfl, -⟩ := getElem?_concat_cases hy
    · exact hfirst j y hj hy
    · omega

/-! ### The selector over the offers -/

/-- A running selection whose best candidate is the first of minimal length among those offered so far. -/
structure Selecting (s : State) (offered : List (BitVec 8 × Word)) (best : BitVec 8 × Word) : Prop where
  live : live s
  valid : s.selValid = true
  length : s.bestLen = best.2
  tag : (methodTag s.bestMethod).toNat = best.1.toNat
  first : FirstMinimum offered best

variable {s : State} {offered : List (BitVec 8 × Word)}

theorem selecting_startSelection (hl : live s) (t : Word) : Selecting (startSelection t s) [(1, t)] (1, t) :=
  ⟨hl, rfl, rfl, rfl, firstMinimum_singleton (1, t)⟩

/-- One SOFFER of a legal tag. -/
theorem Selecting.exec_soffer (h : Selecting s offered best) (h2 : 2 ≤ x.1.toNat) (h4 : x.1.toNat ≤ 4) :
    ∃ u best', exec (.soffer x.1 x.2) s = .next u ∧ Selecting u (offered ++ [x]) best' := by
  obtain ⟨method, hm, htag⟩ := candidateMethod_some h2 h4
  rw [exec_soffer_of_selection h.live hm h.valid]
  by_cases hlt : x.2.toNat < s.bestLen.toNat
  · rw [offer_of_lt hlt]
    exact ⟨_, x, rfl, h.live, h.valid, rfl, htag, h.first.concat_of_lt (h.length ▸ hlt)⟩
  · rw [offer_of_ge (Nat.le_of_not_lt hlt)]
    exact ⟨s, best, rfl, h.live, h.valid, h.length, h.tag, h.first.concat_of_le (h.length ▸ Nat.le_of_not_lt hlt)⟩

theorem issue_cons {i : Instr} {is : List Instr} {s t : State} (h : exec i s = .next t) :
    issue (i :: is) s = issue is t := by
  rw [issue, h]

theorem issue_append_of_next {a : List Instr} (b : List Instr) {s t : State} (h : issue a s = .next t) :
    issue (a ++ b) s = issue b t := by
  rw [issue_append, h]

/-- The SOFFERs of a list of legal candidates. -/
theorem Selecting.issue_offers (h : Selecting s offered best) (xs : List (BitVec 8 × Word))
    (hxs : ∀ x ∈ xs, 2 ≤ x.1.toNat ∧ x.1.toNat ≤ 4) :
    ∃ u best', issue (offers xs) s = .next u ∧ Selecting u (offered ++ xs) best' := by
  induction xs generalizing s offered best with
  | nil => exact ⟨s, best, rfl, by rwa [List.append_nil]⟩
  | cons x xs ih =>
    obtain ⟨h2, h4⟩ := hxs x List.mem_cons_self
    obtain ⟨u, best', hexec, hu⟩ := h.exec_soffer h2 h4
    obtain ⟨v, best'', hissue, hv⟩ := ih hu fun y hy => hxs y (List.mem_cons_of_mem x hy)
    refine ⟨v, best'', (issue_cons hexec).trans hissue, ?_⟩
    rwa [List.append_assoc, List.singleton_append] at hv

/-- Settles O51: TreeSquash is the first candidate, the offers keep the first of minimal length, and SFINAL compares it with
the UTF-8 length. -/
theorem selectionPicksTheFirstMinimum : Obligations.SelectionPicksTheFirstMinimum := by
  intro s t u candidates hl hxs
  obtain ⟨v, best, hoffers, hv⟩ := (selecting_startSelection hl t).issue_offers candidates hxs
  obtain ⟨k, hk, hmin, hfirst⟩ := hv.first
  have hissue : issue (select t candidates u) s = .next (finishSelection u v) := by
    rw [select, issue_cons (exec_sinit hl t), issue_append_of_next _ hoffers,
      issue_cons (exec_sfinal_of_selection hv.live hv.valid u), issue]
  refine ⟨finishSelection u v, hissue, hv.live, rfl, k, best, hk, hv.length, hv.tag, hmin, hfirst, fun hlt => ?_, fun hle => ?_⟩
  · rw [finishSelection_of_lt (hv.length ▸ hlt)]
    exact ⟨rfl, rfl⟩
  · rw [finishSelection_of_le (hv.length ▸ hle)]
    exact ⟨rfl, rfl⟩

end Sys2Proof.Machine
end

section
/-! LOADVIEW (30_encoding.md R114): its bytes go to RMEM one after the other and are then bound. -/

namespace Sys2Proof.Machine

open Sys2Proof.Safety

/-- The memory with the bytes of a list at the addresses from first up. -/
def Memory.writeBytes : Nat → List Byte → Memory → Memory
  | _, [], m => m
  | first, b :: bs, m => Memory.writeBytes (first + 1) bs (m.write first b)

theorem Memory.read_writeBytes (first : Nat) (bs : List Byte) (m : Memory) (hm : m.wf) (k : Nat) :
    (Memory.writeBytes first bs m).read k =
      if first ≤ k ∧ k < first + bs.length then bs.getD (k - first) 0 else m.read k := by
  induction bs generalizing first m with
  | nil => rw [if_neg (by rw [List.length_nil]; omega), Memory.writeBytes]
  | cons b bs ih =>
    rw [Memory.writeBytes, ih (first + 1) _ (Memory.write_wf m hm first b), Memory.read_write m hm, List.length_cons]
    by_cases hk : k = first
    · subst hk
      rw [if_neg (by omega), if_pos rfl, if_pos (by omega), Nat.sub_self, List.getD_cons_zero]
    · by_cases hin : first ≤ k ∧ k < first + (bs.length + 1)
      · obtain ⟨i, rfl⟩ : ∃ i, k = first + 1 + i := ⟨k - (first + 1), by omega⟩
        rw [if_pos (by omega), if_pos hin, Nat.add_sub_cancel_left, Nat.add_assoc, Nat.add_sub_cancel_left, Nat.add_comm 1,
          List.getD_cons_succ]
      · rw [if_neg (by omega), if_neg hk, if_neg hin]

variable {s : State}

/-- The RLDBs of a list of bytes that fits RMEM, whose addresses all fit the index of RLDB. -/
theorem issue_loadBytes (first : Nat) (bs : List Byte) (hl : live s) (hcap : s.cfg.rcap ≤ 2 ^ 24)
    (hfit : first + bs.length ≤ s.cfg.rcap) :
    issue (loadBytes first bs) s = .next { s with rmem := Memory.writeBytes first bs s.rmem } := by
  induction bs generalizing first s with
  | nil => rfl
  | cons b bs ih =>
    rw [List.length_cons] at hfit
    have hindex : (BitVec.ofNat 24 first).toNat = first := by
      rw [BitVec.toNat_ofNat, Nat.mod_eq_of_lt (by omega)]
    have hexec := exec_rldb_of_lt (k := BitVec.ofNat 24 first) b hl (by omega)
    rw [hindex] at hexec
    rw [loadBytes, issue_cons hexec]
    exact ih (s := { s with rmem := s.rmem.write first b }) (first + 1) hl hcap (by dsimp only; omega)

theorem issue_loadView {bytes : List Byte} (hl : live s) (hcap : s.cfg.rcap ≤ 2 ^ 24)
    (hfit : bytes.length ≤ s.cfg.rcap) : issue (loadView bytes) s =
      .next { s with rmem := Memory.writeBytes 0 bytes s.rmem, rlen := bytes.length, rpos := 0 } := by
  have hlength : (BitVec.ofNat 32 bytes.length).toNat = bytes.length := by
    rw [BitVec.toNat_ofNat, Nat.mod_eq_of_lt (by omega)]
  have hbind := exec_rbind_of_le (l := BitVec.ofNat 32 bytes.length)
    (s := { s with rmem := Memory.writeBytes 0 bytes s.rmem }) hl (by rwa [hlength])
  rw [hlength] at hbind
  rw [loadView, issue_append_of_next _ (issue_loadBytes 0 bytes hl hcap (by omega)), issue_cons hbind]
  rfl

/-- Settles O53: the bytes are written at the addresses from 0 up, and no other byte is touched. -/
theorem loadViewLoadsAndBinds : Obligations.LoadViewLoadsAndBinds := by
  intro s bytes hl hm hcap hfit
  refine ⟨_, issue_loadView hl hcap hfit, fun k => ?_⟩
  rw [Memory.read_writeBytes 0 bytes s.rmem hm k]
  simp only [Nat.zero_le, true_and, Nat.zero_add, Nat.sub_zero]

end Sys2Proof.Machine
end

section
/-! The round trip of the writer and the reader (20_memory.md §3): fields that were appended from an empty writer, read back
from a view of the snapshot. -/

namespace Sys2Proof.Machine

open Sys2Proof.Safety

variable {s t r : State}

/-- The field that WBITS n, v appends. -/
def wbitsField (f : BitVec 8 × Word) : Field := ⟨f.2.toNat, f.1.toNat⟩

theorem totalWidth_wbitsFields (fields : List (BitVec 8 × Word)) :
    totalWidth (fields.map wbitsField) = (fields.map fun f => f.1.toNat).sum := by
  induction fields with
  | nil => rfl
  | cons f fields ih => rw [List.map_cons, List.map_cons, List.sum_cons, totalWidth, ih, wbitsField]

/-! ### Writing -/

theorem appendFields_fault (fs : List Field) (s : State) : (appendFields fs s).fault = s.fault := by
  rw [appendFields_eq, appendList_frame]

theorem appendFields_cfg (fs : List Field) (s : State) : (appendFields fs s).cfg = s.cfg := by
  rw [appendFields_eq, appendList_frame]

theorem appendFields_wpos (fs : List Field) (s : State) : (appendFields fs s).wpos = s.wpos + totalWidth fs := by
  rw [appendFields_eq, appendList_frame, fieldBits_length]

/-- The WBITS of a list of fields that fits the buffer append them one after the other. -/
theorem issue_wbits (fields : List (BitVec 8 × Word)) (hl : live s) (hcount : ∀ f ∈ fields, legalCount f.1)
    (hroom : s.wpos + totalWidth (fields.map wbitsField) ≤ 8 * s.cfg.wcap) :
    issue (fields.map fun f => .wbits f.1 f.2) s = .next (appendFields (fields.map wbitsField) s) := by
  induction fields generalizing s with
  | nil => rfl
  | cons f fields ih =>
    rw [List.map_cons, totalWidth] at hroom
    have hfits : ¬ 8 * s.cfg.wcap < s.wpos + totalWidth [wbitsField f] := by
      rw [totalWidth, totalWidth]
      omega
    have hexec : exec (.wbits f.1 f.2) s = .next (appendFields [wbitsField f] s) := by
      rw [exec_wbits_of_legal (hcount f List.mem_cons_self)]
      exact (congrArg (runCommand s) (if_neg hfits)).trans (runCommand_ok hl)
    rw [List.map_cons, issue_cons hexec, List.map_cons, appendFields]
    refine ih (s := appendFields [wbitsField f] s) ((appendFields_fault _ s).trans hl)
      (fun g hg => hcount g (List.mem_cons_of_mem f hg)) ?_
    rw [appendFields_wpos, appendFields_cfg, totalWidth, totalWidth]
    omega

/-! ### Reading -/

/-- The RBITS of the same widths read back the low bits of each field. -/
theorem douts_rbits (fields : List (BitVec 8 × Word)) (hl : live r) (hcount : ∀ f ∈ fields, legalCount f.1)
    (hv : viewHolds r r.rpos (fieldBits (fields.map wbitsField))) :
    douts (fields.map fun f => .rbits f.1) r = fields.map fun f => BitVec.ofNat 32 (f.2.toNat % 2 ^ f.1.toNat) := by
  induction fields generalizing r with
  | nil => rfl
  | cons f fields ih =>
    rw [List.map_cons, fieldBits, viewHolds_append, lowBits_length] at hv
    obtain ⟨hfirst, hrest⟩ := hv
    have hexec : exec (.rbits f.1) r = .next { r with
        rpos := r.rpos + f.1.toNat, dout := BitVec.ofNat 32 (f.2.toNat % 2 ^ f.1.toNat) } := by
      have hroom := hfirst.1
      rw [lowBits_length] at hroom
      rw [exec_rbits_of_legal (hcount f List.mem_cons_self), (runCommand_readBits f.1.toNat hl).1 hroom]
      rw [viewBits_of_viewHolds (n := f.1.toNat) hfirst]
      rfl
    rw [List.map_cons, List.map_cons, douts, hexec]
    exact congrArg (_ :: ·) (ih (r := { r with rpos := r.rpos + f.1.toNat, dout := _ }) hl
      (fun g hg => hcount g (List.mem_cons_of_mem f hg)) hrest)

/-! ### The snapshot as a view -/

theorem snapshot_getD {k : Nat} (h : k < byteLength t) : (snapshot t).getD k 0 = t.wmem.read k := by
  rw [List.getD_eq_getElem?_getD, snapshot_getElem?_of_lt h, Option.getD_some]

/-- Inside the snapshot, RMEM loaded with it has the bits of the writer. -/
theorem bit_of_loaded_snapshot {m : Memory} (hm : m.wf) {p : Nat} (hp : p < t.wpos) :
    (Memory.writeBytes 0 (snapshot t) m).bit p = t.wmem.bit p := by
  have hbyte : p / 8 < byteLength t := by
    unfold byteLength
    omega
  rw [Memory.bit, Memory.read_writeBytes 0 _ m hm, snapshot_length, if_pos (by omega), Nat.sub_zero, snapshot_getD hbyte,
    Memory.bit]

/-- A view of the snapshot of a writer that was empty holds the bits that were appended. -/
theorem viewHolds_of_loaded_snapshot {bits : List Bool} (happ : Appended s t bits) (hs : s.wpos = 0) (hm : r.rmem.wf) :
    viewHolds { r with rmem := Memory.writeBytes 0 (snapshot t) r.rmem, rlen := (snapshot t).length, rpos := 0 } 0 bits := by
  have hpos : t.wpos = bits.length := by
    rw [congrArg State.wpos happ.1, hs, Nat.zero_add]
  obtain ⟨-, hbit, -⟩ := happ
  refine ⟨?_, fun i hi => ?_⟩
  · dsimp only
    rw [snapshot_length, Nat.zero_add, ← hpos]
    exact (byteLength_bounds t).1
  · rw [viewBit, Nat.zero_add, bit_of_loaded_snapshot hm (hpos ▸ hi), hbit, hs, if_pos (by omega), Nat.sub_zero]

/-- Settles O54: the WBITS are one append, a view of its snapshot holds the appended bits, and the RBITS read them field by
field. -/
theorem writerReaderRoundTrip : Obligations.WriterReaderRoundTrip := by
  intro s fields hl hw hpos hcount hsum
  rw [← totalWidth_wbitsFields] at hsum
  refine ⟨_, issue_wbits fields hl hcount (by omega), (appendFields_fault _ s).trans hl, fun r hr hm hcap hfit => ?_⟩
  refine ⟨_, issue_loadView hr hcap hfit, ?_⟩
  exact douts_rbits fields hr hcount (viewHolds_of_loaded_snapshot (appendFields_appended _ s hw) hpos hm)

end Sys2Proof.Machine
end
